-- ==== Sys2Proof/Word.lean ====
section
/-! DEFINITION. The word types of the machine (spec/00_scope.md rule R7: a byte is 8 bits, bit 0 is the least
significant bit; spec/10_state.md rules R20 and R22 to R24 for the register widths; those that no rule gives are log entry 18's). -/

namespace Sys2Proof

/-- One byte of memory or of an instruction (rule R7). -/
abbrev Byte := BitVec 8

/-- An opmask register, a general register, RIP or an address (rules R22 to R24). RFLAGS, CR0, CR4 and XCR0 are words too:
PRESUMED, log entry 18, since no rule gives their width. -/
abbrev Word := BitVec 64

/-- The storage of one vector register: 512 bits, the widest `MAXVL` (rule R5). -/
abbrev Vec := BitVec 512

end Sys2Proof
end

