-- ==== Sys2Proof/Config.lean ====
section
/-! DEFINITION. The parameters of the model (spec/00_scope.md rules R3, R5, R6; spec/10_state.md rules R27, R28;
spec/20_memory.md rule R48; spec/70_reset_and_hazards.md rules R200, R204). The spec leaves no value of any
instruction undefined (rule R202), so there is no free value here: what it leaves open are these parameters, which a
launch fixes and no instruction changes. They stand in `State.params` as plain data. -/

namespace Sys2Proof

/-- The two processor modes of the admitted subset (rules R3, R6): 64-bit mode, and 32-bit protected and
compatibility modes. -/
inductive Mode where
  | long64
  | prot32
deriving DecidableEq, Repr

/-- The six segments of rule R25. -/
inductive Seg where
  | es
  | cs
  | ss
  | ds
  | fs
  | gs
deriving DecidableEq, Repr

/-- One stretch of linear addresses that a segment reaches: `base` up to `base + size - 1`. The stretches of a segment
say which addresses are canonical (`Long64`) or inside the segment's limit (`Prot32`), rule R48. A segment with no
stretch is unusable. -/
structure Window where
  seg  : Seg
  base : Nat
  size : Nat
deriving DecidableEq, Repr

/-- One stretch of linear addresses mapped to ordinary readable memory (rules R46, R48). `user` says whether privilege
level 3 may read it (rule R183). -/
structure Page where
  base : Nat
  size : Nat
  user : Bool
deriving DecidableEq, Repr

/-- The parameters of the step relation (rules R6, R28): read by the instructions, changed by none.

* `mode`: rule R3.
* `cpuid1Ecx`, `cpuid7Ebx`: the two CPUID words of rule R27 that hold the six flags of `Feat`; their 32 bits are PRESUMED,
  log entry 18.
* `faultSuppression`: rule R177.
* `reach`, `pages`: the predicate `Admit` of rule R48, as plain data.
* `progBase`, `progLen`: the program text of rule R204, the bytes at `progBase` up to `progBase + progLen - 1`. -/
structure Params where
  mode             : Mode
  cpuid1Ecx        : BitVec 32
  cpuid7Ebx        : BitVec 32
  faultSuppression : Bool
  reach            : List Window
  pages            : List Page
  progBase         : Word
  progLen          : Nat
deriving DecidableEq, Repr

end Sys2Proof
end

