-- ==== Sys2Proof/Syntax.lean ====
section
/-! DEFINITION. The instruction syntax: one constructor of `Instr` for each of the 36 rows of spec/opcode_table.json,
in the table's order. An instruction carries what its bytes say about operands and length (spec/30_encoding.md rules
R60 to R78): register numbers are the concatenated bit fields of rule R70, displacements are the raw fields of rule
R75. Bits the spec says are ignored (W where a row says WIG, an unused X, REX.W; rule R80, last paragraph) and the
order of the legacy prefixes (rule R62) are not kept: byte sequences that differ only there are the same
instruction. -/

namespace Sys2Proof

/-- A displacement field (rule R75): absent, one byte, or four bytes. -/
inductive Disp where
  | none
  | d8 (b : Byte)
  | d32 (w : BitVec 32)
deriving DecidableEq, Repr

/-- A memory operand as ModRM and SIB encode it (rules R71, R72). `base` has no SIB byte. `rip` is `mod` = 00b with
`rm` = 101b: relative to the next instruction in `Long64`, absolute in `Prot32` (rules R72, R73). `sib` and `sibNoBase`
have a SIB byte; `index` is absent when `X :: index` = 0100b. -/
inductive MemOp where
  | base (b : BitVec 4) (disp : Disp)
  | rip (disp : BitVec 32)
  | sib (b : BitVec 4) (index : Option (BitVec 4)) (ss : BitVec 2) (disp : Disp)
  | sibNoBase (index : Option (BitVec 4)) (ss : BitVec 2) (disp : BitVec 32)
deriving DecidableEq, Repr

/-- Operand 2, "ModRM:r/m (r)" (rule R69): a vector register, or memory. The number of a register source has 4 bits in
the legacy and VEX classes and 5 in the EVEX class (rule R70). -/
inductive Src (n : Nat) where
  | reg (r : BitVec n)
  | mem (m : MemOp)
deriving DecidableEq, Repr

/-- Operands of a legacy SSE form (rules R62, R63): the address-size prefix 67, a segment override, whether a REX byte
is present, the destination number `R :: reg`, and the source. -/
structure LegacyOps where
  adr67 : Bool
  seg   : Option Seg
  rex   : Bool
  d     : BitVec 4
  src   : Src 4
deriving DecidableEq, Repr

/-- Operands of a VEX form (rule R64). -/
structure VexOps where
  adr67 : Bool
  seg   : Option Seg
  d     : BitVec 4
  src   : Src 4
deriving DecidableEq, Repr

/-- Operands of an EVEX form (rule R66): the destination number `R' :: R :: reg`, the opmask selector `aaa`, and the
zeroing control `z`. -/
structure EvexOps where
  adr67 : Bool
  seg   : Option Seg
  d     : BitVec 5
  src   : Src 5
  aaa   : BitVec 3
  z     : Bool
deriving DecidableEq, Repr

/-- The 36 instruction forms (rule R1), one constructor per row of spec/opcode_table.json. -/
inductive Instr where
  /-- Row 1: 66 0F 38 30 /r PMOVZXBW xmm1, xmm2/m64 (rule R110). -/
  | pmovzxbw (o : LegacyOps)
  /-- Row 2: 66 0F 38 31 /r PMOVZXBD xmm1, xmm2/m32 (rule R111). -/
  | pmovzxbd (o : LegacyOps)
  /-- Row 3: 66 0F 38 32 /r PMOVZXBQ xmm1, xmm2/m16 (rule R112). -/
  | pmovzxbq (o : LegacyOps)
  /-- Row 4: 66 0F 38 33 /r PMOVZXWD xmm1, xmm2/m64 (rule R113). -/
  | pmovzxwd (o : LegacyOps)
  /-- Row 5: 66 0F 38 34 /r PMOVZXWQ xmm1, xmm2/m32 (rule R114). -/
  | pmovzxwq (o : LegacyOps)
  /-- Row 6: 66 0F 38 35 /r PMOVZXDQ xmm1, xmm2/m64 (rule R115). -/
  | pmovzxdq (o : LegacyOps)
  /-- Row 7: VEX.128.66.0F38.WIG 30 /r VPMOVZXBW xmm1, xmm2/m64 (rule R120). -/
  | vpmovzxbwVex128 (o : VexOps)
  /-- Row 8: VEX.128.66.0F38.WIG 31 /r VPMOVZXBD xmm1, xmm2/m32 (rule R121). -/
  | vpmovzxbdVex128 (o : VexOps)
  /-- Row 9: VEX.128.66.0F38.WIG 32 /r VPMOVZXBQ xmm1, xmm2/m16 (rule R122). -/
  | vpmovzxbqVex128 (o : VexOps)
  /-- Row 10: VEX.128.66.0F38.WIG 33 /r VPMOVZXWD xmm1, xmm2/m64 (rule R123). -/
  | vpmovzxwdVex128 (o : VexOps)
  /-- Row 11: VEX.128.66.0F38.WIG 34 /r VPMOVZXWQ xmm1, xmm2/m32 (rule R124). -/
  | vpmovzxwqVex128 (o : VexOps)
  /-- Row 12: VEX.128.66.0F38.WIG 35 /r VPMOVZXDQ xmm1, xmm2/m64 (rule R125). -/
  | vpmovzxdqVex128 (o : VexOps)
  /-- Row 13: VEX.256.66.0F38.WIG 30 /r VPMOVZXBW ymm1, xmm2/m128 (rule R126). -/
  | vpmovzxbwVex256 (o : VexOps)
  /-- Row 14: VEX.256.66.0F38.WIG 31 /r VPMOVZXBD ymm1, xmm2/m64 (rule R127). -/
  | vpmovzxbdVex256 (o : VexOps)
  /-- Row 15: VEX.256.66.0F38.WIG 32 /r VPMOVZXBQ ymm1, xmm2/m32 (rule R128). -/
  | vpmovzxbqVex256 (o : VexOps)
  /-- Row 16: VEX.256.66.0F38.WIG 33 /r VPMOVZXWD ymm1, xmm2/m128 (rule R129). -/
  | vpmovzxwdVex256 (o : VexOps)
  /-- Row 17: VEX.256.66.0F38.WIG 34 /r VPMOVZXWQ ymm1, xmm2/m64 (rule R130). -/
  | vpmovzxwqVex256 (o : VexOps)
  /-- Row 18: VEX.256.66.0F38.WIG 35 /r VPMOVZXDQ ymm1, xmm2/m128 (rule R131). -/
  | vpmovzxdqVex256 (o : VexOps)
  /-- Row 19: EVEX.128.66.0F38.WIG 30 /r VPMOVZXBW xmm1 {k1}{z}, xmm2/m64 (rule R140). -/
  | vpmovzxbwEvex128 (o : EvexOps)
  /-- Row 20: EVEX.256.66.0F38.WIG 30 /r VPMOVZXBW ymm1 {k1}{z}, xmm2/m128 (rule R141). -/
  | vpmovzxbwEvex256 (o : EvexOps)
  /-- Row 21: EVEX.512.66.0F38.WIG 30 /r VPMOVZXBW zmm1 {k1}{z}, ymm2/m256 (rule R142). -/
  | vpmovzxbwEvex512 (o : EvexOps)
  /-- Row 22: EVEX.128.66.0F38.WIG 31 /r VPMOVZXBD xmm1 {k1}{z}, xmm2/m32 (rule R143). -/
  | vpmovzxbdEvex128 (o : EvexOps)
  /-- Row 23: EVEX.256.66.0F38.WIG 31 /r VPMOVZXBD ymm1 {k1}{z}, xmm2/m64 (rule R144). -/
  | vpmovzxbdEvex256 (o : EvexOps)
  /-- Row 24: EVEX.512.66.0F38.WIG 31 /r VPMOVZXBD zmm1 {k1}{z}, xmm2/m128 (rule R145). -/
  | vpmovzxbdEvex512 (o : EvexOps)
  /-- Row 25: EVEX.128.66.0F38.WIG 32 /r VPMOVZXBQ xmm1 {k1}{z}, xmm2/m16 (rule R146). -/
  | vpmovzxbqEvex128 (o : EvexOps)
  /-- Row 26: EVEX.256.66.0F38.WIG 32 /r VPMOVZXBQ ymm1 {k1}{z}, xmm2/m32 (rule R147). -/
  | vpmovzxbqEvex256 (o : EvexOps)
  /-- Row 27: EVEX.512.66.0F38.WIG 32 /r VPMOVZXBQ zmm1 {k1}{z}, xmm2/m64 (rule R148). -/
  | vpmovzxbqEvex512 (o : EvexOps)
  /-- Row 28: EVEX.128.66.0F38.WIG 33 /r VPMOVZXWD xmm1 {k1}{z}, xmm2/m64 (rule R149). -/
  | vpmovzxwdEvex128 (o : EvexOps)
  /-- Row 29: EVEX.256.66.0F38.WIG 33 /r VPMOVZXWD ymm1 {k1}{z}, xmm2/m128 (rule R150). -/
  | vpmovzxwdEvex256 (o : EvexOps)
  /-- Row 30: EVEX.512.66.0F38.WIG 33 /r VPMOVZXWD zmm1 {k1}{z}, ymm2/m256 (rule R151). -/
  | vpmovzxwdEvex512 (o : EvexOps)
  /-- Row 31: EVEX.128.66.0F38.WIG 34 /r VPMOVZXWQ xmm1 {k1}{z}, xmm2/m32 (rule R152). -/
  | vpmovzxwqEvex128 (o : EvexOps)
  /-- Row 32: EVEX.256.66.0F38.WIG 34 /r VPMOVZXWQ ymm1 {k1}{z}, xmm2/m64 (rule R153). -/
  | vpmovzxwqEvex256 (o : EvexOps)
  /-- Row 33: EVEX.512.66.0F38.WIG 34 /r VPMOVZXWQ zmm1 {k1}{z}, xmm2/m128 (rule R154). -/
  | vpmovzxwqEvex512 (o : EvexOps)
  /-- Row 34: EVEX.128.66.0F38.W0 35 /r VPMOVZXDQ xmm1 {k1}{z}, xmm2/m64 (rule R155). -/
  | vpmovzxdqEvex128 (o : EvexOps)
  /-- Row 35: EVEX.256.66.0F38.W0 35 /r VPMOVZXDQ ymm1 {k1}{z}, xmm2/m128 (rule R156). -/
  | vpmovzxdqEvex256 (o : EvexOps)
  /-- Row 36: EVEX.512.66.0F38.W0 35 /r VPMOVZXDQ zmm1 {k1}{z}, ymm2/m256 (rule R157). -/
  | vpmovzxdqEvex512 (o : EvexOps)
deriving DecidableEq, Repr

end Sys2Proof
end

