-- ==== Sys2Proof/WellFormed.lean ====
section
/-! DEFINITION. Which instructions have an encoding in a given mode (spec/30_encoding.md rules R62 to R75, R80 to R82).
The decoder yields well-formed instructions only, and the encoder is specified on these. -/

namespace Sys2Proof

/-- Bits 2:0 of a register number: the part that ModRM or SIB holds (rule R70). -/
def low3 {n : Nat} (r : BitVec n) : BitVec 3 := r.setWidth 3

/-- The REX or VEX bit X that a memory operand needs: bit 3 of the index register's number (rules R63, R70). -/
def MemOp.xBit : MemOp → Bool
  | .base _ _ => false
  | .rip _ => false
  | .sib _ i _ _ => (i.getD 4#4).getLsbD 3
  | .sibNoBase i _ _ => (i.getD 4#4).getLsbD 3

/-- The REX or VEX bit B that a memory operand needs: bit 3 of the base register's number (rules R63, R70). Without a
base register B is ignored (rule R71) and taken as 0. -/
def MemOp.bBit : MemOp → Bool
  | .base b _ => b.getLsbD 3
  | .rip _ => false
  | .sib b _ _ _ => b.getLsbD 3
  | .sibNoBase _ _ _ => false

/-- The bit X an operand needs; in the EVEX class it is bit 4 of a register source's number (rule R70). -/
def Src.xBit {n : Nat} : Src n → Bool
  | .reg r => r.getLsbD 4
  | .mem m => m.xBit

/-- The bit B an operand needs (rule R70). -/
def Src.bBit {n : Nat} : Src n → Bool
  | .reg r => r.getLsbD 3
  | .mem m => m.bBit

/-- The shape of a memory operand that ModRM and SIB can express (rules R71, R72): a base whose low three bits are 100b
needs a SIB byte, one whose low three bits are 101b needs a displacement, and register 4 is never an index. -/
def MemOp.wf : MemOp → Bool
  | .base b d => low3 b != 4#3 && (low3 b != 5#3 || d != .none)
  | .rip _ => true
  | .sib b i _ d => (low3 b != 5#3 || d != .none) && i != some 4#4
  | .sibNoBase i _ _ => i != some 4#4

/-- An operand that can be encoded (rules R69 to R72). -/
def Src.wf {n : Nat} : Src n → Bool
  | .reg _ => true
  | .mem m => m.wf

/-- In `Prot32` only registers 0 to 7 can be named (rules R21, R23, R82) and the prefix 67 is refused (rule R74). -/
def Src.narrow {n : Nat} (s : Src n) : Bool := !s.xBit && !s.bBit

/-- A legacy form that has an encoding in mode `m` (rules R62, R63): without a REX byte every extension bit is 0; in
`Prot32` there is no REX byte and no prefix 67. -/
def LegacyOps.wf (m : Mode) (o : LegacyOps) : Bool :=
  o.src.wf && (o.rex || (!o.d.getLsbD 3 && o.src.narrow)) && (m == .long64 || (!o.rex && !o.adr67))

/-- A VEX form that has an encoding in mode `m` (rules R64, R74, R82). -/
def VexOps.wf (m : Mode) (o : VexOps) : Bool :=
  o.src.wf && (m == .long64 || (!o.d.getLsbD 3 && o.src.narrow && !o.adr67))

/-- An EVEX form that has an encoding in mode `m` (rules R66, R74, R82): zeroing-masking needs an opmask (rule R80 (d)). -/
def EvexOps.wf (m : Mode) (o : EvexOps) : Bool :=
  o.src.wf && !(o.z && o.aaa == 0#3) &&
    (m == .long64 || (!o.d.getLsbD 4 && !o.d.getLsbD 3 && o.src.narrow && !o.adr67))

/-- The operands of an instruction, by encoding class (rule R1). -/
inductive Operands where
  | legacy (o : LegacyOps)
  | vex (o : VexOps)
  | evex (o : EvexOps)
deriving DecidableEq, Repr

/-- The operands of each form. -/
def Instr.operands : Instr → Operands
  | .pmovzxbw o => .legacy o
  | .pmovzxbd o => .legacy o
  | .pmovzxbq o => .legacy o
  | .pmovzxwd o => .legacy o
  | .pmovzxwq o => .legacy o
  | .pmovzxdq o => .legacy o
  | .vpmovzxbwVex128 o => .vex o
  | .vpmovzxbdVex128 o => .vex o
  | .vpmovzxbqVex128 o => .vex o
  | .vpmovzxwdVex128 o => .vex o
  | .vpmovzxwqVex128 o => .vex o
  | .vpmovzxdqVex128 o => .vex o
  | .vpmovzxbwVex256 o => .vex o
  | .vpmovzxbdVex256 o => .vex o
  | .vpmovzxbqVex256 o => .vex o
  | .vpmovzxwdVex256 o => .vex o
  | .vpmovzxwqVex256 o => .vex o
  | .vpmovzxdqVex256 o => .vex o
  | .vpmovzxbwEvex128 o => .evex o
  | .vpmovzxbwEvex256 o => .evex o
  | .vpmovzxbwEvex512 o => .evex o
  | .vpmovzxbdEvex128 o => .evex o
  | .vpmovzxbdEvex256 o => .evex o
  | .vpmovzxbdEvex512 o => .evex o
  | .vpmovzxbqEvex128 o => .evex o
  | .vpmovzxbqEvex256 o => .evex o
  | .vpmovzxbqEvex512 o => .evex o
  | .vpmovzxwdEvex128 o => .evex o
  | .vpmovzxwdEvex256 o => .evex o
  | .vpmovzxwdEvex512 o => .evex o
  | .vpmovzxwqEvex128 o => .evex o
  | .vpmovzxwqEvex256 o => .evex o
  | .vpmovzxwqEvex512 o => .evex o
  | .vpmovzxdqEvex128 o => .evex o
  | .vpmovzxdqEvex256 o => .evex o
  | .vpmovzxdqEvex512 o => .evex o

/-- An operand record that has an encoding in mode `m`. -/
def Operands.wf (m : Mode) : Operands → Bool
  | .legacy o => o.wf m
  | .vex o => o.wf m
  | .evex o => o.wf m

/-- An instruction that has an encoding in mode `m`. -/
def Instr.wf (m : Mode) (i : Instr) : Bool := i.operands.wf m

end Sys2Proof
end

