-- ==== Sys2Proof/Decode.lean ====
section
/-! DEFINITION. The decoder, total on any bytes (spec/30_encoding.md rule R85), the length of an instruction (rule R78),
and after them the encoder, written from the same layouts (rules R60 to R79). -/

namespace Sys2Proof

/-! ## Outcomes and names -/

/-- Why the spec gives a byte sequence no meaning (rule R9). -/
inductive Reject where
  /-- The bytes are of no form of the opcode table: rules R9, R61, R64, R66, R85 (2) and (3). -/
  | opcode
  /-- `0F 38 op` with none of the prefixes 66, F2, F3: rules R81, R85 (3). -/
  | no66
  /-- A prefix arrangement outside rule R62: rule R85 (5). -/
  | prefixes
  /-- 16-bit addressing, prefix 67 in `Prot32`: rule R74. -/
  | addr16
  /-- `Bbar`, `Rpbar` or `Vpbar` is 0 in `Prot32`: rule R82. For `Vpbar` see log entry 17. -/
  | extensionBit
  /-- The bytes end before the instruction does: rules R85 (8), R204. -/
  | truncated
deriving DecidableEq, Repr

/-- What the decoder answers (rule R9): one of the 36 forms with all its fields, the fault #UD, or a refusal. -/
inductive Decoded where
  | instr (i : Instr)
  | ud
  | reject (r : Reject)
deriving DecidableEq, Repr

/-- The six conversions (rule R1). -/
inductive Conv where
  | bw
  | bd
  | bq
  | wd
  | wq
  | dq
deriving DecidableEq, Repr

/-- The conversion an opcode byte selects (rule R79); any other byte is not in scope. -/
def Conv.ofOp (op : Byte) : Option Conv :=
  if op = 0x30#8 then some .bw
  else if op = 0x31#8 then some .bd
  else if op = 0x32#8 then some .bq
  else if op = 0x33#8 then some .wd
  else if op = 0x34#8 then some .wq
  else if op = 0x35#8 then some .dq
  else none

/-- The opcode byte of a conversion (rule R79). -/
def Conv.op : Conv → Byte
  | .bw => 0x30#8
  | .bd => 0x31#8
  | .bq => 0x32#8
  | .wd => 0x33#8
  | .wq => 0x34#8
  | .dq => 0x35#8

/-- The legacy form of a conversion (rows 1 to 6). -/
def legacyForm (c : Conv) (o : LegacyOps) : Instr :=
  match c with
  | .bw => .pmovzxbw o
  | .bd => .pmovzxbd o
  | .bq => .pmovzxbq o
  | .wd => .pmovzxwd o
  | .wq => .pmovzxwq o
  | .dq => .pmovzxdq o

/-- The VEX form of a conversion: `l` is the bit `L`, 0 for VEX.128 and 1 for VEX.256 (rule R64, rows 7 to 18). -/
def vexForm (l : Bool) (c : Conv) (o : VexOps) : Instr :=
  match l, c with
  | false, .bw => .vpmovzxbwVex128 o
  | false, .bd => .vpmovzxbdVex128 o
  | false, .bq => .vpmovzxbqVex128 o
  | false, .wd => .vpmovzxwdVex128 o
  | false, .wq => .vpmovzxwqVex128 o
  | false, .dq => .vpmovzxdqVex128 o
  | true, .bw => .vpmovzxbwVex256 o
  | true, .bd => .vpmovzxbdVex256 o
  | true, .bq => .vpmovzxbqVex256 o
  | true, .wd => .vpmovzxwdVex256 o
  | true, .wq => .vpmovzxwqVex256 o
  | true, .dq => .vpmovzxdqVex256 o

/-- The three vector lengths of the EVEX class. -/
inductive EvexLen where
  | l128
  | l256
  | l512
deriving DecidableEq, Repr

/-- The vector length that the field `LL` selects; 11b selects none (rules R66, R80 (e)). -/
def EvexLen.ofLL (ll : BitVec 2) : Option EvexLen :=
  if ll = 0#2 then some .l128
  else if ll = 1#2 then some .l256
  else if ll = 2#2 then some .l512
  else none

/-- The field `LL` of a vector length (rule R66). -/
def EvexLen.ll : EvexLen → BitVec 2
  | .l128 => 0#2
  | .l256 => 1#2
  | .l512 => 2#2

/-- The EVEX form of a conversion and a vector length (rows 19 to 36). -/
def evexForm (l : EvexLen) (c : Conv) (o : EvexOps) : Instr :=
  match c, l with
  | .bw, .l128 => .vpmovzxbwEvex128 o
  | .bw, .l256 => .vpmovzxbwEvex256 o
  | .bw, .l512 => .vpmovzxbwEvex512 o
  | .bd, .l128 => .vpmovzxbdEvex128 o
  | .bd, .l256 => .vpmovzxbdEvex256 o
  | .bd, .l512 => .vpmovzxbdEvex512 o
  | .bq, .l128 => .vpmovzxbqEvex128 o
  | .bq, .l256 => .vpmovzxbqEvex256 o
  | .bq, .l512 => .vpmovzxbqEvex512 o
  | .wd, .l128 => .vpmovzxwdEvex128 o
  | .wd, .l256 => .vpmovzxwdEvex256 o
  | .wd, .l512 => .vpmovzxwdEvex512 o
  | .wq, .l128 => .vpmovzxwqEvex128 o
  | .wq, .l256 => .vpmovzxwqEvex256 o
  | .wq, .l512 => .vpmovzxwqEvex512 o
  | .dq, .l128 => .vpmovzxdqEvex128 o
  | .dq, .l256 => .vpmovzxdqEvex256 o
  | .dq, .l512 => .vpmovzxdqEvex512 o

/-! ## Length (rule R78) -/

/-- Bytes of a displacement (rule R75). -/
def Disp.len : Disp → Nat
  | .none => 0
  | .d8 _ => 1
  | .d32 _ => 4

/-- Bytes of a memory operand after ModRM: SIB and displacement (rules R71, R75). -/
def MemOp.len : MemOp → Nat
  | .base _ d => d.len
  | .rip _ => 4
  | .sib _ _ _ d => 1 + d.len
  | .sibNoBase _ _ _ => 5

/-- Bytes of ModRM and what follows it (rules R69, R78). -/
def Src.len {n : Nat} : Src n → Nat
  | .reg _ => 1
  | .mem m => 1 + m.len

/-- Bytes of the prefixes 67 and segment override (rule R62). -/
def prefixLen (adr67 : Bool) (seg : Option Seg) : Nat := adr67.toNat + seg.isSome.toNat

/-- Length of a legacy form: prefixes with the mandatory 66, REX, `0F 38 op`, ModRM and the rest (rule R78). -/
def LegacyOps.len (o : LegacyOps) : Nat := prefixLen o.adr67 o.seg + 1 + o.rex.toNat + 3 + o.src.len

/-- Length of a VEX form (rule R78). -/
def VexOps.len (o : VexOps) : Nat := prefixLen o.adr67 o.seg + 4 + o.src.len

/-- Length of an EVEX form (rule R78). -/
def EvexOps.len (o : EvexOps) : Nat := prefixLen o.adr67 o.seg + 5 + o.src.len

/-- Length by class (rule R78). -/
def Operands.len : Operands → Nat
  | .legacy o => o.len
  | .vex o => o.len
  | .evex o => o.len

/-- The length of an instruction in bytes, the `len` of rule R78. -/
def Instr.len (i : Instr) : Nat := i.operands.len

/-! ## Prefix bytes (rules R62, R63, R85 (1)) -/

/-- The legacy prefix bytes read before the opcode, counted (rule R85 (1)); `segs` lists the segment overrides. -/
structure Prefixes where
  n66  : Nat
  n67  : Nat
  lock : Nat
  nF2  : Nat
  nF3  : Nat
  segs : List Seg
deriving DecidableEq, Repr

/-- No prefix read yet. -/
def Prefixes.empty : Prefixes := ⟨0, 0, 0, 0, 0, []⟩

/-- The segment a segment-override prefix names (rule R62). -/
def segOfPrefix (b : Byte) : Option Seg :=
  if b = 0x26#8 then some .es
  else if b = 0x2E#8 then some .cs
  else if b = 0x36#8 then some .ss
  else if b = 0x3E#8 then some .ds
  else if b = 0x64#8 then some .fs
  else if b = 0x65#8 then some .gs
  else none

/-- The prefix byte of a segment override (rule R62). -/
def prefixOfSeg : Seg → Byte
  | .es => 0x26#8
  | .cs => 0x2E#8
  | .ss => 0x36#8
  | .ds => 0x3E#8
  | .fs => 0x64#8
  | .gs => 0x65#8

/-- One more prefix byte noted, or nothing when the byte is no legacy prefix (rule R85 (1)). -/
def Prefixes.note (p : Prefixes) (b : Byte) : Option Prefixes :=
  if b = 0x66#8 then some { p with n66 := p.n66 + 1 }
  else if b = 0x67#8 then some { p with n67 := p.n67 + 1 }
  else if b = 0xF0#8 then some { p with lock := p.lock + 1 }
  else if b = 0xF2#8 then some { p with nF2 := p.nF2 + 1 }
  else if b = 0xF3#8 then some { p with nF3 := p.nF3 + 1 }
  else (segOfPrefix b).map fun sg => { p with segs := p.segs ++ [sg] }

/-- All legacy prefix bytes at the front, and the bytes after them (rule R85 (1)). -/
def scanPrefixes (p : Prefixes) : List Byte → Prefixes × List Byte
  | [] => (p, [])
  | b :: bs =>
    match p.note b with
    | some p' => scanPrefixes p' bs
    | none => (p, b :: bs)

/-- An optional REX byte, `0100WRXB`, in `Long64` only (rules R61, R63). -/
def takeRex (m : Mode) : List Byte → Option Byte × List Byte
  | [] => (none, [])
  | b :: bs => if m = .long64 ∧ b.extractLsb' 4 4 = 4#4 then (some b, bs) else (none, b :: bs)

/-- LOCK, F2 or F3 among the prefixes (rule R81). -/
def Prefixes.illegal (p : Prefixes) : Bool := p.lock != 0 || p.nF2 != 0 || p.nF3 != 0

/-- A repeated prefix or two segment overrides (rule R62). -/
def Prefixes.repeated (p : Prefixes) : Bool := 1 < p.n66 || 1 < p.n67 || 1 < p.segs.length

/-- The prefix 67 was read (rules R73, R74). -/
def Prefixes.adr67 (p : Prefixes) : Bool := p.n67 != 0

/-- The segment override read (rule R77). -/
def Prefixes.seg (p : Prefixes) : Option Seg := p.segs.head?

/-! ## ModRM, SIB and displacement (rules R69 to R75) -/

/-- Four bytes, the lowest address the least significant (rules R41, R75). -/
def le32 (b0 b1 b2 b3 : Byte) : BitVec 32 := b3 ++ b2 ++ b1 ++ b0

/-- A four-byte displacement (rule R75). -/
def takeD32 : List Byte → Option (BitVec 32)
  | b0 :: b1 :: b2 :: b3 :: _ => some (le32 b0 b1 b2 b3)
  | _ => none

/-- The displacement that `mod` asks for (rule R75). -/
def takeDisp (md : BitVec 2) (bs : List Byte) : Option Disp :=
  if md = 0#2 then some .none
  else if md = 1#2 then
    match bs with
    | [] => none
    | b :: _ => some (.d8 b)
  else (takeD32 bs).map .d32

/-- A register number from an extension bit and a three-bit field (rule R70). -/
def regNo (ext : Bool) (f : BitVec 3) : BitVec 4 := BitVec.ofBool ext ++ f

/-- The index register of a SIB byte: none when `X :: index` = 0100b (rule R71). -/
def sibIndex (x : Bool) (f : BitVec 3) : Option (BitVec 4) :=
  if regNo x f = 4#4 then none else some (regNo x f)

/-- The memory operand of `mod` and `rm`, from the bytes after ModRM (rules R71, R72); none when they run out. -/
def decodeMem (x b : Bool) (md : BitVec 2) (rm : BitVec 3) (bs : List Byte) : Option MemOp :=
  if rm = 4#3 then
    match bs with
    | [] => none
    | sib :: bs' =>
      if sib.extractLsb' 0 3 = 5#3 ∧ md = 0#2 then
        (takeD32 bs').map (.sibNoBase (sibIndex x (sib.extractLsb' 3 3)) (sib.extractLsb' 6 2))
      else
        (takeDisp md bs').map
          (.sib (regNo b (sib.extractLsb' 0 3)) (sibIndex x (sib.extractLsb' 3 3)) (sib.extractLsb' 6 2))
  else if rm = 5#3 ∧ md = 0#2 then (takeD32 bs).map .rip
  else (takeDisp md bs).map (.base (regNo b rm))

/-- The `reg` field and the source operand, from ModRM on (rule R69); `wide` makes a register source's number from the
extension bits and `rm` (rule R70). -/
def decodeRM {n : Nat} (x b : Bool) (wide : BitVec 3 → BitVec n) (bs : List Byte) : Option (BitVec 3 × Src n) :=
  match bs with
  | [] => none
  | modrm :: bs' =>
    if modrm.extractLsb' 6 2 = 3#2 then
      some (modrm.extractLsb' 3 3, .reg (wide (modrm.extractLsb' 0 3)))
    else
      (decodeMem x b (modrm.extractLsb' 6 2) (modrm.extractLsb' 0 3) bs').map
        fun m => (modrm.extractLsb' 3 3, .mem m)

/-! ## The three classes (rule R85 (3) to (9)) -/

/-- The legacy class after the byte 0F (rules R62, R63, R81, R85). `rex` is the REX byte, if one was read. -/
def decodeLegacy (m : Mode) (p : Prefixes) (rex : Option Byte) (bs : List Byte) : Decoded :=
  match bs with
  | [] => .reject .truncated
  | e :: bs =>
    if e ≠ 0x38#8 then .reject .opcode
    else
      match bs with
      | [] => .reject .truncated
      | op :: bs =>
        match Conv.ofOp op with
        | none => .reject .opcode
        | some c =>
          if p.n66 = 0 ∧ p.nF2 = 0 ∧ p.nF3 = 0 then .reject .no66
          else if p.illegal then .ud
          else if p.repeated then .reject .prefixes
          else if m = .prot32 ∧ p.adr67 then .reject .addr16
          else
            match decodeRM ((rex.getD 0#8).getLsbD 1) ((rex.getD 0#8).getLsbD 0)
                (regNo ((rex.getD 0#8).getLsbD 0)) bs with
            | none => .reject .truncated
            | some (reg, src) =>
              .instr (legacyForm c ⟨p.adr67, p.seg, rex.isSome, regNo ((rex.getD 0#8).getLsbD 2) reg, src⟩)

/-- In `Prot32` the bytes C4 and 62 begin a VEX or EVEX prefix only when bits 7:6 of the next byte are 11b
(rules R61, R82). -/
def notPrefixByte (m : Mode) (next : Byte) : Bool := m == .prot32 && next.extractLsb' 6 2 != 3#2

/-- The VEX class after the byte C4 (rules R64, R80 (a), R81, R82, R85). -/
def decodeVex (m : Mode) (p : Prefixes) (rex : Option Byte) (bs : List Byte) : Decoded :=
  match bs with
  | v1 :: v2 :: op :: bs =>
    if notPrefixByte m v1 then .reject .opcode
    else if v1.extractLsb' 0 5 ≠ 2#5 ∨ v2.extractLsb' 0 2 ≠ 1#2 then .reject .opcode
    else
      match Conv.ofOp op with
      | none => .reject .opcode
      | some c =>
        if p.illegal ∨ p.n66 ≠ 0 ∨ rex.isSome then .ud
        else if p.repeated then .reject .prefixes
        else if v2.extractLsb' 3 4 ≠ 15#4 then .ud
        else if m = .prot32 ∧ v1.getLsbD 5 = false then .reject .extensionBit
        else if m = .prot32 ∧ p.adr67 then .reject .addr16
        else
          match decodeRM (!v1.getLsbD 6) (!v1.getLsbD 5) (regNo (!v1.getLsbD 5)) bs with
          | none => .reject .truncated
          | some (reg, src) => .instr (vexForm (v2.getLsbD 2) c ⟨p.adr67, p.seg, regNo (!v1.getLsbD 7) reg, src⟩)
  | _ => .reject .truncated

/-- The reserved bits of an EVEX prefix that must have a fixed value, else #UD: rule R80 (a) `vvvv`, (b) `Vpbar` in `Long64`
(in `Prot32` it is rule R82's: DESIGN CHOICE, log entry 17), (c) `b`, (d) `z` with `aaa` = 000b, (f) `P0` bits 3:2 and `P1`
bit 2, (g) W on opcode 35. `LL` (e) is `EvexLen.ofLL`'s. -/
def evexReserved (m : Mode) (c : Conv) (p0 p1 p2 : Byte) : Bool :=
  p1.extractLsb' 3 4 != 15#4 || (m == .long64 && !p2.getLsbD 3) || p2.getLsbD 4 ||
    (p2.getLsbD 7 && p2.extractLsb' 0 3 == 0#3) || p0.extractLsb' 2 2 != 0#2 || !p1.getLsbD 2 || (c == .dq && p1.getLsbD 7)

/-- An extension bit of an EVEX prefix that `Prot32` refuses when it is 0 (rule R82): `Bbar`, `Rpbar` or `Vpbar`. -/
def evexExtended (p0 p2 : Byte) : Bool := !p0.getLsbD 5 || !p0.getLsbD 4 || !p2.getLsbD 3

/-- The EVEX class after the byte 62 (rules R66, R68, R80, R81, R82, R85). DESIGN CHOICE, log entry 17: for `Vpbar` = 0 in
`Prot32`, where rule R80 (b) says #UD and rule R82 refused, the rule made for `Prot32` decides. -/
def decodeEvex (m : Mode) (p : Prefixes) (rex : Option Byte) (bs : List Byte) : Decoded :=
  match bs with
  | p0 :: p1 :: p2 :: op :: bs =>
    if notPrefixByte m p0 then .reject .opcode
    else if p0.extractLsb' 0 2 ≠ 2#2 ∨ p1.extractLsb' 0 2 ≠ 1#2 then .reject .opcode
    else
      match Conv.ofOp op with
      | none => .reject .opcode
      | some c =>
        if p.illegal ∨ p.n66 ≠ 0 ∨ rex.isSome then .ud
        else if p.repeated then .reject .prefixes
        else if evexReserved m c p0 p1 p2 then .ud
        else
          match EvexLen.ofLL (p2.extractLsb' 5 2) with
          | none => .ud
          | some l =>
            if m = .prot32 ∧ evexExtended p0 p2 then .reject .extensionBit
            else if m = .prot32 ∧ p.adr67 then .reject .addr16
            else
              match decodeRM (!p0.getLsbD 6) (!p0.getLsbD 5)
                  (fun rm => BitVec.ofBool (!p0.getLsbD 6) ++ regNo (!p0.getLsbD 5) rm) bs with
              | none => .reject .truncated
              | some (reg, src) =>
                .instr (evexForm l c ⟨p.adr67, p.seg, BitVec.ofBool (!p0.getLsbD 4) ++ regNo (!p0.getLsbD 7) reg, src,
                  p2.extractLsb' 0 3, p2.getLsbD 7⟩)
  | _ => .reject .truncated

/-- Telling the class by the first byte after the prefixes (rule R61). -/
def decodeClass (m : Mode) (p : Prefixes) (rex : Option Byte) : List Byte → Decoded
  | [] => .reject .truncated
  | b :: bs =>
    if b = 0x0F#8 then decodeLegacy m p rex bs
    else if b = 0xC4#8 then decodeVex m p rex bs
    else if b = 0x62#8 then decodeEvex m p rex bs
    else .reject .opcode

/-- The total decoder of rule R85: the instruction at the front of `bs`, where `bs` is the program from `pc` on. -/
def decode (m : Mode) (bs : List Byte) : Decoded :=
  let ps := scanPrefixes .empty bs
  let rx := takeRex m ps.2
  decodeClass m ps.1 rx.1 rx.2

/-! ## Opcode-table words (rule R86) -/

/-- The longest instruction, in bytes (rule R60). -/
def maxLen : Nat := 13

/-- The bytes of a window of `nbits` bits taken as one number with the first byte most significant (rule R86), then
zeros up to the longest instruction. -/
def tableBytes (nbits w : Nat) : List Byte :=
  (List.range (max maxLen (nbits / 8))).map fun k =>
    if k < nbits / 8 then BitVec.ofNat 8 (w >>> (8 * (nbits / 8 - 1 - k))) else 0#8

/-- The instruction that the decoder reads from an instruction whose bits are `w` (rule R86), in `Long64`. -/
def decodeTableWord (nbits w : Nat) : Option Instr :=
  match decode .long64 (tableBytes nbits w) with
  | .instr i => some i
  | .ud => none
  | .reject _ => none

/-! ## The encoder -/

/-- The four bytes of a displacement, least significant first (rule R75). -/
def bytes32 (w : BitVec 32) : List Byte :=
  [w.extractLsb' 0 8, w.extractLsb' 8 8, w.extractLsb' 16 8, w.extractLsb' 24 8]

/-- The bytes of a displacement (rule R75). -/
def Disp.bytes : Disp → List Byte
  | .none => []
  | .d8 b => [b]
  | .d32 w => bytes32 w

/-- The `mod` that announces a displacement (rule R75). -/
def Disp.mod : Disp → BitVec 2
  | .none => 0#2
  | .d8 _ => 1#2
  | .d32 _ => 2#2

/-- A ModRM byte (rule R69), or a SIB byte (rule R71): two bits and two three-bit fields. -/
def packByte (a : BitVec 2) (b c : BitVec 3) : Byte := a ++ b ++ c

/-- ModRM, SIB and displacement of a source operand with the destination's field `reg` (rules R69 to R75). -/
def Src.bytes {n : Nat} (reg : BitVec 3) : Src n → List Byte
  | .reg r => [packByte 3#2 reg (low3 r)]
  | .mem (.base b d) => packByte d.mod reg (low3 b) :: d.bytes
  | .mem (.rip d) => packByte 0#2 reg 5#3 :: bytes32 d
  | .mem (.sib b i ss d) => packByte d.mod reg 4#3 :: packByte ss (low3 (i.getD 4#4)) (low3 b) :: d.bytes
  | .mem (.sibNoBase i ss d) => packByte 0#2 reg 4#3 :: packByte ss (low3 (i.getD 4#4)) 5#3 :: bytes32 d

/-- The prefixes 67 and segment override (rule R62). -/
def prefixBytes (adr67 : Bool) (seg : Option Seg) : List Byte :=
  (if adr67 then [0x67#8] else []) ++ (seg.map prefixOfSeg).toList

/-- A legacy form's bytes (rules R62, R63), REX.W = 0. -/
def encodeLegacy (c : Conv) (o : LegacyOps) : List Byte :=
  prefixBytes o.adr67 o.seg ++ [0x66#8] ++
    (if o.rex then [4#4 ++ BitVec.ofBool false ++ BitVec.ofBool (o.d.getLsbD 3) ++ BitVec.ofBool o.src.xBit ++
      BitVec.ofBool o.src.bBit] else []) ++
    [0x0F#8, 0x38#8, c.op] ++ o.src.bytes (low3 o.d)

/-- A VEX form's bytes (rule R64), W = 0. -/
def encodeVex (l : Bool) (c : Conv) (o : VexOps) : List Byte :=
  prefixBytes o.adr67 o.seg ++
    [0xC4#8,
      BitVec.ofBool (!o.d.getLsbD 3) ++ BitVec.ofBool (!o.src.xBit) ++ BitVec.ofBool (!o.src.bBit) ++ 2#5,
      BitVec.ofBool false ++ 15#4 ++ BitVec.ofBool l ++ 1#2,
      c.op] ++ o.src.bytes (low3 o.d)

/-- An EVEX form's bytes (rule R66), W = 0. -/
def encodeEvex (l : EvexLen) (c : Conv) (o : EvexOps) : List Byte :=
  prefixBytes o.adr67 o.seg ++
    [0x62#8,
      BitVec.ofBool (!o.d.getLsbD 3) ++ BitVec.ofBool (!o.src.xBit) ++ BitVec.ofBool (!o.src.bBit) ++
        BitVec.ofBool (!o.d.getLsbD 4) ++ 0#2 ++ 2#2,
      BitVec.ofBool false ++ 15#4 ++ 5#3,
      BitVec.ofBool o.z ++ l.ll ++ BitVec.ofBool false ++ BitVec.ofBool true ++ o.aaa,
      c.op] ++ o.src.bytes (low3 o.d)

/-- The bytes of an instruction: its well-formed encoding with W = 0 and the prefixes in the order 67, segment, 66. -/
def encode : Instr → List Byte
  | .pmovzxbw o => encodeLegacy .bw o
  | .pmovzxbd o => encodeLegacy .bd o
  | .pmovzxbq o => encodeLegacy .bq o
  | .pmovzxwd o => encodeLegacy .wd o
  | .pmovzxwq o => encodeLegacy .wq o
  | .pmovzxdq o => encodeLegacy .dq o
  | .vpmovzxbwVex128 o => encodeVex false .bw o
  | .vpmovzxbdVex128 o => encodeVex false .bd o
  | .vpmovzxbqVex128 o => encodeVex false .bq o
  | .vpmovzxwdVex128 o => encodeVex false .wd o
  | .vpmovzxwqVex128 o => encodeVex false .wq o
  | .vpmovzxdqVex128 o => encodeVex false .dq o
  | .vpmovzxbwVex256 o => encodeVex true .bw o
  | .vpmovzxbdVex256 o => encodeVex true .bd o
  | .vpmovzxbqVex256 o => encodeVex true .bq o
  | .vpmovzxwdVex256 o => encodeVex true .wd o
  | .vpmovzxwqVex256 o => encodeVex true .wq o
  | .vpmovzxdqVex256 o => encodeVex true .dq o
  | .vpmovzxbwEvex128 o => encodeEvex .l128 .bw o
  | .vpmovzxbwEvex256 o => encodeEvex .l256 .bw o
  | .vpmovzxbwEvex512 o => encodeEvex .l512 .bw o
  | .vpmovzxbdEvex128 o => encodeEvex .l128 .bd o
  | .vpmovzxbdEvex256 o => encodeEvex .l256 .bd o
  | .vpmovzxbdEvex512 o => encodeEvex .l512 .bd o
  | .vpmovzxbqEvex128 o => encodeEvex .l128 .bq o
  | .vpmovzxbqEvex256 o => encodeEvex .l256 .bq o
  | .vpmovzxbqEvex512 o => encodeEvex .l512 .bq o
  | .vpmovzxwdEvex128 o => encodeEvex .l128 .wd o
  | .vpmovzxwdEvex256 o => encodeEvex .l256 .wd o
  | .vpmovzxwdEvex512 o => encodeEvex .l512 .wd o
  | .vpmovzxwqEvex128 o => encodeEvex .l128 .wq o
  | .vpmovzxwqEvex256 o => encodeEvex .l256 .wq o
  | .vpmovzxwqEvex512 o => encodeEvex .l512 .wq o
  | .vpmovzxdqEvex128 o => encodeEvex .l128 .dq o
  | .vpmovzxdqEvex256 o => encodeEvex .l256 .dq o
  | .vpmovzxdqEvex512 o => encodeEvex .l512 .dq o

end Sys2Proof
end

