-- ==== Sys2Proof/Machine/State.lean ====
section
/-! DEFINITION. The machine's state (spec/10_state.md, all of it; spec/20_memory.md rules R40, R41, R45), the faults
(spec/60_exceptions.md) and refusals (spec/00_scope.md rule R9) of a step, and the state after reset
(spec/10_state.md rule R29). -/

namespace Sys2Proof.Machine

/-- Memory: the one linear space of bytes (rule R40), as the list of the bytes that are not `unlistedByte`, addresses
strictly rising. Every address below 2^64 has a byte; which of them a form may read is `Params.reach` and
`Params.pages` (rule R48). -/
abbrev Memory := List Host.Cell

/-- The byte at an address that memory does not list. DESIGN CHOICE, log entry 3, unsafe: the spec gives memory no
launch contents. -/
def unlistedByte : Byte := 0#8

/-- The segment bases of rule R25. `Long64` reads those of ES, CS, SS and DS as 0 (`State.segBaseOf`). -/
structure SegBases where
  es : Word
  cs : Word
  ss : Word
  ds : Word
  fs : Word
  gs : Word
deriving DecidableEq, Repr

/-- The state. Fields and the rules of spec/10_state.md that name them:

* `zmm`: the vector registers (R20), 32 of them, 512 bits each; `State.nvec` of them exist and their low `State.maxvl`
  bits are the register (rules R5, R6).
* `k`: the opmask registers (R22).
* `x`: the general registers in the number order of R23.
* `rip`: the program counter (R24).
* `wrapped`: the model's own, log entry 10: `rip` has wrapped past the top of its range since the launch (R24), so that the
  end of a program whose last byte is the last of the space is told from its start (R204).
* `segBase`: the segment bases (R25).
* `rflags`, `mxcsr`: R26. `cr0`, `cr4`, `xcr0`: R27. `cpl`: the current privilege level (rules R43, R183). No rule gives the
  widths of these six: 64 bits, 32 for `mxcsr`, 2 for `cpl`, PRESUMED, log entry 18.
* `mem`: the linear memory (R28, R40).
* `params`: the parameters of the step (R6, R28), the program text among them. -/
structure State where
  zmm     : Vector Vec 32
  k       : Vector Word 8
  x       : Vector Word 16
  rip     : Word
  wrapped : Bool
  segBase : SegBases
  rflags  : Word
  mxcsr   : BitVec 32
  cr0     : Word
  cr4     : Word
  xcr0    : Word
  cpl     : BitVec 2
  mem     : Memory
  params  : Params
deriving DecidableEq, Repr

/-- The faults of a step (rule R170): an exception's name ends the run and no state changes. All are the spec's own, and
safe: hardware that delivers the exception to a handler goes on where the model stops (decision D12). -/
inductive Fault where
  /-- #UD, invalid opcode: raised by the decoder on reserved encodings and illegal prefixes (rules R80, R81, R171, R172)
  and by every form whose features or enables are missing (rule R173). Safe. -/
  | ud
  /-- #NM, device not available: raised by every form when CR0.TS = 1 (rule R174). Safe. -/
  | nm
  /-- #SS(0): a memory source through SS at an address SS does not reach (rule R175). Safe. -/
  | ss
  /-- #GP(0): a memory source through another segment at an address it does not reach (rule R175). Safe. -/
  | gp
  /-- #PF: a byte of a memory source is on no readable page; the page-fault error code and the address that CR2 records
  (rules R175, R178). Its 32 bits are PRESUMED, log entry 18. Safe. -/
  | pf (code : BitVec 32) (addr : Word)
  /-- #AC(0): `AlignCheck` holds and a memory source is not aligned to its size (rules R43, R175). Safe. -/
  | ac
deriving DecidableEq, Repr

/-- What the model gives no meaning to (rule R9). -/
inductive Refusal where
  /-- An instruction whose meaning is not written: raised by no arm of `exec` now. Safe. -/
  | notModelled (mnemonic : String)
  /-- The decoder refuses the bytes, for the reason it names (rules R9, R62, R74, R82, R85): raised by `step`. Safe. -/
  | undecoded (why : Reject)
  /-- The program has ended, `rip` is the address after its last byte (rule R204 (a)): raised by `step`. Safe. -/
  | endOfProgram
  /-- `rip` is at no byte of the program and not at its end (rule R204), or has wrapped to 0 in a text that runs past the top
  (log entry 10): raised by `step`. Safe. -/
  | outsideProgram
deriving DecidableEq, Repr

/-- CPUID.01H:ECX with the flags SSE4_1 (bit 19) and AVX (bit 28) of rule R27. -/
def resetCpuid1Ecx : BitVec 32 := 0x10080000#32

/-- CPUID.07H:EBX with the flags AVX2 (bit 5), AVX512F (16), AVX512BW (30), AVX512VL (31) of rule R27. -/
def resetCpuid7Ebx : BitVec 32 := 0xC0010020#32

/-- The parameters of the reset state. DESIGN CHOICE, log entry 2, unsafe: the spec states none. `Mode`, `SegBase` and
`FaultSuppression` have the spec's own defaults (decisions D1, D13, D27); all six features are present; with paging off
(CR0, rule R29) every address is readable; no program is loaded. -/
def resetParams : Params where
  mode := .long64
  cpuid1Ecx := resetCpuid1Ecx
  cpuid7Ebx := resetCpuid7Ebx
  faultSuppression := false
  reach := [⟨.es, 0, 2 ^ 64⟩, ⟨.cs, 0, 2 ^ 64⟩, ⟨.ss, 0, 2 ^ 64⟩, ⟨.ds, 0, 2 ^ 64⟩, ⟨.fs, 0, 2 ^ 64⟩, ⟨.gs, 0, 2 ^ 64⟩]
  pages := [⟨0, 2 ^ 64, true⟩]
  progBase := 0xFFFFFFF0#64
  progLen := 0

/-- The machine after reset: the values that rule R29 documents (vector, opmask and general registers 0, CR0 0x60000010,
CR4 0, XCR0 1, RFLAGS 2, MXCSR 0x1F80, most privileged level, the reset vector 0xFFFFFFF0). Log entries 1, 2
and 10 say which of them the model chooses. With these values every form raises #UD (rule R29). -/
def State.reset : State where
  zmm := Vector.replicate 32 0#512
  k := Vector.replicate 8 0#64
  x := Vector.replicate 16 0#64
  rip := 0xFFFFFFF0#64
  wrapped := false
  segBase := ⟨0#64, 0#64, 0#64, 0#64, 0#64, 0#64⟩
  rflags := 0x2#64
  mxcsr := 0x1F80#32
  cr0 := 0x60000010#64
  cr4 := 0#64
  xcr0 := 1#64
  cpl := 0#2
  mem := []
  params := resetParams

end Sys2Proof.Machine
end

