-- ==== Sys2Proof/Machine/Flags.lean ====
section
/-! DEFINITION. The flag and control bits the forms read (spec/10_state.md rules R26, R27; spec/20_memory.md rule R43)
and what follows from them: `Feat`, `OsEnabled`, `MAXVL`, `NVEC`, `AlignCheck` (spec/00_scope.md rules R5, R6). No form
writes a flag (rule R107), so there is no flag computation. -/

namespace Sys2Proof.Machine

/-- SSE4_1 is in `Feat`: CPUID.01H:ECX bit 19 (rule R27). -/
def State.hasSse41 (s : State) : Bool := s.params.cpuid1Ecx.getLsbD 19

/-- AVX is in `Feat`: CPUID.01H:ECX bit 28 (rule R27). -/
def State.hasAvx (s : State) : Bool := s.params.cpuid1Ecx.getLsbD 28

/-- AVX2 is in `Feat`: CPUID.07H:EBX bit 5 (rule R27). -/
def State.hasAvx2 (s : State) : Bool := s.params.cpuid7Ebx.getLsbD 5

/-- AVX512F is in `Feat`: CPUID.07H:EBX bit 16 (rule R27). -/
def State.hasAvx512f (s : State) : Bool := s.params.cpuid7Ebx.getLsbD 16

/-- AVX512BW is in `Feat`: CPUID.07H:EBX bit 30 (rule R27). -/
def State.hasAvx512bw (s : State) : Bool := s.params.cpuid7Ebx.getLsbD 30

/-- AVX512VL is in `Feat`: CPUID.07H:EBX bit 31 (rule R27). -/
def State.hasAvx512vl (s : State) : Bool := s.params.cpuid7Ebx.getLsbD 31

/-- Any AVX512 flag is in `Feat` (rule R5). -/
def State.anyAvx512 (s : State) : Bool := s.hasAvx512f || s.hasAvx512bw || s.hasAvx512vl

/-- `MAXVL`, the width of a vector register (rule R5): 512 with any AVX512 flag, else 256 with AVX, else 128. Two
feature sets that rule R5 does not name, log entry 5: AVX2 without AVX counts as AVX (DEDUCED), and the set with none of
the six flags has 128, as SSE4_1 alone has (DESIGN CHOICE). -/
def State.maxvl (s : State) : Nat :=
  if s.anyAvx512 then 512 else if s.hasAvx || s.hasAvx2 then 256 else 128

/-- `NVEC`, the number of vector registers (rule R6). -/
def State.nvec (s : State) : Nat :=
  match s.params.mode with
  | .prot32 => 8
  | .long64 => if s.maxvl = 512 then 32 else 16

/-- CR0.EM, bit 2 (rule R27). -/
def State.crEm (s : State) : Bool := s.cr0.getLsbD 2

/-- CR0.TS, bit 3 (rules R27, R174). -/
def State.crTs (s : State) : Bool := s.cr0.getLsbD 3

/-- CR0.AM, the alignment mask of rule R43, bit 18. PRESUMED, log entry 6: the spec names it without its bit. -/
def State.crAm (s : State) : Bool := s.cr0.getLsbD 18

/-- CR4.OSFXSR, bit 9 (rule R27). -/
def State.crOsfxsr (s : State) : Bool := s.cr4.getLsbD 9

/-- CR4.OSXSAVE, bit 18 (rule R27). -/
def State.crOsxsave (s : State) : Bool := s.cr4.getLsbD 18

/-- RFLAGS.AC, bit 18 (rule R26). -/
def State.flagAc (s : State) : Bool := s.rflags.getLsbD 18

/-- `OsEnabled.sse` (rule R27). -/
def State.osSse (s : State) : Bool := !s.crEm && s.crOsfxsr

/-- `OsEnabled.avx` (rule R27): CR4.OSXSAVE = 1 and XCR0[2:1] = 11b. -/
def State.osAvx (s : State) : Bool := s.crOsxsave && s.xcr0.extractLsb' 1 2 == 3#2

/-- `OsEnabled.avx512` (rule R27): `OsEnabled.avx` and XCR0[7:5] = 111b. -/
def State.osAvx512 (s : State) : Bool := s.osAvx && s.xcr0.extractLsb' 5 3 == 7#3

/-- `AlignCheck` (rule R43): CR0.AM = 1, RFLAGS.AC = 1 and privilege level 3. -/
def State.alignCheck (s : State) : Bool := s.crAm && s.flagAc && s.cpl == 3#2

end Sys2Proof.Machine
end

