-- ==== Sys2Proof/Machine/Ops.lean ====
section
/-! DEFINITION. The named operations over registers and memory that the meanings share: raising an exception, packed
elements, vector and other registers, the program counter, memory, and the program text
(spec/10_state.md, spec/20_memory.md, spec/40_packed_zero_extend_common.md rules R100 to R106,
spec/60_exceptions.md rules R170, R175 to R178, spec/70_reset_and_hazards.md rule R204). -/

namespace Sys2Proof.Machine

/-! ## Exceptions -/

/-- `raise` of rules R8 and R170: the outcome is the fault named and no state is written. Delivery to a handler and
the return from one are outside the spec's scope (rules R4, R170, R180, R181). -/
def raise (f : Fault) : Host.Outcome State Fault Refusal := .fault f

/-- The vector number of an exception (rule R178). -/
def Fault.vector : Fault → Nat
  | .ud => 6
  | .nm => 7
  | .ss => 12
  | .gp => 13
  | .pf _ _ => 14
  | .ac => 17

/-- The error code of an exception, if it has one (rule R178). -/
def Fault.errorCode : Fault → Option (BitVec 32)
  | .ud => none
  | .nm => none
  | .ss => some 0#32
  | .gp => some 0#32
  | .pf c _ => some c
  | .ac => some 0#32

/-- The four kinds of memory fault (rule R175). -/
def Fault.isMemory : Fault → Bool
  | .ud => false
  | .nm => false
  | .ss => true
  | .gp => true
  | .pf _ _ => true
  | .ac => true

/-! ## Packed elements (rules R7, R100) -/

/-- Element `j` of width `w` of a vector: bits `j*w + w - 1` down to `j*w`, zero-extended to 64 bits; `w` is at most
64. -/
def elem (w j : Nat) (v : Vec) : Word := (v.extractLsb' (j * w) w).setWidth 64

/-- The vector whose first `n` elements of width `w` are the low `w` bits of `f 0`, `f 1`, …, with zeros above. -/
def packElems (w : Nat) (f : Nat → Word) : Nat → Vec
  | 0 => 0#512
  | n + 1 => packElems w f n ||| ((((f n).setWidth w).setWidth 512) <<< (n * w))

/-- `PZX(sw, dw, KL, s)` of rule R100: destination element `j` is source element `j`, zero-extended. -/
def pzx (sw dw kl : Nat) (s : Vec) : Vec := packElems dw (fun j => elem sw j s) kl

/-- The low `n` bits of a vector, zeros above. -/
def lowBits (n : Nat) (v : Vec) : Vec := (v.setWidth n).setWidth 512

/-! ## Registers -/

/-- `ZMM[i]` read: its low `MAXVL` bits (rules R5, R20). -/
def State.zmmRead (s : State) (i : BitVec 5) : Vec := lowBits s.maxvl (s.zmm.get i.toFin)

/-- `ZMM[i] <- v`: `MAXVL` bits are written (rules R5, R8, R20). -/
def State.zmmWrite (s : State) (i : BitVec 5) (v : Vec) : State :=
  { s with zmm := s.zmm.set i.toFin (lowBits s.maxvl v) }

/-- `K[a]` (rule R22). -/
def State.kRead (s : State) (a : BitVec 3) : Word := s.k.get a.toFin

/-- `x[i]` (rule R23): with 32-bit addressing only the low 32 bits are used (rule R73). -/
def State.gpr (s : State) (adr32 : Bool) (i : BitVec 4) : Word :=
  if adr32 then ((s.x.get i.toFin).setWidth 32).setWidth 64 else s.x.get i.toFin

/-- An address or a program-counter value cut to the mode's width: modulo 2^64 in `Long64`, modulo 2^32 in `Prot32`
(rules R24, R40). -/
def wrapTo (m : Mode) (a : Word) : Word :=
  match m with
  | .long64 => a
  | .prot32 => (a.setWidth 32).setWidth 64

/-- The first number above the addresses of a mode (rules R7, R24, R40). -/
def addressTop : Mode → Nat
  | .long64 => 2 ^ 64
  | .prot32 => 2 ^ 32

/-- `pc + len`, the address of the next instruction (rules R24, R106). -/
def State.nextRip (s : State) (len : Nat) : Word := wrapTo s.params.mode (s.rip + BitVec.ofNat 64 len)

/-- `pc <- pc + len` (rules R24, R106), and whether the sum passed the top of the program counter's range. -/
def State.advance (s : State) (len : Nat) : State :=
  { s with
    rip := s.nextRip len
    wrapped := s.wrapped || decide (addressTop s.params.mode ≤ s.rip.toNat + len) }

/-- The program counter counted on past the top of its range, as rule R204 counts it ("`pc` only grows"). -/
def State.pcCount (s : State) : Nat := if s.wrapped then addressTop s.params.mode + s.rip.toNat else s.rip.toNat

/-- The base of a segment (rule R25): in `Long64` those of ES, CS, SS and DS are 0; in `Prot32` bases are 32 bits wide
(rule R40). -/
def State.segBaseOf (s : State) (sg : Seg) : Word :=
  match s.params.mode, sg with
  | .long64, .es => 0#64
  | .long64, .cs => 0#64
  | .long64, .ss => 0#64
  | .long64, .ds => 0#64
  | .long64, .fs => s.segBase.fs
  | .long64, .gs => s.segBase.gs
  | .prot32, .es => s.segBase.es
  | .prot32, .cs => s.segBase.cs
  | .prot32, .ss => s.segBase.ss
  | .prot32, .ds => s.segBase.ds
  | .prot32, .fs => s.segBase.fs
  | .prot32, .gs => s.segBase.gs

/-- The linear address of an effective address through a segment: `SegBase(s) + EA`, modulo the mode's width
(rule R40). -/
def State.linear (s : State) (sg : Seg) (ea : Word) : Word := wrapTo s.params.mode (s.segBaseOf sg + ea)

/-! ## Memory -/

/-- The byte at an address (rule R40). -/
def Memory.read : Memory → Word → Byte
  | [], _ => unlistedByte
  | c :: m, a => if c.1 = a.toNat then c.2 else if a.toNat < c.1 then unlistedByte else Memory.read m a

/-- Put a byte in front of the listed cells, unless it is the byte an unlisted address holds anyway. -/
def Memory.cons (a : Word) (b : Byte) (m : Memory) : Memory := if b = unlistedByte then m else (a.toNat, b) :: m

/-- One byte stored. No form stores (rule R45); a launch places the program with it, and it keeps the canonical form. -/
def Memory.write : Memory → Word → Byte → Memory
  | [], a, b => Memory.cons a b []
  | c :: m, a, b =>
    if c.1 = a.toNat then Memory.cons a b m
    else if a.toNat < c.1 then Memory.cons a b (c :: m)
    else c :: Memory.write m a b

/-- The canonical form of memory from address `lo` on: addresses strictly rising and below 2^64, and no byte listed that
an unlisted address holds anyway. -/
def Memory.wfFrom : Nat → Memory → Bool
  | _, [] => true
  | lo, c :: m => lo ≤ c.1 && c.1 < 2 ^ 64 && c.2 != unlistedByte && Memory.wfFrom (c.1 + 1) m

/-- The canonical form of memory: equal contents are equal lists. -/
def Memory.wf (m : Memory) : Bool := Memory.wfFrom 0 m

/-- The linear address `i` bytes above `la`, modulo the mode's width (rule R7). -/
def State.byteAddr (s : State) (la : Word) (i : Nat) : Word := wrapTo s.params.mode (la + BitVec.ofNat 64 i)

/-- The byte `i` bytes above `la`. -/
def State.readByte (s : State) (la : Word) (i : Nat) : Byte := s.mem.read (s.byteAddr la i)

/-- `MemRead(la, n)` of rule R41 where it returns: the `n` bytes from `la` upward, little-endian. -/
def State.memRead (s : State) (la : Word) (n : Nat) : Vec := packElems 8 (fun i => (s.readByte la i).setWidth 64) n

/-- The segment reaches a linear address: canonical, or inside the limit (rule R48). -/
def State.segReaches (s : State) (sg : Seg) (a : Word) : Bool :=
  s.params.reach.any fun w => w.seg == sg && w.base ≤ a.toNat && a.toNat < w.base + w.size

/-- A linear address is on a page of the page list. -/
def State.pagePresent (s : State) (a : Word) : Bool :=
  s.params.pages.any fun p => p.base ≤ a.toNat && a.toNat < p.base + p.size

/-- A linear address is on a page that the current privilege level may read (rules R48, R183). -/
def State.pageReadable (s : State) (a : Word) : Bool :=
  s.params.pages.any fun p => p.base ≤ a.toNat && a.toNat < p.base + p.size && (p.user || s.cpl != 3#2)

/-- `Admit(la, n, sg)` of rule R48: all `n` bytes from `la` can be read through segment `sg`. -/
def State.admits (s : State) (la : Word) (n : Nat) (sg : Seg) : Bool :=
  (List.range n).all fun i => s.segReaches sg (s.byteAddr la i) && s.pageReadable (s.byteAddr la i)

/-- The page-fault error code of rule R178: bit 0 present, bit 1 write = 0, bit 2 user mode, bit 4 fetch = 0. DESIGN CHOICE,
log entry 11: the bits that rule R178 does not name, 3 and 5 to 31, are 0, and "present" is that some page of the list
holds the address. -/
def State.pfCode (s : State) (a : Word) : BitVec 32 :=
  (BitVec.ofBool (s.cpl == 3#2) ++ 0#1 ++ BitVec.ofBool (s.pagePresent a)).setWidth 32

/-- The memory fault of a read of `n` bytes at `la` of which those at the offsets `need` must be admitted (rules R175,
R177), if there is one. DESIGN CHOICE, log entry 7: #SS or #GP before #PF before #AC, and the lowest failing byte in CR2;
rule R176 leaves the order open and no value depends on it. -/
def State.memFault (s : State) (sg : Seg) (la : Word) (n : Nat) (need : List Nat) : Option Fault :=
  if need.any fun i => !s.segReaches sg (s.byteAddr la i) then some (if sg = .ss then .ss else .gp)
  else
    match need.find? fun i => !s.pageReadable (s.byteAddr la i) with
    | some i => some (.pf (s.pfCode (s.byteAddr la i)) (s.byteAddr la i))
    | none => if s.alignCheck && !need.isEmpty && la.toNat % n != 0 then some .ac else none

/-! ## The program text (rules R28, R204) -/

/-- How many bytes can be fetched from `rip` on: up to the end of the program (rule R204), and never across the top of the
program counter's range or of the linear address space, since a fetch that would cross it is refused (rules R24, R40,
decision D8); 0 when `rip` is at no byte of the program. DESIGN CHOICE, log entry 10: of a text that runs past the top
(`base + L` above it) the bytes past the top are no part of the program, so a `rip` that has wrapped is at none. -/
def State.progRemaining (s : State) : Nat :=
  let top := addressTop s.params.mode
  let stop := min (s.params.progBase.toNat + s.params.progLen) top
  if s.params.progBase.toNat ≤ s.pcCount then min (stop - s.pcCount) (top - (s.linear .cs s.rip).toNat) else 0

/-- The program's bytes from `rip` on: fetched from the linear space at `rip` with the code segment's base (rule R40),
never past the end of the program or the top of the space (rules R24, R204; log entry 10). -/
def State.fetchBytes (s : State) : List Byte :=
  (List.range s.progRemaining).map fun i => s.readByte (s.linear .cs s.rip) i

/-- The run has reached its final state: `pc = base + L` (rule R204 (a)), at the top of the space too. -/
def State.atEnd (s : State) : Bool :=
  s.pcCount == s.params.progBase.toNat + s.params.progLen

/-! ## Launch (rules R200, R201, R204) -/

/-- A byte string stored from the linear address `la` upward. -/
def State.placeBytes (s : State) (la : Word) : Nat → List Byte → State
  | _, [] => s
  | i, b :: bs => State.placeBytes { s with mem := s.mem.write (s.byteAddr la i) b } la (i + 1) bs

/-- What system software has done before a program of these forms runs (rule R201): CR0.EM = CR0.TS = 0,
CR4.OSFXSR = CR4.OSXSAVE = 1, XCR0 bits 0, 1, 2, 5, 6 and 7 set. -/
def State.enableAll (s : State) : State :=
  { s with
    cr0 := s.cr0 &&& ~~~0xC#64
    cr4 := s.cr4 ||| 0x40200#64
    xcr0 := s.xcr0 ||| 0xE7#64 }

/-- The launch of a program at `rip` (rules R200, R204): its bytes placed, its extent set, the forms enabled, and `rip` not
wrapped. -/
def State.launch (s : State) (prog : List Byte) : State :=
  let t := (s.placeBytes (s.linear .cs s.rip) 0 prog).enableAll
  { t with wrapped := false, params := { t.params with progBase := s.rip, progLen := prog.length } }

end Sys2Proof.Machine
end

