-- ==== Sys2Proof/Machine/Operands.lean ====
section
/-! DEFINITION. Operand forms: the effective address of every ModRM and SIB form, segments, the source fetch, the three
write-back policies, and the step every form shares (spec/30_encoding.md rules R69 to R77, R83;
spec/40_packed_zero_extend_common.md rules R101 to R105, R109; spec/60_exceptions.md rules R173 to R177). -/

namespace Sys2Proof.Machine

/-- The widths of a form (rule R101): source elements of `sw` bits, `kl` destination elements of `dw` bits. -/
structure Shape where
  sw : Nat
  dw : Nat
  kl : Nat
deriving DecidableEq, Repr

/-- The bytes of the source operand: `nbytes = KL * sw / 8` (rules R42, R101). -/
def Shape.nbytes (sh : Shape) : Nat := sh.kl * sh.sw / 8

/-- The vector length: `VL = KL * dw` (rule R101). -/
def Shape.vl (sh : Shape) : Nat := sh.kl * sh.dw

/-- The tuple types of the EVEX forms (rules R75, R83). -/
inductive Tuple where
  | half
  | quarter
  | eighth
deriving DecidableEq, Repr

/-- The scale `N` of a one-byte displacement: one half, one quarter or one eighth of the vector length in bytes
(rule R75). -/
def Tuple.scale (t : Tuple) (vl : Nat) : Nat :=
  match t with
  | .half => vl / 8 / 2
  | .quarter => vl / 8 / 4
  | .eighth => vl / 8 / 8

/-! ## Effective address (rules R71 to R76) -/

/-- The value of a displacement: sign-extended, a one-byte one multiplied by `n` (rule R75; `n` is 1 outside EVEX). -/
def dispValue (n : Nat) : Disp → Word
  | .none => 0#64
  | .d8 b => b.signExtend 64 * BitVec.ofNat 64 n
  | .d32 w => w.signExtend 64

/-- Addressing is 32 bits wide: prefix 67 in `Long64`, always in `Prot32` (rule R73). -/
def State.adr32 (s : State) (adr67 : Bool) : Bool := adr67 || s.params.mode == .prot32

/-- The index part of an address: `x[index] * 2^ss`, 0 without an index (rules R71, R72). -/
def State.indexPart (s : State) (adr32 : Bool) (ss : BitVec 2) : Option (BitVec 4) → Word
  | none => 0#64
  | some i => s.gpr adr32 i <<< ss.toNat

/-- The sum of an address before it is cut to the address size (rules R72, R73, R76); `len` is the instruction's length
and `n` the scale of a one-byte displacement. -/
def State.addrSum (s : State) (adr32 : Bool) (len n : Nat) : MemOp → Word
  | .base b d => s.gpr adr32 b + dispValue n d
  | .rip d =>
    match s.params.mode with
    | .long64 => s.rip + BitVec.ofNat 64 len + d.signExtend 64
    | .prot32 => d.signExtend 64
  | .sib b i ss d => s.gpr adr32 b + s.indexPart adr32 ss i + dispValue n d
  | .sibNoBase i ss d => s.indexPart adr32 ss i + d.signExtend 64

/-- The effective address: the sum modulo 2^64, or modulo 2^32 and zero-extended with 32-bit addressing (rules R72,
R73). -/
def State.effAddr (s : State) (adr67 : Bool) (len n : Nat) (m : MemOp) : Word :=
  if s.adr32 adr67 then ((s.addrSum true len n m).setWidth 32).setWidth 64 else s.addrSum false len n m

/-- The default segment: SS with RSP or RBP as base register, else DS (rule R77). -/
def defaultSeg : MemOp → Seg
  | .base b _ => if b = 4#4 ∨ b = 5#4 then .ss else .ds
  | .rip _ => .ds
  | .sib b _ _ _ => if b = 4#4 ∨ b = 5#4 then .ss else .ds
  | .sibNoBase _ _ _ => .ds

/-- The segment of a memory operand: the override, else the default (rule R77). -/
def segOf (override : Option Seg) (m : MemOp) : Seg := override.getD (defaultSeg m)

/-- The linear address of a memory operand (rules R40, R72 to R77). -/
def State.memAddr (s : State) (adr67 : Bool) (seg : Option Seg) (len n : Nat) (m : MemOp) : Word :=
  s.linear (segOf seg m) (s.effAddr adr67 len n m)

/-! ## Source (rules R101, R175, R177) -/

/-- `SRC` of rule R101: the low `nbytes` bytes of a vector register, or `nbytes` bytes of memory, of which those at the
offsets `need` must be admitted (rule R177). -/
def State.source {k : Nat} (s : State) (adr67 : Bool) (seg : Option Seg) (len n nbytes : Nat) (need : List Nat) :
    Src k → Except Fault Vec
  | .reg r => .ok (lowBits (8 * nbytes) (s.zmmRead (r.setWidth 5)))
  | .mem m =>
    match s.memFault (segOf seg m) (s.memAddr adr67 seg len n m) nbytes need with
    | some f => .error f
    | none => .ok (s.memRead (s.memAddr adr67 seg len n m) nbytes)

/-- Element `j` is written: no writemask, or bit `j` of it is 1 (rule R104). -/
def State.active (s : State) (aaa : BitVec 3) (j : Nat) : Bool := aaa == 0#3 || (s.kRead aaa).getLsbD j

/-- The source bytes that must be admitted under a writemask (rule R177): all, or with `FaultSuppression` those of the
elements that are written. -/
def State.evexNeed (s : State) (sh : Shape) (aaa : BitVec 3) : List Nat :=
  if s.params.faultSuppression then (List.range sh.nbytes).filter fun i => s.active aaa (i / (sh.sw / 8))
  else List.range sh.nbytes

/-! ## Write-back (rules R102 to R104) -/

/-- Legacy write-back: `ZMM[d][MAXVL-1:128] :: T` (rule R102). -/
def legacyWriteBack (old t : Vec) : Vec := old.extractLsb' 128 384 ++ t.setWidth 128

/-- EVEX write-back: element by element under the writemask, merging or zeroing, and zeros above `VL` (rule R104). -/
def evexWriteBack (sh : Shape) (active : Nat → Bool) (z : Bool) (old t : Vec) : Vec :=
  packElems sh.dw (fun j => if active j then elem sh.dw j t else if z then 0#64 else elem sh.dw j old) sh.kl

/-! ## The step of a form (rule R109, steps 2 to 7) -/

/-- What every form does: #UD unless enabled, #NM when CR0.TS = 1, the source or its memory fault, then the destination
and the program counter together (rules R109, R170, R173, R174, R176). -/
def State.runForm (s : State) (enabled : Bool) (src : Except Fault Vec) (d : BitVec 5) (result : Vec → Vec) (len : Nat) :
    Host.Outcome State Fault Refusal :=
  if enabled then
    if s.crTs then raise .nm
    else
      match src with
      | .error f => raise f
      | .ok v => .next ((s.zmmWrite d (result v)).advance len)
  else raise .ud

/-- A legacy SSE form of a given shape (rules R102, R110 to R115, R173). -/
def runLegacy (sh : Shape) (o : LegacyOps) (s : State) : Host.Outcome State Fault Refusal :=
  s.runForm (s.hasSse41 && s.osSse) (s.source o.adr67 o.seg o.len 1 sh.nbytes (List.range sh.nbytes) o.src)
    (o.d.setWidth 5) (fun v => legacyWriteBack (s.zmmRead (o.d.setWidth 5)) (pzx sh.sw sh.dw sh.kl v)) o.len

/-- A VEX form of a given shape, whose row's feature flag is `feat` (rules R103, R120 to R131, R173). -/
def runVex (sh : Shape) (feat : Bool) (o : VexOps) (s : State) : Host.Outcome State Fault Refusal :=
  s.runForm (feat && s.osAvx) (s.source o.adr67 o.seg o.len 1 sh.nbytes (List.range sh.nbytes) o.src)
    (o.d.setWidth 5) (fun v => pzx sh.sw sh.dw sh.kl v) o.len

/-- An EVEX form of a given shape and tuple type, whose row's feature flags are `feat` (rules R104, R140 to R157,
R173, R177). -/
def runEvex (sh : Shape) (t : Tuple) (feat : Bool) (o : EvexOps) (s : State) : Host.Outcome State Fault Refusal :=
  s.runForm (feat && s.osAvx512)
    (s.source o.adr67 o.seg o.len (t.scale sh.vl) sh.nbytes (s.evexNeed sh o.aaa) o.src)
    o.d (fun v => evexWriteBack sh (s.active o.aaa) o.z (s.zmmRead o.d) (pzx sh.sw sh.dw sh.kl v)) o.len

end Sys2Proof.Machine
end

