-- ==== Sys2Proof/Machine/Evex.lean ====
section
/-! DEFINITION. The eighteen EVEX forms (spec/43_vpmovzx_evex.md rules R140 to R157, opcode-table rows 19 to 36): writemask with
merging or zeroing, bits above the vector length zeroed, CPUID flags AVX512F or AVX512BW, with AVX512VL below 512 bits. -/

namespace Sys2Proof.Machine

/-- VPMOVZXBW xmm1 {k1}{z}, xmm2/m64 (row 19, rule R140): 8 elements of 8 bits from 8 bytes to 16 bits each. -/
def execVpmovzxbwEvex128 (o : EvexOps) (s : State) : Host.Outcome State Fault Refusal :=
  runEvex ⟨8, 16, 8⟩ .half (s.hasAvx512bw && s.hasAvx512vl) o s

/-- VPMOVZXBW ymm1 {k1}{z}, xmm2/m128 (row 20, rule R141): 16 elements of 8 bits from 16 bytes to 16 bits each. -/
def execVpmovzxbwEvex256 (o : EvexOps) (s : State) : Host.Outcome State Fault Refusal :=
  runEvex ⟨8, 16, 16⟩ .half (s.hasAvx512bw && s.hasAvx512vl) o s

/-- VPMOVZXBW zmm1 {k1}{z}, ymm2/m256 (row 21, rule R142): 32 elements of 8 bits from 32 bytes to 16 bits each. -/
def execVpmovzxbwEvex512 (o : EvexOps) (s : State) : Host.Outcome State Fault Refusal :=
  runEvex ⟨8, 16, 32⟩ .half s.hasAvx512bw o s

/-- VPMOVZXBD xmm1 {k1}{z}, xmm2/m32 (row 22, rule R143): 4 elements of 8 bits from 4 bytes to 32 bits each. -/
def execVpmovzxbdEvex128 (o : EvexOps) (s : State) : Host.Outcome State Fault Refusal :=
  runEvex ⟨8, 32, 4⟩ .quarter (s.hasAvx512f && s.hasAvx512vl) o s

/-- VPMOVZXBD ymm1 {k1}{z}, xmm2/m64 (row 23, rule R144): 8 elements of 8 bits from 8 bytes to 32 bits each. -/
def execVpmovzxbdEvex256 (o : EvexOps) (s : State) : Host.Outcome State Fault Refusal :=
  runEvex ⟨8, 32, 8⟩ .quarter (s.hasAvx512f && s.hasAvx512vl) o s

/-- VPMOVZXBD zmm1 {k1}{z}, xmm2/m128 (row 24, rule R145): 16 elements of 8 bits from 16 bytes to 32 bits each. -/
def execVpmovzxbdEvex512 (o : EvexOps) (s : State) : Host.Outcome State Fault Refusal :=
  runEvex ⟨8, 32, 16⟩ .quarter s.hasAvx512f o s

/-- VPMOVZXBQ xmm1 {k1}{z}, xmm2/m16 (row 25, rule R146): 2 elements of 8 bits from 2 bytes to 64 bits each. -/
def execVpmovzxbqEvex128 (o : EvexOps) (s : State) : Host.Outcome State Fault Refusal :=
  runEvex ⟨8, 64, 2⟩ .eighth (s.hasAvx512f && s.hasAvx512vl) o s

/-- VPMOVZXBQ ymm1 {k1}{z}, xmm2/m32 (row 26, rule R147): 4 elements of 8 bits from 4 bytes to 64 bits each. -/
def execVpmovzxbqEvex256 (o : EvexOps) (s : State) : Host.Outcome State Fault Refusal :=
  runEvex ⟨8, 64, 4⟩ .eighth (s.hasAvx512f && s.hasAvx512vl) o s

/-- VPMOVZXBQ zmm1 {k1}{z}, xmm2/m64 (row 27, rule R148): 8 elements of 8 bits from 8 bytes to 64 bits each. -/
def execVpmovzxbqEvex512 (o : EvexOps) (s : State) : Host.Outcome State Fault Refusal :=
  runEvex ⟨8, 64, 8⟩ .eighth s.hasAvx512f o s

/-- VPMOVZXWD xmm1 {k1}{z}, xmm2/m64 (row 28, rule R149): 4 elements of 16 bits from 8 bytes to 32 bits each. -/
def execVpmovzxwdEvex128 (o : EvexOps) (s : State) : Host.Outcome State Fault Refusal :=
  runEvex ⟨16, 32, 4⟩ .half (s.hasAvx512f && s.hasAvx512vl) o s

/-- VPMOVZXWD ymm1 {k1}{z}, xmm2/m128 (row 29, rule R150): 8 elements of 16 bits from 16 bytes to 32 bits each. -/
def execVpmovzxwdEvex256 (o : EvexOps) (s : State) : Host.Outcome State Fault Refusal :=
  runEvex ⟨16, 32, 8⟩ .half (s.hasAvx512f && s.hasAvx512vl) o s

/-- VPMOVZXWD zmm1 {k1}{z}, ymm2/m256 (row 30, rule R151): 16 elements of 16 bits from 32 bytes to 32 bits each. -/
def execVpmovzxwdEvex512 (o : EvexOps) (s : State) : Host.Outcome State Fault Refusal :=
  runEvex ⟨16, 32, 16⟩ .half s.hasAvx512f o s

/-- VPMOVZXWQ xmm1 {k1}{z}, xmm2/m32 (row 31, rule R152): 2 elements of 16 bits from 4 bytes to 64 bits each. -/
def execVpmovzxwqEvex128 (o : EvexOps) (s : State) : Host.Outcome State Fault Refusal :=
  runEvex ⟨16, 64, 2⟩ .quarter (s.hasAvx512f && s.hasAvx512vl) o s

/-- VPMOVZXWQ ymm1 {k1}{z}, xmm2/m64 (row 32, rule R153): 4 elements of 16 bits from 8 bytes to 64 bits each. -/
def execVpmovzxwqEvex256 (o : EvexOps) (s : State) : Host.Outcome State Fault Refusal :=
  runEvex ⟨16, 64, 4⟩ .quarter (s.hasAvx512f && s.hasAvx512vl) o s

/-- VPMOVZXWQ zmm1 {k1}{z}, xmm2/m128 (row 33, rule R154): 8 elements of 16 bits from 16 bytes to 64 bits each. -/
def execVpmovzxwqEvex512 (o : EvexOps) (s : State) : Host.Outcome State Fault Refusal :=
  runEvex ⟨16, 64, 8⟩ .quarter s.hasAvx512f o s

/-- VPMOVZXDQ xmm1 {k1}{z}, xmm2/m64 (row 34, rule R155): 2 elements of 32 bits from 8 bytes to 64 bits each. -/
def execVpmovzxdqEvex128 (o : EvexOps) (s : State) : Host.Outcome State Fault Refusal :=
  runEvex ⟨32, 64, 2⟩ .half (s.hasAvx512f && s.hasAvx512vl) o s

/-- VPMOVZXDQ ymm1 {k1}{z}, xmm2/m128 (row 35, rule R156): 4 elements of 32 bits from 16 bytes to 64 bits each. -/
def execVpmovzxdqEvex256 (o : EvexOps) (s : State) : Host.Outcome State Fault Refusal :=
  runEvex ⟨32, 64, 4⟩ .half (s.hasAvx512f && s.hasAvx512vl) o s

/-- VPMOVZXDQ zmm1 {k1}{z}, ymm2/m256 (row 36, rule R157): 8 elements of 32 bits from 32 bytes to 64 bits each. -/
def execVpmovzxdqEvex512 (o : EvexOps) (s : State) : Host.Outcome State Fault Refusal :=
  runEvex ⟨32, 64, 8⟩ .half s.hasAvx512f o s

end Sys2Proof.Machine
end

