-- ==== Sys2Proof/Machine/LegacySse.lean ====
section
/-! DEFINITION. The six legacy SSE forms (spec/41_pmovzx_legacy_sse.md rules R110 to R115, opcode-table rows 1 to 6): destination
XMM, bits `MAXVL-1:128` kept, CPUID flag SSE4_1. -/

namespace Sys2Proof.Machine

/-- PMOVZXBW xmm1, xmm2/m64 (row 1, rule R110): 8 elements of 8 bits from 8 bytes to 16 bits each. -/
def execPmovzxbw (o : LegacyOps) (s : State) : Host.Outcome State Fault Refusal :=
  runLegacy ⟨8, 16, 8⟩ o s

/-- PMOVZXBD xmm1, xmm2/m32 (row 2, rule R111): 4 elements of 8 bits from 4 bytes to 32 bits each. -/
def execPmovzxbd (o : LegacyOps) (s : State) : Host.Outcome State Fault Refusal :=
  runLegacy ⟨8, 32, 4⟩ o s

/-- PMOVZXBQ xmm1, xmm2/m16 (row 3, rule R112): 2 elements of 8 bits from 2 bytes to 64 bits each. -/
def execPmovzxbq (o : LegacyOps) (s : State) : Host.Outcome State Fault Refusal :=
  runLegacy ⟨8, 64, 2⟩ o s

/-- PMOVZXWD xmm1, xmm2/m64 (row 4, rule R113): 4 elements of 16 bits from 8 bytes to 32 bits each. -/
def execPmovzxwd (o : LegacyOps) (s : State) : Host.Outcome State Fault Refusal :=
  runLegacy ⟨16, 32, 4⟩ o s

/-- PMOVZXWQ xmm1, xmm2/m32 (row 5, rule R114): 2 elements of 16 bits from 4 bytes to 64 bits each. -/
def execPmovzxwq (o : LegacyOps) (s : State) : Host.Outcome State Fault Refusal :=
  runLegacy ⟨16, 64, 2⟩ o s

/-- PMOVZXDQ xmm1, xmm2/m64 (row 6, rule R115): 2 elements of 32 bits from 8 bytes to 64 bits each. -/
def execPmovzxdq (o : LegacyOps) (s : State) : Host.Outcome State Fault Refusal :=
  runLegacy ⟨32, 64, 2⟩ o s

end Sys2Proof.Machine
end

