-- ==== Sys2Proof/Machine/Vex.lean ====
section
/-! DEFINITION. The twelve VEX forms (spec/42_vpmovzx_vex.md rules R120 to R131, opcode-table rows 7 to 18): bits above the vector
length zeroed, CPUID flag AVX at VEX.128 and AVX2 at VEX.256. -/

namespace Sys2Proof.Machine

/-- VPMOVZXBW xmm1, xmm2/m64 (row 7, rule R120): 8 elements of 8 bits from 8 bytes to 16 bits each. -/
def execVpmovzxbwVex128 (o : VexOps) (s : State) : Host.Outcome State Fault Refusal :=
  runVex ⟨8, 16, 8⟩ s.hasAvx o s

/-- VPMOVZXBD xmm1, xmm2/m32 (row 8, rule R121): 4 elements of 8 bits from 4 bytes to 32 bits each. -/
def execVpmovzxbdVex128 (o : VexOps) (s : State) : Host.Outcome State Fault Refusal :=
  runVex ⟨8, 32, 4⟩ s.hasAvx o s

/-- VPMOVZXBQ xmm1, xmm2/m16 (row 9, rule R122): 2 elements of 8 bits from 2 bytes to 64 bits each. -/
def execVpmovzxbqVex128 (o : VexOps) (s : State) : Host.Outcome State Fault Refusal :=
  runVex ⟨8, 64, 2⟩ s.hasAvx o s

/-- VPMOVZXWD xmm1, xmm2/m64 (row 10, rule R123): 4 elements of 16 bits from 8 bytes to 32 bits each. -/
def execVpmovzxwdVex128 (o : VexOps) (s : State) : Host.Outcome State Fault Refusal :=
  runVex ⟨16, 32, 4⟩ s.hasAvx o s

/-- VPMOVZXWQ xmm1, xmm2/m32 (row 11, rule R124): 2 elements of 16 bits from 4 bytes to 64 bits each. -/
def execVpmovzxwqVex128 (o : VexOps) (s : State) : Host.Outcome State Fault Refusal :=
  runVex ⟨16, 64, 2⟩ s.hasAvx o s

/-- VPMOVZXDQ xmm1, xmm2/m64 (row 12, rule R125): 2 elements of 32 bits from 8 bytes to 64 bits each. -/
def execVpmovzxdqVex128 (o : VexOps) (s : State) : Host.Outcome State Fault Refusal :=
  runVex ⟨32, 64, 2⟩ s.hasAvx o s

/-- VPMOVZXBW ymm1, xmm2/m128 (row 13, rule R126): 16 elements of 8 bits from 16 bytes to 16 bits each. -/
def execVpmovzxbwVex256 (o : VexOps) (s : State) : Host.Outcome State Fault Refusal :=
  runVex ⟨8, 16, 16⟩ s.hasAvx2 o s

/-- VPMOVZXBD ymm1, xmm2/m64 (row 14, rule R127): 8 elements of 8 bits from 8 bytes to 32 bits each. -/
def execVpmovzxbdVex256 (o : VexOps) (s : State) : Host.Outcome State Fault Refusal :=
  runVex ⟨8, 32, 8⟩ s.hasAvx2 o s

/-- VPMOVZXBQ ymm1, xmm2/m32 (row 15, rule R128): 4 elements of 8 bits from 4 bytes to 64 bits each. -/
def execVpmovzxbqVex256 (o : VexOps) (s : State) : Host.Outcome State Fault Refusal :=
  runVex ⟨8, 64, 4⟩ s.hasAvx2 o s

/-- VPMOVZXWD ymm1, xmm2/m128 (row 16, rule R129): 8 elements of 16 bits from 16 bytes to 32 bits each. -/
def execVpmovzxwdVex256 (o : VexOps) (s : State) : Host.Outcome State Fault Refusal :=
  runVex ⟨16, 32, 8⟩ s.hasAvx2 o s

/-- VPMOVZXWQ ymm1, xmm2/m64 (row 17, rule R130): 4 elements of 16 bits from 8 bytes to 64 bits each. -/
def execVpmovzxwqVex256 (o : VexOps) (s : State) : Host.Outcome State Fault Refusal :=
  runVex ⟨16, 64, 4⟩ s.hasAvx2 o s

/-- VPMOVZXDQ ymm1, xmm2/m128 (row 18, rule R131): 4 elements of 32 bits from 16 bytes to 64 bits each. -/
def execVpmovzxdqVex256 (o : VexOps) (s : State) : Host.Outcome State Fault Refusal :=
  runVex ⟨32, 64, 4⟩ s.hasAvx2 o s

end Sys2Proof.Machine
end

