-- ==== Sys2Proof/Machine/Dispatch.lean ====
section
/-! DEFINITION. One arm per instruction form, in the order of spec/opcode_table.json. -/

namespace Sys2Proof.Machine

-- The meaning of every form (spec/40_packed_zero_extend_common.md rule R109, steps 2 to 7).
def exec (i : Instr) (s : State) : Host.Outcome State Fault Refusal :=
  match i with
  | .pmovzxbw o => Sys2Proof.Machine.execPmovzxbw o s
  | .pmovzxbd o => Sys2Proof.Machine.execPmovzxbd o s
  | .pmovzxbq o => Sys2Proof.Machine.execPmovzxbq o s
  | .pmovzxwd o => Sys2Proof.Machine.execPmovzxwd o s
  | .pmovzxwq o => Sys2Proof.Machine.execPmovzxwq o s
  | .pmovzxdq o => Sys2Proof.Machine.execPmovzxdq o s
  | .vpmovzxbwVex128 o => Sys2Proof.Machine.execVpmovzxbwVex128 o s
  | .vpmovzxbdVex128 o => Sys2Proof.Machine.execVpmovzxbdVex128 o s
  | .vpmovzxbqVex128 o => Sys2Proof.Machine.execVpmovzxbqVex128 o s
  | .vpmovzxwdVex128 o => Sys2Proof.Machine.execVpmovzxwdVex128 o s
  | .vpmovzxwqVex128 o => Sys2Proof.Machine.execVpmovzxwqVex128 o s
  | .vpmovzxdqVex128 o => Sys2Proof.Machine.execVpmovzxdqVex128 o s
  | .vpmovzxbwVex256 o => Sys2Proof.Machine.execVpmovzxbwVex256 o s
  | .vpmovzxbdVex256 o => Sys2Proof.Machine.execVpmovzxbdVex256 o s
  | .vpmovzxbqVex256 o => Sys2Proof.Machine.execVpmovzxbqVex256 o s
  | .vpmovzxwdVex256 o => Sys2Proof.Machine.execVpmovzxwdVex256 o s
  | .vpmovzxwqVex256 o => Sys2Proof.Machine.execVpmovzxwqVex256 o s
  | .vpmovzxdqVex256 o => Sys2Proof.Machine.execVpmovzxdqVex256 o s
  | .vpmovzxbwEvex128 o => Sys2Proof.Machine.execVpmovzxbwEvex128 o s
  | .vpmovzxbwEvex256 o => Sys2Proof.Machine.execVpmovzxbwEvex256 o s
  | .vpmovzxbwEvex512 o => Sys2Proof.Machine.execVpmovzxbwEvex512 o s
  | .vpmovzxbdEvex128 o => Sys2Proof.Machine.execVpmovzxbdEvex128 o s
  | .vpmovzxbdEvex256 o => Sys2Proof.Machine.execVpmovzxbdEvex256 o s
  | .vpmovzxbdEvex512 o => Sys2Proof.Machine.execVpmovzxbdEvex512 o s
  | .vpmovzxbqEvex128 o => Sys2Proof.Machine.execVpmovzxbqEvex128 o s
  | .vpmovzxbqEvex256 o => Sys2Proof.Machine.execVpmovzxbqEvex256 o s
  | .vpmovzxbqEvex512 o => Sys2Proof.Machine.execVpmovzxbqEvex512 o s
  | .vpmovzxwdEvex128 o => Sys2Proof.Machine.execVpmovzxwdEvex128 o s
  | .vpmovzxwdEvex256 o => Sys2Proof.Machine.execVpmovzxwdEvex256 o s
  | .vpmovzxwdEvex512 o => Sys2Proof.Machine.execVpmovzxwdEvex512 o s
  | .vpmovzxwqEvex128 o => Sys2Proof.Machine.execVpmovzxwqEvex128 o s
  | .vpmovzxwqEvex256 o => Sys2Proof.Machine.execVpmovzxwqEvex256 o s
  | .vpmovzxwqEvex512 o => Sys2Proof.Machine.execVpmovzxwqEvex512 o s
  | .vpmovzxdqEvex128 o => Sys2Proof.Machine.execVpmovzxdqEvex128 o s
  | .vpmovzxdqEvex256 o => Sys2Proof.Machine.execVpmovzxdqEvex256 o s
  | .vpmovzxdqEvex512 o => Sys2Proof.Machine.execVpmovzxdqEvex512 o s

end Sys2Proof.Machine
end

