-- ==== Sys2Proof/Machine/Step.lean ====
section
/-! DEFINITION. The step (spec/40_packed_zero_extend_common.md rule R109; spec/30_encoding.md rule R85;
spec/70_reset_and_hazards.md rule R204), and the launch of one opcode-table word. -/

namespace Sys2Proof.Machine

/-- One step (rule R109): fetch from the program text, decode (rule R85), execute. At the end of the program, and
where there is no program byte, there is no next instruction and the step is refused (rule R204). -/
def step (s : State) : Host.Outcome State Fault Refusal :=
  if s.progRemaining = 0 then .refused (if s.atEnd then .endOfProgram else .outsideProgram)
  else
    match decode s.params.mode s.fetchBytes with
    | .instr i => exec i s
    | .ud => raise .ud
    | .reject r => .refused (.undecoded r)

/-- The launch (rules R200, R201, R204) of the program that is one instruction of the opcode table, its bits numbered as
rule R86 numbers them: the bytes placed at `rip`, the program's extent set, the form's class enabled. Log entry 4. -/
def State.withFetchWord (s : State) (nbits w : Nat) : State := s.launch (tableBytes nbits w)

end Sys2Proof.Machine
end

