-- ==== Sys2Proof/Safety.lean ====
section
/-! DEFINITION. The terms that claims about the machine use: the table of a form's widths, flags and displacement scale
as the rules give them (spec/30_encoding.md rules R75, R79; spec/40_packed_zero_extend_common.md rule R101;
spec/60_exceptions.md rule R173), what the destination must hold afterwards, byte by byte, when a form may run, and the
invariant of a state. Nothing here is used by the machine: it is a second writing of the rules to hold the machine
against. -/

namespace Sys2Proof.Machine

/-! ## The table of the forms -/

/-- Width of a source element in bits, from the opcode (rule R79). -/
def srcWidth : Conv → Nat
  | .bw => 8
  | .bd => 8
  | .bq => 8
  | .wd => 16
  | .wq => 16
  | .dq => 32

/-- Width of a destination element in bits, from the opcode (rule R79). -/
def dstWidth : Conv → Nat
  | .bw => 16
  | .bd => 32
  | .bq => 64
  | .wd => 32
  | .wq => 64
  | .dq => 64

/-- The conversion of a form (rule R1). -/
def convOf : Instr → Conv
  | .pmovzxbw _ => .bw
  | .pmovzxbd _ => .bd
  | .pmovzxbq _ => .bq
  | .pmovzxwd _ => .wd
  | .pmovzxwq _ => .wq
  | .pmovzxdq _ => .dq
  | .vpmovzxbwVex128 _ => .bw
  | .vpmovzxbdVex128 _ => .bd
  | .vpmovzxbqVex128 _ => .bq
  | .vpmovzxwdVex128 _ => .wd
  | .vpmovzxwqVex128 _ => .wq
  | .vpmovzxdqVex128 _ => .dq
  | .vpmovzxbwVex256 _ => .bw
  | .vpmovzxbdVex256 _ => .bd
  | .vpmovzxbqVex256 _ => .bq
  | .vpmovzxwdVex256 _ => .wd
  | .vpmovzxwqVex256 _ => .wq
  | .vpmovzxdqVex256 _ => .dq
  | .vpmovzxbwEvex128 _ => .bw
  | .vpmovzxbwEvex256 _ => .bw
  | .vpmovzxbwEvex512 _ => .bw
  | .vpmovzxbdEvex128 _ => .bd
  | .vpmovzxbdEvex256 _ => .bd
  | .vpmovzxbdEvex512 _ => .bd
  | .vpmovzxbqEvex128 _ => .bq
  | .vpmovzxbqEvex256 _ => .bq
  | .vpmovzxbqEvex512 _ => .bq
  | .vpmovzxwdEvex128 _ => .wd
  | .vpmovzxwdEvex256 _ => .wd
  | .vpmovzxwdEvex512 _ => .wd
  | .vpmovzxwqEvex128 _ => .wq
  | .vpmovzxwqEvex256 _ => .wq
  | .vpmovzxwqEvex512 _ => .wq
  | .vpmovzxdqEvex128 _ => .dq
  | .vpmovzxdqEvex256 _ => .dq
  | .vpmovzxdqEvex512 _ => .dq

/-- The vector length of a form in bits (rules R62, R64, R66). -/
def vlOf : Instr → Nat
  | .pmovzxbw _ => 128
  | .pmovzxbd _ => 128
  | .pmovzxbq _ => 128
  | .pmovzxwd _ => 128
  | .pmovzxwq _ => 128
  | .pmovzxdq _ => 128
  | .vpmovzxbwVex128 _ => 128
  | .vpmovzxbdVex128 _ => 128
  | .vpmovzxbqVex128 _ => 128
  | .vpmovzxwdVex128 _ => 128
  | .vpmovzxwqVex128 _ => 128
  | .vpmovzxdqVex128 _ => 128
  | .vpmovzxbwVex256 _ => 256
  | .vpmovzxbdVex256 _ => 256
  | .vpmovzxbqVex256 _ => 256
  | .vpmovzxwdVex256 _ => 256
  | .vpmovzxwqVex256 _ => 256
  | .vpmovzxdqVex256 _ => 256
  | .vpmovzxbwEvex128 _ => 128
  | .vpmovzxbwEvex256 _ => 256
  | .vpmovzxbwEvex512 _ => 512
  | .vpmovzxbdEvex128 _ => 128
  | .vpmovzxbdEvex256 _ => 256
  | .vpmovzxbdEvex512 _ => 512
  | .vpmovzxbqEvex128 _ => 128
  | .vpmovzxbqEvex256 _ => 256
  | .vpmovzxbqEvex512 _ => 512
  | .vpmovzxwdEvex128 _ => 128
  | .vpmovzxwdEvex256 _ => 256
  | .vpmovzxwdEvex512 _ => 512
  | .vpmovzxwqEvex128 _ => 128
  | .vpmovzxwqEvex256 _ => 256
  | .vpmovzxwqEvex512 _ => 512
  | .vpmovzxdqEvex128 _ => 128
  | .vpmovzxdqEvex256 _ => 256
  | .vpmovzxdqEvex512 _ => 512

/-- The `match` and `mask` of a form's row in spec/opcode_table.json (rule R86). -/
def windowOf : Instr → Nat × Nat
  | .pmovzxbw _ => (0x660F3830, 0xFFFFFFFF)
  | .pmovzxbd _ => (0x660F3831, 0xFFFFFFFF)
  | .pmovzxbq _ => (0x660F3832, 0xFFFFFFFF)
  | .pmovzxwd _ => (0x660F3833, 0xFFFFFFFF)
  | .pmovzxwq _ => (0x660F3834, 0xFFFFFFFF)
  | .pmovzxdq _ => (0x660F3835, 0xFFFFFFFF)
  | .vpmovzxbwVex128 _ => (0xC4020130, 0xFF1F07FF)
  | .vpmovzxbdVex128 _ => (0xC4020131, 0xFF1F07FF)
  | .vpmovzxbqVex128 _ => (0xC4020132, 0xFF1F07FF)
  | .vpmovzxwdVex128 _ => (0xC4020133, 0xFF1F07FF)
  | .vpmovzxwqVex128 _ => (0xC4020134, 0xFF1F07FF)
  | .vpmovzxdqVex128 _ => (0xC4020135, 0xFF1F07FF)
  | .vpmovzxbwVex256 _ => (0xC4020530, 0xFF1F07FF)
  | .vpmovzxbdVex256 _ => (0xC4020531, 0xFF1F07FF)
  | .vpmovzxbqVex256 _ => (0xC4020532, 0xFF1F07FF)
  | .vpmovzxwdVex256 _ => (0xC4020533, 0xFF1F07FF)
  | .vpmovzxwqVex256 _ => (0xC4020534, 0xFF1F07FF)
  | .vpmovzxdqVex256 _ => (0xC4020535, 0xFF1F07FF)
  | .vpmovzxbwEvex128 _ => (0x6202010030, 0xFF030360FF)
  | .vpmovzxbwEvex256 _ => (0x6202012030, 0xFF030360FF)
  | .vpmovzxbwEvex512 _ => (0x6202014030, 0xFF030360FF)
  | .vpmovzxbdEvex128 _ => (0x6202010031, 0xFF030360FF)
  | .vpmovzxbdEvex256 _ => (0x6202012031, 0xFF030360FF)
  | .vpmovzxbdEvex512 _ => (0x6202014031, 0xFF030360FF)
  | .vpmovzxbqEvex128 _ => (0x6202010032, 0xFF030360FF)
  | .vpmovzxbqEvex256 _ => (0x6202012032, 0xFF030360FF)
  | .vpmovzxbqEvex512 _ => (0x6202014032, 0xFF030360FF)
  | .vpmovzxwdEvex128 _ => (0x6202010033, 0xFF030360FF)
  | .vpmovzxwdEvex256 _ => (0x6202012033, 0xFF030360FF)
  | .vpmovzxwdEvex512 _ => (0x6202014033, 0xFF030360FF)
  | .vpmovzxwqEvex128 _ => (0x6202010034, 0xFF030360FF)
  | .vpmovzxwqEvex256 _ => (0x6202012034, 0xFF030360FF)
  | .vpmovzxwqEvex512 _ => (0x6202014034, 0xFF030360FF)
  | .vpmovzxdqEvex128 _ => (0x6202010035, 0xFF030360FF)
  | .vpmovzxdqEvex256 _ => (0x6202012035, 0xFF030360FF)
  | .vpmovzxdqEvex512 _ => (0x6202014035, 0xFF030360FF)

/-- `KL`, the number of destination elements: `VL / dw` (rule R79). -/
def klOf (i : Instr) : Nat := vlOf i / dstWidth (convOf i)

/-- `nbytes`, the size of the source operand: `KL * sw / 8` (rules R42, R79). -/
def nbytesOf (i : Instr) : Nat := klOf i * srcWidth (convOf i) / 8

/-- `N`, what a one-byte displacement counts: 1 in the legacy and VEX classes; by the tuple type and the vector length in
the EVEX class (rule R75). -/
def dispScaleOf (i : Instr) : Nat :=
  match i.operands with
  | .legacy _ => 1
  | .vex _ => 1
  | .evex _ =>
    match convOf i with
    | .bw => vlOf i / 16
    | .wd => vlOf i / 16
    | .dq => vlOf i / 16
    | .bd => vlOf i / 32
    | .wq => vlOf i / 32
    | .bq => vlOf i / 64

/-- The number of the destination register (rule R70). -/
def destOf (i : Instr) : BitVec 5 :=
  match i.operands with
  | .legacy o => o.d.setWidth 5
  | .vex o => o.d.setWidth 5
  | .evex o => o.d

/-- A source operand with its register number widened to five bits. -/
def widenSrc {n : Nat} : Src n → Src 5
  | .reg r => .reg (r.setWidth 5)
  | .mem m => .mem m

/-- The source operand (rule R69). -/
def srcOf (i : Instr) : Src 5 :=
  match i.operands with
  | .legacy o => widenSrc o.src
  | .vex o => widenSrc o.src
  | .evex o => o.src

/-- The prefix 67 is present (rule R73). -/
def adr67Of (i : Instr) : Bool :=
  match i.operands with
  | .legacy o => o.adr67
  | .vex o => o.adr67
  | .evex o => o.adr67

/-- The segment override (rule R77). -/
def overrideOf (i : Instr) : Option Seg :=
  match i.operands with
  | .legacy o => o.seg
  | .vex o => o.seg
  | .evex o => o.seg

/-! ## When a form may run -/

/-- The features and enables of the form's row are there: the table of rule R173 read as "no #UD". -/
def enabledFor (i : Instr) (s : State) : Bool :=
  match i.operands with
  | .legacy _ => s.hasSse41 && s.osSse
  | .vex _ => (if vlOf i = 128 then s.hasAvx else s.hasAvx2) && s.osAvx
  | .evex _ =>
    (if convOf i = .bw then s.hasAvx512bw else s.hasAvx512f) && (vlOf i == 512 || s.hasAvx512vl) && s.osAvx512

/-- Element `j` of the destination is written (rule R104): always outside the EVEX class and with `aaa` = 000b, else
when bit `j` of the opmask is 1. -/
def elementWritten (i : Instr) (s : State) (j : Nat) : Bool :=
  match i.operands with
  | .legacy _ => true
  | .vex _ => true
  | .evex o => o.aaa == 0#3 || (s.kRead o.aaa).getLsbD j

/-- The form has a writemask whose masked-off source bytes are exempt from memory faults (rule R177). -/
def suppresses (i : Instr) (s : State) : Bool :=
  match i.operands with
  | .legacy _ => false
  | .vex _ => false
  | .evex _ => s.params.faultSuppression

/-- The linear address of a memory operand of `i` (rules R40, R72 to R77). -/
def addrOf (i : Instr) (s : State) (m : MemOp) : Word :=
  s.memAddr (adr67Of i) (overrideOf i) i.len (dispScaleOf i) m

/-- The reads that must be admitted are (rules R48, R175, R177): all `nbytes` bytes, or with fault suppression those of
each element that is written. -/
def readAdmitted (i : Instr) (s : State) (m : MemOp) : Bool :=
  if suppresses i s then
    (List.range (klOf i)).all fun j =>
      !elementWritten i s j ||
        s.admits (addrOf i s m + BitVec.ofNat 64 (j * (srcWidth (convOf i) / 8))) (srcWidth (convOf i) / 8)
          (segOf (overrideOf i) m)
  else s.admits (addrOf i s m) (nbytesOf i) (segOf (overrideOf i) m)

/-- Some byte is read: not when fault suppression exempts all of them (rule R177). -/
def readsSome (i : Instr) (s : State) : Bool :=
  !suppresses i s || (List.range (klOf i)).any (elementWritten i s)

/-- The memory operand, if any, raises no memory fault (rules R43, R175, R177): its read is admitted, and aligned when
`AlignCheck` holds. -/
def readableFor (i : Instr) (s : State) : Bool :=
  match srcOf i with
  | .reg _ => true
  | .mem m =>
    readAdmitted i s m && (!s.alignCheck || !readsSome i s || (addrOf i s m).toNat % nbytesOf i == 0)

/-! ## What a form leaves in its destination -/

/-- The size of the address space of a mode (rules R7, R24, R40). -/
def modulusOf : Mode → Nat
  | .long64 => 2 ^ 64
  | .prot32 => 2 ^ 32

/-- Byte `n` of a vector register, byte 0 the least significant. -/
def vecByte (v : Vec) (n : Nat) : Byte := v.extractLsb' (8 * n) 8

/-- Byte `n` of the source operand (rules R41, R101): of the register's low end, or of memory from its address up. -/
def srcByteOf (i : Instr) (s : State) (n : Nat) : Byte :=
  match srcOf i with
  | .reg r => vecByte (s.zmmRead r) n
  | .mem m => s.readByte (addrOf i s m) n

/-- Byte `n` of the zero-extended elements (rule R100): in destination element `n / (dw/8)`, byte `b = n % (dw/8)` is byte
`b` of the source element of the same number when there is one, else 0. -/
def widenedByte (i : Instr) (s : State) (n : Nat) : Byte :=
  let dBytes := dstWidth (convOf i) / 8
  let sBytes := srcWidth (convOf i) / 8
  if n % dBytes < sBytes then srcByteOf i s (n / dBytes * sBytes + n % dBytes) else 0#8

/-- Byte `n` of the destination register afterwards (rules R102 to R104): below the vector length the widened byte, or
for a masked-off element the old byte or zero; above it the old byte in the legacy class and zero in the others. -/
def resultByte (i : Instr) (s : State) (n : Nat) : Byte :=
  let old := vecByte (s.zmmRead (destOf i)) n
  match i.operands with
  | .legacy _ => if n < vlOf i / 8 then widenedByte i s n else old
  | .vex _ => if n < vlOf i / 8 then widenedByte i s n else 0#8
  | .evex o =>
    if n < vlOf i / 8 then
      if elementWritten i s (n / (dstWidth (convOf i) / 8)) then widenedByte i s n else if o.z then 0#8 else old
    else 0#8

/-- `t` is `s` but for one vector register and the program counter, with the model's mark that it has wrapped (rules R30, R45,
R107; log entry 10). -/
structure OnlyWrites (d : BitVec 5) (s t : State) : Prop where
  /-- Nothing but the vector registers, the program counter and whether it has wrapped differs: general, opmask, status, control and mode
  registers, segment bases, memory and parameters are as before. -/
  rest : t = { s with zmm := t.zmm, rip := t.rip, wrapped := t.wrapped }
  /-- Of the vector registers only `d` differs. -/
  others : ∀ r : BitVec 5, r ≠ d → t.zmm.get r.toFin = s.zmm.get r.toFin
  /-- Every byte of memory reads as before. -/
  memory : ∀ a : Word, t.mem.read a = s.mem.read a

/-- What a completed form leaves (rules R24, R30, R100 to R106). -/
structure Completed (i : Instr) (s t : State) : Prop where
  /-- Every byte of the destination register. -/
  dest : ∀ n : Nat, vecByte (t.zmmRead (destOf i)) n = resultByte i s n
  /-- The address of the next instruction: modulo 2^64 in `Long64`, modulo 2^32 in `Prot32`. -/
  next : t.rip.toNat = (s.rip.toNat + i.len) % modulusOf s.params.mode
  /-- Whether the program counter has passed the top of its range since the launch. -/
  wrap : t.wrapped = (s.wrapped || decide (modulusOf s.params.mode ≤ s.rip.toNat + i.len))
  /-- Everything else. -/
  frame : OnlyWrites (destOf i) s t

/-- A form completes, and leaves what the rules say, in every state that enables it, with CR0.TS = 0 and its source
readable. -/
def CompletesAsStated (i : Instr) (s : State) : Prop :=
  enabledFor i s = true → s.crTs = false → readableFor i s = true → ∃ t, exec i s = .next t ∧ Completed i s t

/-- Two forms have the same effect in a state that enables both: where the source can be read both complete, with states
that are equal but for the program counter and its mark, and each raises every fault that the other raises (rule R84). -/
def SameEffect (i j : Instr) (s : State) : Prop :=
  enabledFor i s = true → enabledFor j s = true →
    (s.crTs = false → readableFor i s = true →
      ∃ t u, exec i s = .next t ∧ exec j s = .next u ∧ u = { t with rip := u.rip, wrapped := u.wrapped }) ∧
    ∀ f : Fault, exec i s = .fault f ↔ exec j s = .fault f

/-- A memory operand whose address depends neither on the instruction's length nor on the displacement scale: not relative
to the next instruction and without a one-byte displacement (rules R75, R76). -/
def addressIsPlain : MemOp → Bool
  | .base _ .none => true
  | .base _ (.d8 _) => false
  | .base _ (.d32 _) => true
  | .rip _ => false
  | .sib _ _ _ .none => true
  | .sib _ _ _ (.d8 _) => false
  | .sib _ _ _ (.d32 _) => true
  | .sibNoBase _ _ _ => true

/-- The EVEX vector length with the width of a VEX one. -/
def evexLenOf (l : Bool) : EvexLen := if l then .l256 else .l128

/-! ## Bytes of the encoding -/

/-- The byte is a legacy prefix of rule R85 (1): 66, 67, a segment override, F0, F2 or F3. -/
def isLegacyPrefix (b : Byte) : Prop :=
  b ∈ [0x66#8, 0x67#8, 0x26#8, 0x2E#8, 0x36#8, 0x3E#8, 0x64#8, 0x65#8, 0xF0#8, 0xF2#8, 0xF3#8]

/-- The prefixes rule R62 admits before a VEX or EVEX prefix: at most one 67 and at most one segment override, in
either order. -/
def admittedPrefixes (pre : List Byte) : Prop :=
  ∃ (a : Bool) (g : Option Seg), pre = prefixBytes a g ∨ pre = (prefixBytes a g).reverse

/-- An optional REX byte, in `Long64` only (rules R61, R63). -/
def optionalRex (m : Mode) (rex : List Byte) : Prop :=
  rex = [] ∨ (m = .long64 ∧ ∃ r : Byte, r.extractLsb' 4 4 = 4#4 ∧ rex = [r])

/-- The bytes C4 `V1` `V2` `op` are of a VEX form but for `vvvv` and the prefixes: the map and `pp` are right, `op` is 30 to
35, and in `Prot32` bits 7:6 of `V1` are 11b (rules R61, R64). -/
def vexIdentified (m : Mode) (v1 v2 op : Byte) : Prop :=
  (m = .prot32 → v1.extractLsb' 6 2 = 3#2) ∧ v1.extractLsb' 0 5 = 2#5 ∧ v2.extractLsb' 0 2 = 1#2 ∧
    0x30#8 ≤ op ∧ op ≤ 0x35#8

/-- The bytes 62 `P0` `P1` `P2` `op` are of an EVEX form but for the bits that must have a fixed value and the prefixes
(rules R61, R66). -/
def evexIdentified (m : Mode) (p0 p1 op : Byte) : Prop :=
  (m = .prot32 → p0.extractLsb' 6 2 = 3#2) ∧ p0.extractLsb' 0 2 = 2#2 ∧ p1.extractLsb' 0 2 = 1#2 ∧
    0x30#8 ≤ op ∧ op ≤ 0x35#8

/-- The reserved bits of an EVEX prefix that rule R80 (b) to (g) names, one of them wrong: `Vpbar` = 0 in `Long64` (in `Prot32`
rule R82 refuses it, log entry 17); `b` = 1; `z` = 1 with `aaa` = 000b; `LL` = 11b; `P0` bits 3:2 not 00b, or `P1` bit 2
= 0; W = 1 on opcode 35. -/
def evexReservedWrong (m : Mode) (p0 p1 p2 op : Byte) : Prop :=
  (m = .long64 ∧ p2.getLsbD 3 = false) ∨ p2.getLsbD 4 = true ∨ (p2.getLsbD 7 = true ∧ p2.extractLsb' 0 3 = 0#3) ∨
    p2.extractLsb' 5 2 = 3#2 ∨ p0.extractLsb' 2 2 ≠ 0#2 ∨ p1.getLsbD 2 = false ∨ (op = 0x35#8 ∧ p1.getLsbD 7 = true)

/-- A byte string as one number, first byte most significant (rule R86). -/
def bigEndian (bs : List Byte) : Nat := bs.foldl (fun n b => n * 256 + b.toNat) 0

/-- The window of a form's encoding that its table row compares (rule R86): 66 0F 38 `op` with the other prefixes and REX
set aside, C4 `V1` `V2` `op`, or 62 `P0` `P1` `P2` `op`. -/
def windowBytes (i : Instr) : List Byte :=
  match i.operands with
  | .legacy o =>
    ((encode i).drop (prefixLen o.adr67 o.seg)).take 1 ++
      ((encode i).drop (prefixLen o.adr67 o.seg + 1 + o.rex.toNat)).take 3
  | .vex o => ((encode i).drop (prefixLen o.adr67 o.seg)).take 4
  | .evex o => ((encode i).drop (prefixLen o.adr67 o.seg)).take 5

/-! ## Addresses as numbers -/

/-- The signed value of a displacement, a one-byte one counting in units of `n` bytes (rule R75). -/
def signedDisp (n : Nat) : Disp → Int
  | .none => 0
  | .d8 b => b.toInt * n
  | .d32 w => w.toInt

/-- The value of an index part (rules R71, R72): a register's number times its scale, the register read by `read`. -/
def indexValue (read : BitVec 4 → Nat) (ss : BitVec 2) : Option (BitVec 4) → Int
  | none => 0
  | some i => (read i * 2 ^ ss.toNat : Nat)

/-! ## The invariant of a state -/

/-- What every launch has and every step keeps (rules R5, R6, R20, R24): memory in canonical form, no vector register
with a bit above `MAXVL`, the vector registers that do not exist at zero, and in `Prot32` a program counter of 32 bits.
The third clause is the model's way to hold `NVEC` registers in 32 places. -/
structure State.Inv (s : State) : Prop where
  memory : s.mem.wf = true
  width  : ∀ r : BitVec 5, lowBits s.maxvl (s.zmm.get r.toFin) = s.zmm.get r.toFin
  absent : ∀ r : BitVec 5, s.nvec ≤ r.toNat → s.zmm.get r.toFin = 0#512
  rip32  : s.params.mode = .prot32 → s.rip.toNat < 2 ^ 32

end Sys2Proof.Machine
end

