-- ==== Sys2Proof/Certificates/Slice0/Obligations.lean ====
section
/-! DEFINITION. The statements for the provers: what the numbered rules of spec/ say the decoder, the 36 forms and the machine
do. The terms they use are those of Sys2Proof/Safety.lean and of the machine. -/

open Sys2Proof Sys2Proof.Machine

/-! ## Encoding -/

/-- Decoding the encoding of any well-formed instruction gives it back with every operand, whatever bytes follow
(spec/30_encoding.md rules R60 to R75). -/
def Obligations.DecodeOfEncodeGivesInstruction : Prop :=
  ∀ (m : Mode) (i : Instr) (rest : List Byte), i.wf m = true → decode m (encode i ++ rest) = .instr i

/-- The decoder yields well-formed instructions only (rules R62 to R75, R80, R82). -/
def Obligations.DecodedInstructionIsWellFormed : Prop :=
  ∀ (m : Mode) (bs : List Byte) (i : Instr), decode m bs = .instr i → i.wf m = true

/-- An instruction takes exactly its length: the bytes are there, and nothing after them matters (rule R78). -/
def Obligations.DecodeReadsExactlyItsLength : Prop :=
  ∀ (m : Mode) (bs : List Byte) (i : Instr), decode m bs = .instr i →
    i.len ≤ bs.length ∧ ∀ rest : List Byte, decode m (bs.take i.len ++ rest) = .instr i

/-- Lengths (rules R60, R78): the encoding has the length of rule R78; every length is 5 to 13, an EVEX one at least 6, and
5, 6 and 13 occur. -/
def Obligations.EncodedBytesHaveTheirLength : Prop :=
  (∀ i : Instr, (encode i).length = i.len ∧ 5 ≤ i.len ∧ i.len ≤ 13) ∧
  (∀ (l : EvexLen) (c : Conv) (o : EvexOps), 6 ≤ (evexForm l c o).len) ∧
  (∃ i : Instr, i.wf .long64 = true ∧ i.len = 5) ∧
  (∃ (l : EvexLen) (c : Conv) (o : EvexOps), (evexForm l c o).wf .long64 = true ∧ (evexForm l c o).len = 6) ∧
  (∃ i : Instr, i.wf .long64 = true ∧ i.len = 13)

/-- The bytes of a form that its opcode-table row compares match that row, and no other form's row (rule R86). -/
def Obligations.EncodedFormMatchesItsTableRow : Prop :=
  (∀ i : Instr, bigEndian (windowBytes i) &&& (windowOf i).2 = (windowOf i).1) ∧
  (∀ i j : Instr, (windowBytes i).length = (windowBytes j).length →
    bigEndian (windowBytes i) &&& (windowOf j).2 = (windowOf j).1 → windowOf i = windowOf j)

/-- Words written out in the spec decode to the forms they stand for (rules R75, R110, R120, R126, R140, R142, R157). -/
def Obligations.SpecWordsDecodeToTheirForms : Prop :=
  decode .long64 [0x66#8, 0x0F#8, 0x38#8, 0x30#8, 0xCA#8] = .instr (.pmovzxbw ⟨false, none, false, 1#4, .reg 2#4⟩) ∧
  decode .long64 [0x66#8, 0x0F#8, 0x38#8, 0x30#8, 0x08#8] =
    .instr (.pmovzxbw ⟨false, none, false, 1#4, .mem (.base 0#4 .none)⟩) ∧
  decode .prot32 [0xC4#8, 0xE2#8, 0x79#8, 0x30#8, 0xCA#8] = .instr (.vpmovzxbwVex128 ⟨false, none, 1#4, .reg 2#4⟩) ∧
  decode .long64 [0xC4#8, 0xE2#8, 0x7D#8, 0x30#8, 0xCA#8] = .instr (.vpmovzxbwVex256 ⟨false, none, 1#4, .reg 2#4⟩) ∧
  decode .long64 [0x62#8, 0xF2#8, 0x7D#8, 0x89#8, 0x30#8, 0xCA#8] =
    .instr (.vpmovzxbwEvex128 ⟨false, none, 1#5, .reg 2#5, 1#3, true⟩) ∧
  decode .long64 [0x62#8, 0xF2#8, 0x7D#8, 0x4F#8, 0x30#8, 0x48#8, 0x01#8] =
    .instr (.vpmovzxbwEvex512 ⟨false, none, 1#5, .mem (.base 0#4 (.d8 1#8)), 7#3, false⟩)

/-- A VEX or EVEX form whose `vvvv` is not 1111b raises #UD, whatever the source, the mask and the other fields
(rule R171). -/
def Obligations.ReservedVvvvRaisesInvalidOpcode : Prop :=
  (∀ (s : State) (pre rest : List Byte) (v1 v2 op : Byte), admittedPrefixes pre →
    vexIdentified s.params.mode v1 v2 op → v2.extractLsb' 3 4 ≠ 15#4 →
    s.fetchBytes = pre ++ [0xC4#8, v1, v2, op] ++ rest → step s = .fault .ud) ∧
  (∀ (s : State) (pre rest : List Byte) (p0 p1 p2 op : Byte), admittedPrefixes pre →
    evexIdentified s.params.mode p0 p1 op → p1.extractLsb' 3 4 ≠ 15#4 →
    s.fetchBytes = pre ++ [0x62#8, p0, p1, p2, op] ++ rest → step s = .fault .ud)

/-- Every other reserved bit of an EVEX prefix raises #UD when it is wrong (rules R80 (b) to (g), R172). `Vpbar` = 0 does so in
`Long64`; that in `Prot32` it is refused, as rule R82 and decision D18 say, and not #UD is the model's choice: log entry
17. -/
def Obligations.EvexReservedBitsRaiseInvalidOpcode : Prop :=
  ∀ (s : State) (pre rest : List Byte) (p0 p1 p2 op : Byte), admittedPrefixes pre →
    evexIdentified s.params.mode p0 p1 op → evexReservedWrong s.params.mode p0 p1 p2 op →
    s.fetchBytes = pre ++ [0x62#8, p0, p1, p2, op] ++ rest → step s = .fault .ud

/-- Illegal prefixes (rule R81): a legacy form with LOCK, F2 or F3 raises #UD, a VEX or EVEX form after 66, F2, F3, LOCK or REX
raises #UD, and `0F 38 op` with none of 66, F2, F3 is refused. -/
def Obligations.IllegalPrefixesRaiseInvalidOpcode : Prop :=
  (∀ (s : State) (pre rex rest : List Byte) (op : Byte), (∀ b ∈ pre, isLegacyPrefix b) → optionalRex s.params.mode rex →
    0x30#8 ≤ op → op ≤ 0x35#8 → s.fetchBytes = pre ++ rex ++ [0x0F#8, 0x38#8, op] ++ rest →
    if 0x66#8 ∈ pre ∨ 0xF2#8 ∈ pre ∨ 0xF3#8 ∈ pre then
      (0xF0#8 ∈ pre ∨ 0xF2#8 ∈ pre ∨ 0xF3#8 ∈ pre → step s = .fault .ud)
    else step s = .refused (.undecoded .no66)) ∧
  (∀ (s : State) (pre rex rest : List Byte) (v1 v2 op : Byte), (∀ b ∈ pre, isLegacyPrefix b) →
    optionalRex s.params.mode rex → vexIdentified s.params.mode v1 v2 op →
    (0x66#8 ∈ pre ∨ 0xF2#8 ∈ pre ∨ 0xF3#8 ∈ pre ∨ 0xF0#8 ∈ pre ∨ rex ≠ []) →
    s.fetchBytes = pre ++ rex ++ [0xC4#8, v1, v2, op] ++ rest → step s = .fault .ud) ∧
  (∀ (s : State) (pre rex rest : List Byte) (p0 p1 p2 op : Byte), (∀ b ∈ pre, isLegacyPrefix b) →
    optionalRex s.params.mode rex → evexIdentified s.params.mode p0 p1 op →
    (0x66#8 ∈ pre ∨ 0xF2#8 ∈ pre ∨ 0xF3#8 ∈ pre ∨ 0xF0#8 ∈ pre ∨ rex ≠ []) →
    s.fetchBytes = pre ++ rex ++ [0x62#8, p0, p1, p2, op] ++ rest → step s = .fault .ud)

/-- Prefix arrangements outside rule R62 are refused: a repeated prefix, two segment overrides, and a REX byte with a byte
after it that begins no class (rules R61, R62). -/
def Obligations.UnlistedPrefixArrangementsRefused : Prop :=
  (∀ (s : State) (pre rex rest : List Byte) (op : Byte), (∀ b ∈ pre, isLegacyPrefix b) →
    0xF0#8 ∉ pre → 0xF2#8 ∉ pre → 0xF3#8 ∉ pre → 0x66#8 ∈ pre → optionalRex s.params.mode rex →
    (1 < pre.count 0x66#8 ∨ 1 < pre.count 0x67#8 ∨ 1 < (pre.filter fun b => (segOfPrefix b).isSome).length) →
    0x30#8 ≤ op → op ≤ 0x35#8 → s.fetchBytes = pre ++ rex ++ [0x0F#8, 0x38#8, op] ++ rest →
    step s = .refused (.undecoded .prefixes)) ∧
  (∀ (s : State) (pre rest : List Byte) (v1 v2 op : Byte), (∀ b ∈ pre, isLegacyPrefix b) →
    0xF0#8 ∉ pre → 0xF2#8 ∉ pre → 0xF3#8 ∉ pre → 0x66#8 ∉ pre →
    (1 < pre.count 0x67#8 ∨ 1 < (pre.filter fun b => (segOfPrefix b).isSome).length) →
    vexIdentified s.params.mode v1 v2 op → s.fetchBytes = pre ++ [0xC4#8, v1, v2, op] ++ rest →
    step s = .refused (.undecoded .prefixes)) ∧
  (∀ (s : State) (pre rest : List Byte) (p0 p1 p2 op : Byte), (∀ b ∈ pre, isLegacyPrefix b) →
    0xF0#8 ∉ pre → 0xF2#8 ∉ pre → 0xF3#8 ∉ pre → 0x66#8 ∉ pre →
    (1 < pre.count 0x67#8 ∨ 1 < (pre.filter fun b => (segOfPrefix b).isSome).length) →
    evexIdentified s.params.mode p0 p1 op → s.fetchBytes = pre ++ [0x62#8, p0, p1, p2, op] ++ rest →
    step s = .refused (.undecoded .prefixes)) ∧
  (∀ (s : State) (pre rest : List Byte) (r b : Byte), (∀ b ∈ pre, isLegacyPrefix b) → s.params.mode = .long64 →
    r.extractLsb' 4 4 = 4#4 → b ≠ 0x0F#8 → b ≠ 0xC4#8 → b ≠ 0x62#8 → s.fetchBytes = pre ++ [r, b] ++ rest →
    step s = .refused (.undecoded .opcode))

/-- In `Prot32` (rules R61, R63, R74, R82): C4 and 62 begin no prefix unless bits 7:6 of the next byte are 11b; `Bbar`,
`Rpbar` or `Vpbar` = 0 is refused; the prefix 67 is refused; and a byte 40 to 4F is no REX prefix and is refused. That
rule R82 decides for `Vpbar`, and not rule R80 (b), is the model's choice: log entry 17. -/
def Obligations.ProtectedModeEncodingsRefused : Prop :=
  (∀ (s : State) (pre rest : List Byte) (n x y z : Byte), s.params.mode = .prot32 → (∀ b ∈ pre, isLegacyPrefix b) →
    n.extractLsb' 6 2 ≠ 3#2 →
    (s.fetchBytes = pre ++ [0xC4#8, n, x, y] ++ rest ∨ s.fetchBytes = pre ++ [0x62#8, n, x, y, z] ++ rest) →
    step s = .refused (.undecoded .opcode)) ∧
  (∀ (s : State) (pre rest : List Byte) (v1 v2 op : Byte), s.params.mode = .prot32 → admittedPrefixes pre →
    vexIdentified .prot32 v1 v2 op → v2.extractLsb' 3 4 = 15#4 →
    s.fetchBytes = pre ++ [0xC4#8, v1, v2, op] ++ rest →
    if v1.getLsbD 5 = false then step s = .refused (.undecoded .extensionBit)
    else 0x67#8 ∈ pre → step s = .refused (.undecoded .addr16)) ∧
  (∀ (s : State) (pre rest : List Byte) (p0 p1 p2 op : Byte), s.params.mode = .prot32 → admittedPrefixes pre →
    evexIdentified .prot32 p0 p1 op → p1.extractLsb' 3 4 = 15#4 → ¬ evexReservedWrong .prot32 p0 p1 p2 op →
    s.fetchBytes = pre ++ [0x62#8, p0, p1, p2, op] ++ rest →
    if p0.getLsbD 5 = false ∨ p0.getLsbD 4 = false ∨ p2.getLsbD 3 = false then step s = .refused (.undecoded .extensionBit)
    else 0x67#8 ∈ pre → step s = .refused (.undecoded .addr16)) ∧
  (∀ (s : State) (pre rest : List Byte) (op : Byte), s.params.mode = .prot32 → (∀ b ∈ pre, isLegacyPrefix b) →
    pre.count 0x66#8 = 1 → pre.count 0x67#8 = 1 → 0xF0#8 ∉ pre → 0xF2#8 ∉ pre → 0xF3#8 ∉ pre →
    (pre.filter fun b => (segOfPrefix b).isSome).length ≤ 1 → 0x30#8 ≤ op → op ≤ 0x35#8 →
    s.fetchBytes = pre ++ [0x0F#8, 0x38#8, op] ++ rest → step s = .refused (.undecoded .addr16)) ∧
  (∀ (s : State) (pre rest : List Byte) (r : Byte), s.params.mode = .prot32 → (∀ b ∈ pre, isLegacyPrefix b) →
    r.extractLsb' 4 4 = 4#4 → s.fetchBytes = pre ++ [r] ++ rest → step s = .refused (.undecoded .opcode))

/-- Bytes of none of the 36 forms are refused as another opcode, whatever the prefixes (rules R9, R61, R64, R66, R85 (2), (3)): a
byte that begins no class, which C5 is too; after 0F a byte other than 38, or after 0F 38 an opcode outside 30 to 35; a
VEX or EVEX prefix with a wrong map or `pp`, an opcode outside 30 to 35, or in `Prot32` bits 7:6 not 11b. -/
def Obligations.BytesOfNoFormAreRefused : Prop :=
  (∀ (s : State) (pre rex rest : List Byte) (b : Byte), (∀ b ∈ pre, isLegacyPrefix b) → optionalRex s.params.mode rex →
    (rex ≠ [] ∨ (¬ isLegacyPrefix b ∧ (s.params.mode = .long64 → b.extractLsb' 4 4 ≠ 4#4))) →
    b ≠ 0x0F#8 → b ≠ 0xC4#8 → b ≠ 0x62#8 → s.fetchBytes = pre ++ rex ++ [b] ++ rest →
    step s = .refused (.undecoded .opcode)) ∧
  (∀ (s : State) (pre rex rest : List Byte) (e op : Byte), (∀ b ∈ pre, isLegacyPrefix b) →
    optionalRex s.params.mode rex → e ≠ 0x38#8 ∨ ¬ (0x30#8 ≤ op ∧ op ≤ 0x35#8) →
    s.fetchBytes = pre ++ rex ++ [0x0F#8, e, op] ++ rest → step s = .refused (.undecoded .opcode)) ∧
  (∀ (s : State) (pre rex rest : List Byte) (v1 v2 op : Byte), (∀ b ∈ pre, isLegacyPrefix b) →
    optionalRex s.params.mode rex → ¬ vexIdentified s.params.mode v1 v2 op →
    s.fetchBytes = pre ++ rex ++ [0xC4#8, v1, v2, op] ++ rest → step s = .refused (.undecoded .opcode)) ∧
  (∀ (s : State) (pre rex rest : List Byte) (p0 p1 p2 op : Byte), (∀ b ∈ pre, isLegacyPrefix b) →
    optionalRex s.params.mode rex → ¬ evexIdentified s.params.mode p0 p1 op →
    s.fetchBytes = pre ++ rex ++ [0x62#8, p0, p1, p2, op] ++ rest → step s = .refused (.undecoded .opcode))

/-- The W bit (rule R68): ignored in every VEX row and in the EVEX rows of opcodes 30 to 34, and #UD when 1 on the EVEX rows of
opcode 35. -/
def Obligations.WBitIsIgnoredSaveOnEvexOpcode35 : Prop :=
  (∀ (m : Mode) (pre rest : List Byte) (v1 v2 op : Byte), (∀ b ∈ pre, isLegacyPrefix b) →
    decode m (pre ++ [0xC4#8, v1, v2 ^^^ 0x80#8, op] ++ rest) = decode m (pre ++ [0xC4#8, v1, v2, op] ++ rest)) ∧
  (∀ (m : Mode) (pre rest : List Byte) (p0 p1 p2 op : Byte), (∀ b ∈ pre, isLegacyPrefix b) → op ≠ 0x35#8 →
    decode m (pre ++ [0x62#8, p0, p1 ^^^ 0x80#8, p2, op] ++ rest) = decode m (pre ++ [0x62#8, p0, p1, p2, op] ++ rest)) ∧
  (∀ (s : State) (pre rest : List Byte) (p0 p1 p2 : Byte), admittedPrefixes pre →
    evexIdentified s.params.mode p0 p1 0x35#8 → p1.getLsbD 7 = true →
    s.fetchBytes = pre ++ [0x62#8, p0, p1, p2, 0x35#8] ++ rest → step s = .fault .ud)

/-- Ignored fields (rules R63, R70, R80, last paragraph): REX.W; X without a SIB byte in the legacy and VEX classes, and with a
memory source without a SIB byte in the EVEX class. -/
def Obligations.IgnoredBitsDecodeAlike : Prop :=
  (∀ (pre rest : List Byte) (r op : Byte), (∀ b ∈ pre, isLegacyPrefix b) → r.extractLsb' 4 4 = 4#4 →
    decode .long64 (pre ++ [r ^^^ 0x08#8, 0x0F#8, 0x38#8, op] ++ rest) =
      decode .long64 (pre ++ [r, 0x0F#8, 0x38#8, op] ++ rest)) ∧
  (∀ (pre rest : List Byte) (r op modrm : Byte), (∀ b ∈ pre, isLegacyPrefix b) → r.extractLsb' 4 4 = 4#4 →
    (modrm.extractLsb' 6 2 = 3#2 ∨ modrm.extractLsb' 0 3 ≠ 4#3) →
    decode .long64 (pre ++ [r ^^^ 0x02#8, 0x0F#8, 0x38#8, op, modrm] ++ rest) =
      decode .long64 (pre ++ [r, 0x0F#8, 0x38#8, op, modrm] ++ rest)) ∧
  (∀ (pre rest : List Byte) (v1 v2 op modrm : Byte), (∀ b ∈ pre, isLegacyPrefix b) →
    (modrm.extractLsb' 6 2 = 3#2 ∨ modrm.extractLsb' 0 3 ≠ 4#3) →
    decode .long64 (pre ++ [0xC4#8, v1 ^^^ 0x40#8, v2, op, modrm] ++ rest) =
      decode .long64 (pre ++ [0xC4#8, v1, v2, op, modrm] ++ rest)) ∧
  (∀ (pre rest : List Byte) (p0 p1 p2 op modrm : Byte), (∀ b ∈ pre, isLegacyPrefix b) →
    modrm.extractLsb' 6 2 ≠ 3#2 → modrm.extractLsb' 0 3 ≠ 4#3 →
    decode .long64 (pre ++ [0x62#8, p0 ^^^ 0x40#8, p1, p2, op, modrm] ++ rest) =
      decode .long64 (pre ++ [0x62#8, p0, p1, p2, op, modrm] ++ rest))

/-! ## The step, reset and the invariant -/

/-- The step runs the instruction that the program bytes at the program counter decode to, and does nothing else around
it (rule R109). Those bytes are memory's, from the code segment's base plus `rip` upward, as many as
can be fetched (rules R40, R204; log entry 10). -/
def Obligations.StepRunsTheDecodedInstruction : Prop :=
  (∀ (s : State) (i : Instr), decode s.params.mode s.fetchBytes = .instr i → step s = exec i s) ∧
  (∀ (s : State) (n : Nat), n < s.progRemaining →
    s.fetchBytes[n]? = some (s.mem.read (s.byteAddr (s.linear .cs s.rip) n))) ∧
  (∀ s : State, s.fetchBytes.length = s.progRemaining)

/-- No instruction runs that crosses the end of the program (rule R204), the top of the program counter's range, or the top of
the linear address space (rules R24, R40, decision D8); that the fetch goes through the code segment's base from a `rip`
counted from `progBase` is log entry 10. -/
def Obligations.NoInstructionCrossesTheEndOrTheTop : Prop :=
  ∀ (s t : State), step s = .next t → ∃ i, decode s.params.mode s.fetchBytes = .instr i ∧
    s.params.progBase.toNat ≤ s.rip.toNat ∧
    s.rip.toNat + i.len ≤ s.params.progBase.toNat + s.params.progLen ∧
    s.rip.toNat + i.len ≤ modulusOf s.params.mode ∧
    (s.linear .cs s.rip).toNat + i.len ≤ modulusOf s.params.mode

/-- Where there is no instruction to run the step stops: #UD on reserved encodings and illegal prefixes, a refusal by its
reason on other bytes, and a refusal at and outside the program's end (rules R9, R85, R204). That a program counter
that has wrapped is at no byte of the program, and at its end only when the program ends at the top, is log entry 10. -/
def Obligations.StepStopsWhereDecodingStops : Prop :=
  (∀ s : State, decode s.params.mode s.fetchBytes = .ud → step s = .fault .ud) ∧
  (∀ (s : State) (r : Reject), s.progRemaining ≠ 0 → decode s.params.mode s.fetchBytes = .reject r →
    step s = .refused (.undecoded r)) ∧
  (∀ s : State, s.progRemaining = 0 → step s = .refused (if s.atEnd then .endOfProgram else .outsideProgram))

/-- The state after reset. CR0, CR4, XCR0, RFLAGS, MXCSR, the vector, opmask and general registers and the privilege level are
the values rule R29 lists "for the reader's orientation only"; taking them as reset values, RDX = 0, the program counter
as the flat address of the reset vector, `Long64`, flat segment bases, and memory all `unlistedByte` are the model's
choices: log entries 1, 2 and 3. -/
def Obligations.ResetHoldsTheDocumentedValues : Prop :=
  (∀ r : BitVec 5, State.reset.zmm.get r.toFin = 0#512) ∧ (∀ a : BitVec 3, State.reset.k.get a.toFin = 0#64) ∧
  (∀ r : BitVec 4, State.reset.x.get r.toFin = 0#64) ∧ State.reset.rip = 0xFFFFFFF0#64 ∧
  State.reset.cr0 = 0x60000010#64 ∧ State.reset.cr4 = 0#64 ∧ State.reset.xcr0 = 1#64 ∧ State.reset.rflags = 2#64 ∧
  State.reset.mxcsr = 0x1F80#32 ∧ State.reset.cpl = 0#2 ∧ State.reset.params.mode = .long64 ∧
  (∀ sg : Seg, State.reset.segBaseOf sg = 0#64) ∧ (∀ a : Word, State.reset.mem.read a = unlistedByte) ∧
  State.reset.osSse = false ∧ State.reset.osAvx = false ∧ State.reset.osAvx512 = false

/-- Straight after reset every form raises #UD (rule R29, last sentence); the reset values are the model's choice, log
entry 1. -/
def Obligations.EveryFormRaisesInvalidOpcodeAfterReset : Prop :=
  ∀ i : Instr, exec i State.reset = .fault .ud

/-- The reset state has the invariant. It rests on the model's reset values, which rules R29 and R200 say no proof may rely on
(log entries 1, 2 and 3), and on the model's way to hold the vector registers (log entry 12). -/
def Obligations.ResetSatisfiesInvariant : Prop := State.reset.Inv

/-- Every step keeps the invariant: memory stays in canonical form, no vector register gets a bit above `MAXVL`, a register
that does not exist is never written, and in `Prot32` the program counter stays within 32 bits (rules R5, R6, R20,
R21, R24, R45). -/
def Obligations.StepKeepsInvariant : Prop :=
  ∀ s t : State, s.Inv → step s = .next t → t.Inv

/-- Which class can name which vector register (rule R21): legacy 0 to 15, 8 to 15 with a REX prefix only, VEX 0 to 15, EVEX 0
to 31, all of them 0 to 7 in `Prot32`; and a number that is no register's cannot arise in a form that is enabled. -/
def Obligations.DecodedFormsNameExistingRegisters : Prop :=
  (∀ (m : Mode) (bs : List Byte) (i : Instr) (n : BitVec 5), decode m bs = .instr i →
    (n = destOf i ∨ srcOf i = .reg n) →
    (m = .prot32 → n.toNat < 8) ∧
    match i.operands with
    | .legacy o => n.toNat < 16 ∧ (8 ≤ n.toNat → o.rex = true)
    | .vex _ => n.toNat < 16
    | .evex _ => n.toNat < 32) ∧
  (∀ (s : State) (i : Instr) (n : BitVec 5), decode s.params.mode s.fetchBytes = .instr i → enabledFor i s = true →
    (n = destOf i ∨ srcOf i = .reg n) → n.toNat < s.nvec)

/-! ## Completion, result and frame of every form -/

/-- The six legacy forms complete in every state that enables them and can read their source; the destination's low 128
bits are then the zero-extended elements, its bits above are as before (rule R102), and nothing but it and the program
counter differs. -/
def Obligations.LegacyFormsComplete : Prop :=
  ∀ (o : LegacyOps) (s : State),
    CompletesAsStated (.pmovzxbw o) s ∧ CompletesAsStated (.pmovzxbd o) s ∧ CompletesAsStated (.pmovzxbq o) s ∧
    CompletesAsStated (.pmovzxwd o) s ∧ CompletesAsStated (.pmovzxwq o) s ∧ CompletesAsStated (.pmovzxdq o) s

/-- The twelve VEX forms complete in every state that enables them and can read their source; the destination is then the
zero-extended elements with zeros above (rule R103), and nothing but it and the program counter differs. -/
def Obligations.VexFormsComplete : Prop :=
  ∀ (o : VexOps) (s : State),
    CompletesAsStated (.vpmovzxbwVex128 o) s ∧ CompletesAsStated (.vpmovzxbdVex128 o) s ∧
    CompletesAsStated (.vpmovzxbqVex128 o) s ∧ CompletesAsStated (.vpmovzxwdVex128 o) s ∧
    CompletesAsStated (.vpmovzxwqVex128 o) s ∧ CompletesAsStated (.vpmovzxdqVex128 o) s ∧
    CompletesAsStated (.vpmovzxbwVex256 o) s ∧ CompletesAsStated (.vpmovzxbdVex256 o) s ∧
    CompletesAsStated (.vpmovzxbqVex256 o) s ∧ CompletesAsStated (.vpmovzxwdVex256 o) s ∧
    CompletesAsStated (.vpmovzxwqVex256 o) s ∧ CompletesAsStated (.vpmovzxdqVex256 o) s

/-- The eighteen EVEX forms complete in every state that enables them and can read their source; the destination is then
written element by element under the writemask, merging or zeroing, with zeros above the vector length (rule R104), and
nothing but it and the program counter differs. -/
def Obligations.EvexFormsComplete : Prop :=
  ∀ (o : EvexOps) (s : State),
    CompletesAsStated (.vpmovzxbwEvex128 o) s ∧ CompletesAsStated (.vpmovzxbwEvex256 o) s ∧
    CompletesAsStated (.vpmovzxbwEvex512 o) s ∧ CompletesAsStated (.vpmovzxbdEvex128 o) s ∧
    CompletesAsStated (.vpmovzxbdEvex256 o) s ∧ CompletesAsStated (.vpmovzxbdEvex512 o) s ∧
    CompletesAsStated (.vpmovzxbqEvex128 o) s ∧ CompletesAsStated (.vpmovzxbqEvex256 o) s ∧
    CompletesAsStated (.vpmovzxbqEvex512 o) s ∧ CompletesAsStated (.vpmovzxwdEvex128 o) s ∧
    CompletesAsStated (.vpmovzxwdEvex256 o) s ∧ CompletesAsStated (.vpmovzxwdEvex512 o) s ∧
    CompletesAsStated (.vpmovzxwqEvex128 o) s ∧ CompletesAsStated (.vpmovzxwqEvex256 o) s ∧
    CompletesAsStated (.vpmovzxwqEvex512 o) s ∧ CompletesAsStated (.vpmovzxdqEvex128 o) s ∧
    CompletesAsStated (.vpmovzxdqEvex256 o) s ∧ CompletesAsStated (.vpmovzxdqEvex512 o) s

/-- A form completes exactly when it is enabled, CR0.TS = 0 and its source is readable, and no form is ever refused
(rules R9, R109, R176). -/
def Obligations.FormsCompleteExactlyWhenAllowed : Prop :=
  ∀ (i : Instr) (s : State),
    ((∃ t, exec i s = .next t) ↔ enabledFor i s = true ∧ s.crTs = false ∧ readableFor i s = true) ∧
    ∀ r : Refusal, exec i s ≠ .refused r

/-! ## Exceptions -/

/-- #UD from missing features or enabling, the whole table of rule R173, bit by bit: each form raises #UD exactly under its
row's condition. -/
def Obligations.FormsRaiseInvalidOpcodeUnlessEnabled : Prop :=
  ∀ (i : Instr) (s : State),
    exec i s = .fault .ud ↔
      match i.operands with
      | .legacy _ =>
        s.params.cpuid1Ecx.getLsbD 19 = false ∨ s.cr0.getLsbD 2 = true ∨ s.cr4.getLsbD 9 = false
      | .vex _ =>
        (if vlOf i = 128 then s.params.cpuid1Ecx.getLsbD 28 = false else s.params.cpuid7Ebx.getLsbD 5 = false) ∨
          s.cr4.getLsbD 18 = false ∨ s.xcr0.extractLsb' 1 2 ≠ 3#2
      | .evex _ =>
        (if convOf i = .bw then s.params.cpuid7Ebx.getLsbD 30 = false else s.params.cpuid7Ebx.getLsbD 16 = false) ∨
          (vlOf i ≠ 512 ∧ s.params.cpuid7Ebx.getLsbD 31 = false) ∨
          s.cr4.getLsbD 18 = false ∨ s.xcr0.extractLsb' 1 2 ≠ 3#2 ∨ s.xcr0.extractLsb' 5 3 ≠ 7#3

/-- #NM (rule R174): every form raises it when CR0.TS = 1 after the #UD checks pass, and only then. -/
def Obligations.TaskSwitchedRaisesDeviceNotAvailable : Prop :=
  ∀ (i : Instr) (s : State), exec i s = .fault .nm ↔ enabledFor i s = true ∧ s.cr0.getLsbD 3 = true

/-- Memory faults (rules R175, R176): an enabled form with CR0.TS = 0 whose memory source is not readable raises a memory
fault; a form with a register source raises none, so only #UD and #NM. -/
def Obligations.UnreadableSourceRaisesMemoryFault : Prop :=
  (∀ (i : Instr) (s : State), enabledFor i s = true → s.crTs = false → readableFor i s = false →
    ∃ f, f.isMemory = true ∧ exec i s = .fault f) ∧
  (∀ (i : Instr) (s : State) (r : BitVec 5) (f : Fault), srcOf i = .reg r → exec i s = .fault f → f = .ud ∨ f = .nm)

/-- The kinds of memory fault (rules R43, R175, R177, R178): #SS names an address SS does not reach, #GP one that another
segment does not reach, #PF a byte on no readable page with its error code, #AC a misaligned address under
`AlignCheck`; the byte at fault is one that the form must read. The error-code bits and "present" as membership of the page
list are the model's choice: log entry 11. -/
def Obligations.MemoryFaultKindsHaveTheirCause : Prop :=
  ∀ (i : Instr) (s : State) (f : Fault), exec i s = .fault f → f.isMemory = true →
    ∃ m, srcOf i = .mem m ∧ readableFor i s = false ∧
      let needed := fun k : Nat => k < nbytesOf i ∧
        (suppresses i s = true → elementWritten i s (k / (srcWidth (convOf i) / 8)) = true)
      match f with
      | .ud => False
      | .nm => False
      | .ss => segOf (overrideOf i) m = .ss ∧ ∃ k, needed k ∧ s.segReaches .ss (s.byteAddr (addrOf i s m) k) = false
      | .gp => segOf (overrideOf i) m ≠ .ss ∧
          ∃ k, needed k ∧ s.segReaches (segOf (overrideOf i) m) (s.byteAddr (addrOf i s m) k) = false
      | .pf code a => (∃ k, needed k ∧ a = s.byteAddr (addrOf i s m) k) ∧ s.pageReadable a = false ∧
          code.getLsbD 0 = s.pagePresent a ∧ code.getLsbD 1 = false ∧ code.getLsbD 2 = (s.cpl == 3#2) ∧
          code.getLsbD 4 = false
      | .ac => s.alignCheck = true ∧ (addrOf i s m).toNat % nbytesOf i ≠ 0

/-- Alignment (rule R43): without `AlignCheck` a form completes at any address whose bytes are admitted; with it, and some
byte to read, an address that is no multiple of the operand's size raises #AC. That CR0.AM is bit 18 is the model's, log
entry 6; that a form whose every byte is exempt raises no #AC is the model's reading of rule R177, log entry 8. -/
def Obligations.MisalignedReadRaisesAlignmentCheck : Prop :=
  (∀ (i : Instr) (s : State) (m : MemOp), srcOf i = .mem m → enabledFor i s = true → s.crTs = false →
    readAdmitted i s m = true → s.alignCheck = false → ∃ t, exec i s = .next t) ∧
  (∀ (i : Instr) (s : State) (m : MemOp), srcOf i = .mem m → enabledFor i s = true → s.crTs = false →
    readAdmitted i s m = true → s.cr0.getLsbD 18 = true → s.rflags.getLsbD 18 = true → s.cpl = 3#2 →
    readsSome i s = true → (addrOf i s m).toNat % nbytesOf i ≠ 0 → exec i s = .fault .ac)

/-- Fault suppression (rule R177). Without it every byte of the operand must be admitted whatever the mask; with it the bytes
of the written elements alone, and none when no element is written; the values written are the same in both settings;
legacy and VEX forms always read all bytes. -/
def Obligations.FaultSuppressionDecidesMaskedOffReads : Prop :=
  (∀ (i : Instr) (o : EvexOps) (s : State) (m : MemOp), i.operands = .evex o → srcOf i = .mem m →
    enabledFor i s = true → s.crTs = false → s.alignCheck = false →
    ((∃ t, exec i s = .next t) ↔
      if s.params.faultSuppression then
        ∀ j < klOf i, (o.aaa = 0#3 ∨ (s.kRead o.aaa).getLsbD j = true) →
          s.admits (addrOf i s m + BitVec.ofNat 64 (j * (srcWidth (convOf i) / 8))) (srcWidth (convOf i) / 8)
            (segOf (overrideOf i) m) = true
      else s.admits (addrOf i s m) (nbytesOf i) (segOf (overrideOf i) m) = true)) ∧
  (∀ (i : Instr) (s : State) (m : MemOp), (∀ o, i.operands ≠ .evex o) → srcOf i = .mem m →
    enabledFor i s = true → s.crTs = false → s.alignCheck = false →
    ((∃ t, exec i s = .next t) ↔ s.admits (addrOf i s m) (nbytesOf i) (segOf (overrideOf i) m) = true)) ∧
  (∀ (i : Instr) (o : EvexOps) (s : State), i.operands = .evex o → s.params.faultSuppression = true → o.aaa ≠ 0#3 →
    (∀ j < klOf i, (s.kRead o.aaa).getLsbD j = false) → enabledFor i s = true → s.crTs = false →
    ∃ t, exec i s = .next t) ∧
  (∀ (i : Instr) (s t u : State) (b : Bool), exec i s = .next t →
    exec i { s with params := { s.params with faultSuppression := b } } = .next u → u.zmm = t.zmm)

/-! ## Frames and what a form reads -/

/-- A step that completes ran one form, and changed its destination register and the program counter and nothing else
(rules R22, R23, R25, R26, R28, R30). -/
def Obligations.StepChangesOneVectorRegisterAndPc : Prop :=
  ∀ s t : State, step s = .next t → ∃ i, decode s.params.mode s.fetchBytes = .instr i ∧ OnlyWrites (destOf i) s t

/-- No form writes memory (rule R45): every byte reads after any number of steps as it did at launch. -/
def Obligations.NoFormWritesMemory : Prop :=
  (∀ (i : Instr) (s t : State) (a : Word), exec i s = .next t → t.mem.read a = s.mem.read a) ∧
  (∀ (n : Nat) (s t : State) (a : Word), Host.Core.run Sys2Proof.core n s = .next t → t.mem.read a = s.mem.read a)

/-- No form writes a flag or status bit, and none raises a numeric exception: every fault is one of the six of rule R178
(rule R107). -/
def Obligations.NoFormWritesFlagsOrRaisesNumericException : Prop :=
  (∀ (i : Instr) (s t : State), exec i s = .next t → t.rflags = s.rflags ∧ t.mxcsr = s.mxcsr) ∧
  (∀ (i : Instr) (s : State) (f : Fault), exec i s = .fault f → f = .ud ∨ f = .nm ∨ f.isMemory = true)

/-- A form with a register source reads nothing but its source, its old destination, its opmask and the configuration (rules
R26, R30, R42, R183): with other general registers, segment bases, flags, MXCSR, privilege level and memory it has the
same outcome. -/
def Obligations.RegisterFormsReadOnlyTheirOperands : Prop :=
  ∀ (i : Instr) (s : State) (r : BitVec 5) (x : Vector Word 16) (sb : SegBases) (fl : Word) (mx : BitVec 32)
    (pl : BitVec 2) (me : Memory), srcOf i = .reg r →
    (∀ t, exec i s = .next t → exec i { s with x := x, segBase := sb, rflags := fl, mxcsr := mx, cpl := pl, mem := me } =
      .next { t with x := x, segBase := sb, rflags := fl, mxcsr := mx, cpl := pl, mem := me }) ∧
    (∀ f, exec i s = .fault f →
      exec i { s with x := x, segBase := sb, rflags := fl, mxcsr := mx, cpl := pl, mem := me } = .fault f)

/-- Of a register source only the low `nbytes` bytes are read (rule R101): two values of it that agree there give the same
destination. -/
def Obligations.SourceBytesAboveOperandIgnored : Prop :=
  ∀ (i : Instr) (s t : State) (r : BitVec 5) (v : Vec), srcOf i = .reg r → r ≠ destOf i →
    (∀ n < nbytesOf i, vecByte v n = vecByte (s.zmm.get r.toFin) n) → exec i s = .next t →
    ∃ u, exec i { s with zmm := s.zmm.set r.toFin v } = .next u ∧
      u.zmm.get (destOf i).toFin = t.zmm.get (destOf i).toFin

/-- Of memory a form reads the `nbytes` bytes of its operand only (rules R42, R46): two memories that agree there give the
same registers, and the same faults. -/
def Obligations.MemoryOutsideOperandIgnored : Prop :=
  ∀ (i : Instr) (s : State) (m : MemOp) (me : Memory), srcOf i = .mem m →
    (∀ k < nbytesOf i, me.read (s.byteAddr (addrOf i s m) k) = s.mem.read (s.byteAddr (addrOf i s m) k)) →
    (∀ t, exec i s = .next t → exec i { s with mem := me } = .next { t with mem := me }) ∧
    (∀ f, exec i s = .fault f → exec i { s with mem := me } = .fault f)

/-- Of an opmask a form reads its low `KL` bits only (rules R22, R80): two opmask files that agree there give the same
outcome. -/
def Obligations.MaskBitsAboveElementsIgnored : Prop :=
  ∀ (i : Instr) (s : State) (k : Vector Word 8),
    (∀ (a : BitVec 3) (j : Nat), j < klOf i → (k.get a.toFin).getLsbD j = (s.k.get a.toFin).getLsbD j) →
    (∀ t, exec i s = .next t → exec i { s with k := k } = .next { t with k := k }) ∧
    (∀ f, exec i s = .fault f → exec i { s with k := k } = .fault f)

/-- Source and destination may be one register: the destination is then what a source register of another number with the same
value gives. Rule R105, which the spec marks as its own inference, "[derived: from rules R100, R101]". -/
def Obligations.SameRegisterAsSourceAndDestination : Prop :=
  (∀ (c : Conv) (o : LegacyOps) (s t : State) (r : BitVec 4), s.zmm.get (r.setWidth 5).toFin = s.zmm.get (o.d.setWidth 5).toFin →
    exec (legacyForm c { o with src := .reg r }) s = .next t →
    ∃ u, exec (legacyForm c { o with src := .reg o.d }) s = .next u ∧ u.zmm = t.zmm) ∧
  (∀ (l : Bool) (c : Conv) (o : VexOps) (s t : State) (r : BitVec 4),
    s.zmm.get (r.setWidth 5).toFin = s.zmm.get (o.d.setWidth 5).toFin →
    exec (vexForm l c { o with src := .reg r }) s = .next t →
    ∃ u, exec (vexForm l c { o with src := .reg o.d }) s = .next u ∧ u.zmm = t.zmm) ∧
  (∀ (l : EvexLen) (c : Conv) (o : EvexOps) (s t : State) (r : BitVec 5), s.zmm.get r.toFin = s.zmm.get o.d.toFin →
    exec (evexForm l c { o with src := .reg r }) s = .next t →
    ∃ u, exec (evexForm l c { o with src := .reg o.d }) s = .next u ∧ u.zmm = t.zmm)

/-- The VEX and EVEX encodings of one spelling (xmm or ymm destination, registers below 16, no mask) have the same effect
(rule R84), with any prefixes: from a register; from memory whenever the two operands name the same address through the
same segment, a scaled one-byte displacement or one relative to the next instruction among them; and from memory with
one and the same operand where its address is plain. -/
def Obligations.VexAndEvexEncodingsAgree : Prop :=
  ∀ (l : Bool) (c : Conv) (a : Bool) (g : Option Seg) (d : BitVec 4) (s : State),
    (∀ r : BitVec 4, SameEffect (vexForm l c ⟨a, g, d, .reg r⟩)
      (evexForm (evexLenOf l) c ⟨a, g, d.setWidth 5, .reg (r.setWidth 5), 0#3, false⟩) s) ∧
    (∀ mv me : MemOp,
      addrOf (vexForm l c ⟨a, g, d, .mem mv⟩) s mv =
        addrOf (evexForm (evexLenOf l) c ⟨a, g, d.setWidth 5, .mem me, 0#3, false⟩) s me →
      segOf g mv = segOf g me →
      SameEffect (vexForm l c ⟨a, g, d, .mem mv⟩)
        (evexForm (evexLenOf l) c ⟨a, g, d.setWidth 5, .mem me, 0#3, false⟩) s) ∧
    (∀ m : MemOp, addressIsPlain m = true →
      SameEffect (vexForm l c ⟨a, g, d, .mem m⟩)
        (evexForm (evexLenOf l) c ⟨a, g, d.setWidth 5, .mem m, 0#3, false⟩) s)

/-! ## Packed zero extension and memory reads -/

/-- `PZX` (rule R100): destination element `j` is source element `j` widened with zeros, and there is nothing above the last
element. -/
def Obligations.PackedZeroExtensionWidensEachElement : Prop :=
  ∀ (sw dw kl : Nat) (s : Vec), sw ∈ [8, 16, 32] → dw ∈ [16, 32, 64] → sw < dw → kl * dw ≤ 512 →
    (∀ j < kl, (pzx sw dw kl s).extractLsb' (j * dw) dw = (s.extractLsb' (j * sw) sw).setWidth dw ∧
      (pzx sw dw kl s).extractLsb' (j * dw) sw = s.extractLsb' (j * sw) sw ∧
      (pzx sw dw kl s).extractLsb' (j * dw + sw) (dw - sw) = 0#(dw - sw)) ∧
    (pzx sw dw kl s).toNat < 2 ^ (kl * dw)

/-- Zero extension is exact (rule R108): read as unsigned numbers, every destination element equals its source element. -/
def Obligations.ZeroExtensionKeepsUnsignedValue : Prop :=
  ∀ (sw dw kl : Nat) (s : Vec), sw ∈ [8, 16, 32] → dw ∈ [16, 32, 64] → sw < dw → kl * dw ≤ 512 → ∀ j < kl,
    ((pzx sw dw kl s).extractLsb' (j * dw) dw).toNat = (s.extractLsb' (j * sw) sw).toNat

/-- `MemRead` is little-endian, byte by byte and element by element (rule R41), and the bytes of a displacement are read in
the same order (rule R75). That byte addresses wrap modulo 2^64 or 2^32 is the model's reading of rule R7: log entry
9. -/
def Obligations.MemoryReadIsLittleEndian : Prop :=
  (∀ (s : State) (la : Word) (n : Nat), n ≤ 64 →
    (∀ i < n, (s.memRead la n).extractLsb' (8 * i) 8 = s.mem.read (s.byteAddr la i)) ∧
    (s.memRead la n).toNat < 2 ^ (8 * n)) ∧
  (∀ (s : State) (la : Word) (i : Nat), s.params.mode = .long64 →
    (s.byteAddr la i).toNat = (la.toNat + i) % 2 ^ 64) ∧
  (∀ (s : State) (la : Word) (i : Nat), s.params.mode = .prot32 →
    (s.byteAddr la i).toNat = (la.toNat + i) % 2 ^ 32) ∧
  (∀ (s : State) (la : Word) (sw n j : Nat), sw ∈ [8, 16, 32] → n ≤ 32 → (j + 1) * (sw / 8) ≤ n →
    elem sw j (s.memRead la n) =
      elem sw 0 (s.memRead (la + BitVec.ofNat 64 (j * (sw / 8))) (sw / 8))) ∧
  (∀ (w : BitVec 32) (rest : List Byte), takeD32 (bytes32 w ++ rest) = some w)

/-! ## Addresses -/

/-- The effective address with 64-bit addressing, as a number (rules R72, R75, R76): base, index times scale and displacement,
or the next instruction's address and displacement, modulo 2^64. -/
def Obligations.EffectiveAddressIn64BitMode : Prop :=
  ∀ (s : State) (len n : Nat) (m : MemOp), s.params.mode = .long64 →
    ((s.effAddr false len n m).toNat : Int) =
      (match m with
        | .base b d => ((s.x.get b.toFin).toNat : Int) + signedDisp n d
        | .rip d => (s.rip.toNat : Int) + len + d.toInt
        | .sib b i ss d =>
          ((s.x.get b.toFin).toNat : Int) + indexValue (fun r => (s.x.get r.toFin).toNat) ss i + signedDisp n d
        | .sibNoBase i ss d => indexValue (fun r => (s.x.get r.toFin).toNat) ss i + d.toInt) % 2 ^ 64

/-- The effective address with 32-bit addressing (rule R73): registers are read as their low 32 bits and the sum is taken
modulo 2^32; the form without base or index is relative to the next instruction in `Long64` and absolute in `Prot32`. -/
def Obligations.EffectiveAddressWith32Bits : Prop :=
  ∀ (s : State) (adr67 : Bool) (len n : Nat) (m : MemOp), adr67 = true ∨ s.params.mode = .prot32 →
    ((s.effAddr adr67 len n m).toNat : Int) =
      (match m with
        | .base b d => ((s.x.get b.toFin).toNat % 2 ^ 32 : Nat) + signedDisp n d
        | .rip d => (if s.params.mode = .long64 then (s.rip.toNat : Int) + len else 0) + d.toInt
        | .sib b i ss d => ((s.x.get b.toFin).toNat % 2 ^ 32 : Nat) +
            indexValue (fun r => (s.x.get r.toFin).toNat % 2 ^ 32) ss i + signedDisp n d
        | .sibNoBase i ss d => indexValue (fun r => (s.x.get r.toFin).toNat % 2 ^ 32) ss i + d.toInt) % 2 ^ 32

/-- The linear address is the segment's base plus the effective address, modulo the mode's width, and in `Long64` the choice
of segment moves it only for FS and GS (rules R25, R40, R77). -/
def Obligations.LinearAddressAddsTheSegmentBase : Prop :=
  (∀ (s : State) (sg : Seg) (ea : Word),
    (s.linear sg ea).toNat = ((s.segBaseOf sg).toNat + ea.toNat) % modulusOf s.params.mode) ∧
  (∀ (s : State) (a : Bool) (g : Option Seg) (len n : Nat) (m : MemOp), s.params.mode = .long64 →
    g ≠ some .fs → g ≠ some .gs → s.memAddr a g len n m = s.effAddr a len n m) ∧
  (∀ (s : State) (a : Bool) (len n : Nat) (m : MemOp), s.params.mode = .long64 →
    s.memAddr a (some .fs) len n m = s.segBase.fs + s.effAddr a len n m ∧
    s.memAddr a (some .gs) len n m = s.segBase.gs + s.effAddr a len n m)

/-- The default segment by the fields of ModRM and SIB (rule R77): SS with RSP or RBP as base register, else DS; an override
replaces it; and the linear address is taken through that segment. -/
def Obligations.DefaultSegmentIsStackForStackBases : Prop :=
  (∀ (x b : Bool) (md : BitVec 2) (rm : BitVec 3) (bs : List Byte) (m : MemOp), decodeMem x b md rm bs = some m →
    segOf none m =
      if (rm = 5#3 ∧ md ≠ 0#2 ∧ b = false) ∨ (rm = 4#3 ∧ (bs.headD 0#8).extractLsb' 0 3 = 4#3 ∧ b = false) ∨
        (rm = 4#3 ∧ (bs.headD 0#8).extractLsb' 0 3 = 5#3 ∧ b = false ∧ md ≠ 0#2) then .ss else .ds) ∧
  (∀ (g : Seg) (m : MemOp), segOf (some g) m = g) ∧
  (∀ (s : State) (a : Bool) (g : Option Seg) (len n : Nat) (m : MemOp), s.params.mode = .prot32 →
    (s.memAddr a g len n m).toNat = ((match segOf g m with
      | .es => s.segBase.es
      | .cs => s.segBase.cs
      | .ss => s.segBase.ss
      | .ds => s.segBase.ds
      | .fs => s.segBase.fs
      | .gs => s.segBase.gs).toNat + (s.effAddr a len n m).toNat) % 2 ^ 32)

/-- A one-byte displacement counts bytes in the legacy and VEX classes and units of the memory operand's size in the EVEX
class (rule R75): the form with the four-byte displacement of that many bytes leaves the same registers. -/
def Obligations.OneByteDisplacementIsScaled : Prop :=
  (∀ (c : Conv) (o : LegacyOps) (s t : State) (b : BitVec 4) (k : Byte),
    exec (legacyForm c { o with src := .mem (.base b (.d8 k)) }) s = .next t →
    ∃ u, exec (legacyForm c { o with src := .mem (.base b (.d32 (BitVec.ofInt 32 k.toInt))) }) s = .next u ∧
      u.zmm = t.zmm) ∧
  (∀ (l : Bool) (c : Conv) (o : VexOps) (s t : State) (b : BitVec 4) (k : Byte),
    exec (vexForm l c { o with src := .mem (.base b (.d8 k)) }) s = .next t →
    ∃ u, exec (vexForm l c { o with src := .mem (.base b (.d32 (BitVec.ofInt 32 k.toInt))) }) s = .next u ∧
      u.zmm = t.zmm) ∧
  (∀ (l : EvexLen) (c : Conv) (o : EvexOps) (s t : State) (b : BitVec 4) (k : Byte),
    exec (evexForm l c { o with src := .mem (.base b (.d8 k)) }) s = .next t →
    ∃ u, exec (evexForm l c
        { o with src := .mem (.base b (.d32 (BitVec.ofInt 32 (k.toInt * nbytesOf (evexForm l c o))))) }) s = .next u ∧
      u.zmm = t.zmm) ∧
  (∀ (l : EvexLen) (c : Conv) (o : EvexOps) (s t : State) (b : BitVec 4) (x : Option (BitVec 4)) (ss : BitVec 2) (k : Byte),
    exec (evexForm l c { o with src := .mem (.sib b x ss (.d8 k)) }) s = .next t →
    ∃ u, exec (evexForm l c
        { o with src := .mem (.sib b x ss (.d32 (BitVec.ofInt 32 (k.toInt * nbytesOf (evexForm l c o))))) }) s = .next u ∧
      u.zmm = t.zmm)

/-! ## Runs -/

/-- Control flow (rules R24, R106): a completed step moves the program counter past its instruction, modulo the mode's width,
and nowhere else; counted on past the top of its range it only grows (rule R204). -/
def Obligations.StepAdvancesByInstructionLength : Prop :=
  ∀ s t : State, step s = .next t → ∃ i, decode s.params.mode s.fetchBytes = .instr i ∧
    t.rip.toNat = (s.rip.toNat + i.len) % modulusOf s.params.mode ∧ t.pcCount = s.pcCount + i.len

/-- The end of a run (rule R204), of every program text, one that ends at the top of the space or fills it too: from a program
counter in the program, a run of `n` steps has moved at least `5n` bytes and not past the program's end, so `n ≤ L / 5`; and
the step is refused as the end of the program exactly at `base + L`. The program counter is counted on past the top of its
range. That a text that runs past the top may end outside itself is log entry 10. -/
def Obligations.RunEndsWithinLengthOverFive : Prop :=
  ∀ (n : Nat) (s t : State),
    s.params.progBase.toNat ≤ s.pcCount → s.pcCount ≤ s.params.progBase.toNat + s.params.progLen →
    Host.Core.run Sys2Proof.core n s = .next t →
    s.pcCount + 5 * n ≤ t.pcCount ∧ t.pcCount ≤ s.params.progBase.toNat + s.params.progLen ∧
      n ≤ s.params.progLen / 5 ∧
      (step t = .refused .endOfProgram ↔ t.pcCount = s.params.progBase.toNat + s.params.progLen) ∧
      (s.params.progBase.toNat + s.params.progLen ≤ modulusOf s.params.mode → step t ≠ .refused .outsideProgram)

/-- The model's own launch (rules R200, R201, R204; log entry 4 says it is the model's choice): the program's bytes are what the
machine then fetches, CR0.TS is 0 and each class is enabled by system software, and no register but CR0, CR4 and XCR0
differs. -/
def Obligations.LaunchedProgramIsFetched : Prop :=
  ∀ (s : State) (bs : List Byte), s.mem.wf = true → s.rip.toNat + bs.length ≤ modulusOf s.params.mode →
    (s.linear .cs s.rip).toNat + bs.length ≤ modulusOf s.params.mode →
    (s.launch bs).fetchBytes = bs ∧ (s.launch bs).crTs = false ∧ (s.launch bs).osSse = true ∧
      (s.launch bs).osAvx = true ∧ (s.launch bs).osAvx512 = true ∧ (s.launch bs).mem.wf = true ∧
      (s.launch bs).zmm = s.zmm ∧ (s.launch bs).k = s.k ∧ (s.launch bs).x = s.x ∧ (s.launch bs).rip = s.rip ∧
      (s.launch bs).wrapped = false
end

