-- ==== Sys2Proof/Laws/Decode.lean ====
section
/-! SUPPORT. The decoder's and encoder's small facts: the fields of packed bytes, prefix scanning, displacement bytes,
and lengths (rules R62 to R78). -/

namespace Sys2Proof

/-! ## Fields of a ModRM or SIB byte (rules R69, R71) -/

@[simp] theorem packByte_hi (a : BitVec 2) (b c : BitVec 3) : (packByte a b c).extractLsb' 6 2 = a := by
  revert a b c
  decide

@[simp] theorem packByte_mid (a : BitVec 2) (b c : BitVec 3) : (packByte a b c).extractLsb' 3 3 = b := by
  revert a b c
  decide

@[simp] theorem packByte_lo (a : BitVec 2) (b c : BitVec 3) : (packByte a b c).extractLsb' 0 3 = c := by
  revert a b c
  decide

/-- A byte is its three fields. -/
theorem packByte_fields (b : Byte) : packByte (b.extractLsb' 6 2) (b.extractLsb' 3 3) (b.extractLsb' 0 3) = b := by
  revert b
  decide

/-! ## Register numbers (rule R70) -/

@[simp] theorem low3_regNo (e : Bool) (f : BitVec 3) : low3 (regNo e f) = f := by
  revert e f
  decide

@[simp] theorem regNo_bit3 (e : Bool) (f : BitVec 3) : (regNo e f).getLsbD 3 = e := by
  revert e f
  decide

/-- A four-bit register number is its extension bit and its low three bits. -/
@[simp] theorem regNo_low3 (r : BitVec 4) : regNo (r.getLsbD 3) (low3 r) = r := by
  revert r
  decide

/-- A five-bit register number is its two extension bits and its low three bits. -/
@[simp] theorem wideNo_low3 (r : BitVec 5) : BitVec.ofBool (r.getLsbD 4) ++ regNo (r.getLsbD 3) (low3 r) = r := by
  revert r
  decide

/-- The index field of a SIB byte gives the index back, unless it is register 4 (rule R71). -/
theorem sibIndex_roundTrip (i : Option (BitVec 4)) (h : i ≠ some 4#4) :
    sibIndex ((i.getD 4#4).getLsbD 3) (low3 (i.getD 4#4)) = i := by
  revert i
  decide

/-! ## Displacements (rule R75) -/

/-- The four bytes of a displacement are read back, whatever follows. -/
theorem takeD32_bytes32 (w : BitVec 32) (rest : List Byte) : takeD32 (bytes32 w ++ rest) = some w := by
  simp only [bytes32, List.cons_append, List.nil_append, takeD32, le32, Option.some.injEq]
  apply BitVec.eq_of_getLsbD_eq
  intro i hi
  simp only [BitVec.getLsbD_append, BitVec.getLsbD_extractLsb']
  by_cases h1 : i < 8
  · simp [h1]
  · by_cases h2 : i - 8 < 8
    · simp [h1, h2, show 8 + (i - 8) = i by omega]
    · by_cases h3 : i - 8 - 8 < 8
      · simp [h1, h2, h3, show 16 + (i - 8 - 8) = i by omega]
      · simp [h1, h2, h3, show i - 8 - 8 - 8 < 8 by omega, show 24 + (i - 8 - 8 - 8) = i by omega]

/-- A displacement is read back from its bytes, whatever follows. -/
theorem takeDisp_bytes (d : Disp) (rest : List Byte) : takeDisp d.mod (d.bytes ++ rest) = some d := by
  cases d with
  | none => rfl
  | d8 b => rfl
  | d32 w => simp [takeDisp, Disp.mod, Disp.bytes, takeD32_bytes32]

/-- `mod` of a displacement is never 11b. -/
theorem Disp.mod_ne (d : Disp) : d.mod ≠ 3#2 := by
  cases d <;> simp [Disp.mod]

/-- `mod` = 00b is no displacement. -/
theorem Disp.mod_eq_zero {d : Disp} : d.mod = 0#2 ↔ d = .none := by
  cases d <;> simp [Disp.mod]

/-- The bytes of a displacement are as many as its length says (rule R78). -/
@[simp] theorem Disp.length_bytes (d : Disp) : d.bytes.length = d.len := by
  cases d <;> rfl

/-! ## Prefixes (rule R62) -/

/-- A byte that is no prefix ends the scan. -/
theorem scanPrefixes_stop {p : Prefixes} {b : Byte} (h : p.note b = none) (bs : List Byte) :
    scanPrefixes p (b :: bs) = (p, b :: bs) := by
  simp [scanPrefixes, h]

/-- A prefix byte is noted and the scan goes on. -/
theorem scanPrefixes_step {p p' : Prefixes} {b : Byte} (h : p.note b = some p') (bs : List Byte) :
    scanPrefixes p (b :: bs) = scanPrefixes p' bs := by
  simp [scanPrefixes, h]

/-- The prefix byte of a segment names that segment. -/
@[simp] theorem segOfPrefix_prefixOfSeg (g : Seg) : segOfPrefix (prefixOfSeg g) = some g := by
  cases g <;> rfl

/-- The prefixes after an optional 67 and an optional segment override. -/
def prefixesOf (adr67 : Bool) (seg : Option Seg) : Prefixes := ⟨0, adr67.toNat, 0, 0, 0, seg.toList⟩

/-- Scanning the encoder's prefix bytes notes them and goes on with what follows. -/
theorem scanPrefixes_prefixBytes (a : Bool) (g : Option Seg) (bs : List Byte) :
    scanPrefixes .empty (prefixBytes a g ++ bs) = scanPrefixes (prefixesOf a g) bs := by
  cases a <;> rcases g with _ | g <;> first | rfl | (cases g <;> rfl)

/-- The encoder's prefix bytes are as many as their length says (rule R78). -/
@[simp] theorem length_prefixBytes (a : Bool) (g : Option Seg) : (prefixBytes a g).length = prefixLen a g := by
  cases a <;> cases g <;> rfl

/-! ## Opcode and vector length -/

/-- The opcode byte of a conversion selects it (rule R79). -/
@[simp] theorem ofOp_op (c : Conv) : Conv.ofOp c.op = some c := by
  cases c <;> rfl

/-- Only its own opcode byte selects a conversion (rule R79). -/
theorem op_of_ofOp {b : Byte} {c : Conv} (h : Conv.ofOp b = some c) : b = c.op := by
  revert h
  cases c <;> revert b <;> decide

/-- The field `LL` of a vector length selects it (rule R66). -/
@[simp] theorem ofLL_ll (l : EvexLen) : EvexLen.ofLL l.ll = some l := by
  cases l <;> rfl

/-! ## Lengths (rules R60, R78) -/

/-- ModRM and what follows it take 1 to 6 bytes. -/
theorem Src.len_bounds {n : Nat} (s : Src n) : 1 ≤ s.len ∧ s.len ≤ 6 := by
  cases s with
  | reg r => simp [Src.len]
  | mem m =>
    cases m with
    | base b d => cases d <;> simp [Src.len, MemOp.len, Disp.len]
    | rip d => simp [Src.len, MemOp.len]
    | sib b i ss d => cases d <;> simp [Src.len, MemOp.len, Disp.len]
    | sibNoBase i ss d => simp [Src.len, MemOp.len]

/-- At most two prefix bytes stand before the mandatory ones. -/
theorem prefixLen_le (a : Bool) (g : Option Seg) : prefixLen a g ≤ 2 := by
  cases a <;> cases g <;> simp [prefixLen]

/-- A legacy form takes 5 to 13 bytes. -/
theorem LegacyOps.len_bounds (o : LegacyOps) : 5 ≤ o.len ∧ o.len ≤ 13 := by
  have h1 := o.src.len_bounds
  have h2 := prefixLen_le o.adr67 o.seg
  have h3 : o.rex.toNat ≤ 1 := Bool.toNat_le _
  unfold LegacyOps.len
  omega

/-- A VEX form takes at least 5 bytes, and no more than the longest form. -/
theorem VexOps.len_bounds (o : VexOps) : 5 ≤ o.len ∧ o.len ≤ 13 := by
  have h1 := o.src.len_bounds
  have h2 := prefixLen_le o.adr67 o.seg
  unfold VexOps.len
  omega

/-- An EVEX form takes more than 5 bytes, and no more than 13. -/
theorem EvexOps.len_bounds (o : EvexOps) : 5 ≤ o.len ∧ o.len ≤ 13 := by
  have h1 := o.src.len_bounds
  have h2 := prefixLen_le o.adr67 o.seg
  unfold EvexOps.len
  omega

/-! ## The three families of forms -/

/-- Every instruction is a legacy, a VEX or an EVEX form (rule R1). -/
theorem instr_cases (i : Instr) :
    (∃ c o, i = legacyForm c o) ∨ (∃ l c o, i = vexForm l c o) ∨ (∃ l c o, i = evexForm l c o) := by
  cases i with
  | pmovzxbw o => exact .inl ⟨.bw, o, rfl⟩
  | pmovzxbd o => exact .inl ⟨.bd, o, rfl⟩
  | pmovzxbq o => exact .inl ⟨.bq, o, rfl⟩
  | pmovzxwd o => exact .inl ⟨.wd, o, rfl⟩
  | pmovzxwq o => exact .inl ⟨.wq, o, rfl⟩
  | pmovzxdq o => exact .inl ⟨.dq, o, rfl⟩
  | vpmovzxbwVex128 o => exact .inr (.inl ⟨false, .bw, o, rfl⟩)
  | vpmovzxbdVex128 o => exact .inr (.inl ⟨false, .bd, o, rfl⟩)
  | vpmovzxbqVex128 o => exact .inr (.inl ⟨false, .bq, o, rfl⟩)
  | vpmovzxwdVex128 o => exact .inr (.inl ⟨false, .wd, o, rfl⟩)
  | vpmovzxwqVex128 o => exact .inr (.inl ⟨false, .wq, o, rfl⟩)
  | vpmovzxdqVex128 o => exact .inr (.inl ⟨false, .dq, o, rfl⟩)
  | vpmovzxbwVex256 o => exact .inr (.inl ⟨true, .bw, o, rfl⟩)
  | vpmovzxbdVex256 o => exact .inr (.inl ⟨true, .bd, o, rfl⟩)
  | vpmovzxbqVex256 o => exact .inr (.inl ⟨true, .bq, o, rfl⟩)
  | vpmovzxwdVex256 o => exact .inr (.inl ⟨true, .wd, o, rfl⟩)
  | vpmovzxwqVex256 o => exact .inr (.inl ⟨true, .wq, o, rfl⟩)
  | vpmovzxdqVex256 o => exact .inr (.inl ⟨true, .dq, o, rfl⟩)
  | vpmovzxbwEvex128 o => exact .inr (.inr ⟨.l128, .bw, o, rfl⟩)
  | vpmovzxbwEvex256 o => exact .inr (.inr ⟨.l256, .bw, o, rfl⟩)
  | vpmovzxbwEvex512 o => exact .inr (.inr ⟨.l512, .bw, o, rfl⟩)
  | vpmovzxbdEvex128 o => exact .inr (.inr ⟨.l128, .bd, o, rfl⟩)
  | vpmovzxbdEvex256 o => exact .inr (.inr ⟨.l256, .bd, o, rfl⟩)
  | vpmovzxbdEvex512 o => exact .inr (.inr ⟨.l512, .bd, o, rfl⟩)
  | vpmovzxbqEvex128 o => exact .inr (.inr ⟨.l128, .bq, o, rfl⟩)
  | vpmovzxbqEvex256 o => exact .inr (.inr ⟨.l256, .bq, o, rfl⟩)
  | vpmovzxbqEvex512 o => exact .inr (.inr ⟨.l512, .bq, o, rfl⟩)
  | vpmovzxwdEvex128 o => exact .inr (.inr ⟨.l128, .wd, o, rfl⟩)
  | vpmovzxwdEvex256 o => exact .inr (.inr ⟨.l256, .wd, o, rfl⟩)
  | vpmovzxwdEvex512 o => exact .inr (.inr ⟨.l512, .wd, o, rfl⟩)
  | vpmovzxwqEvex128 o => exact .inr (.inr ⟨.l128, .wq, o, rfl⟩)
  | vpmovzxwqEvex256 o => exact .inr (.inr ⟨.l256, .wq, o, rfl⟩)
  | vpmovzxwqEvex512 o => exact .inr (.inr ⟨.l512, .wq, o, rfl⟩)
  | vpmovzxdqEvex128 o => exact .inr (.inr ⟨.l128, .dq, o, rfl⟩)
  | vpmovzxdqEvex256 o => exact .inr (.inr ⟨.l256, .dq, o, rfl⟩)
  | vpmovzxdqEvex512 o => exact .inr (.inr ⟨.l512, .dq, o, rfl⟩)

@[simp] theorem operands_legacyForm (c : Conv) (o : LegacyOps) : (legacyForm c o).operands = .legacy o := by
  cases c <;> rfl

@[simp] theorem operands_vexForm (l : Bool) (c : Conv) (o : VexOps) : (vexForm l c o).operands = .vex o := by
  cases l <;> cases c <;> rfl

@[simp] theorem operands_evexForm (l : EvexLen) (c : Conv) (o : EvexOps) : (evexForm l c o).operands = .evex o := by
  cases l <;> cases c <;> rfl

@[simp] theorem encode_legacyForm (c : Conv) (o : LegacyOps) : encode (legacyForm c o) = encodeLegacy c o := by
  cases c <;> rfl

@[simp] theorem encode_vexForm (l : Bool) (c : Conv) (o : VexOps) : encode (vexForm l c o) = encodeVex l c o := by
  cases l <;> cases c <;> rfl

@[simp] theorem encode_evexForm (l : EvexLen) (c : Conv) (o : EvexOps) :
    encode (evexForm l c o) = encodeEvex l c o := by
  cases l <;> cases c <;> rfl

end Sys2Proof
end

