-- ==== Sys2Proof/Laws/State.lean ====
section
/-! SUPPORT. One lemma per field and per update of the state, each true by rfl, and what a vector register reads after
a write of one. -/

namespace Sys2Proof.Machine

/-! ## Fields after `zmmWrite` -/

theorem zmmWrite_zmm (s : State) (i : BitVec 5) (v : Vec) :
    (s.zmmWrite i v).zmm = s.zmm.set i.toFin (lowBits s.maxvl v) := rfl
@[simp] theorem zmmWrite_k (s : State) (i : BitVec 5) (v : Vec) : (s.zmmWrite i v).k = s.k := rfl
@[simp] theorem zmmWrite_x (s : State) (i : BitVec 5) (v : Vec) : (s.zmmWrite i v).x = s.x := rfl
@[simp] theorem zmmWrite_rip (s : State) (i : BitVec 5) (v : Vec) : (s.zmmWrite i v).rip = s.rip := rfl
@[simp] theorem zmmWrite_wrapped (s : State) (i : BitVec 5) (v : Vec) : (s.zmmWrite i v).wrapped = s.wrapped := rfl
@[simp] theorem zmmWrite_segBase (s : State) (i : BitVec 5) (v : Vec) : (s.zmmWrite i v).segBase = s.segBase := rfl
@[simp] theorem zmmWrite_rflags (s : State) (i : BitVec 5) (v : Vec) : (s.zmmWrite i v).rflags = s.rflags := rfl
@[simp] theorem zmmWrite_mxcsr (s : State) (i : BitVec 5) (v : Vec) : (s.zmmWrite i v).mxcsr = s.mxcsr := rfl
@[simp] theorem zmmWrite_cr0 (s : State) (i : BitVec 5) (v : Vec) : (s.zmmWrite i v).cr0 = s.cr0 := rfl
@[simp] theorem zmmWrite_cr4 (s : State) (i : BitVec 5) (v : Vec) : (s.zmmWrite i v).cr4 = s.cr4 := rfl
@[simp] theorem zmmWrite_xcr0 (s : State) (i : BitVec 5) (v : Vec) : (s.zmmWrite i v).xcr0 = s.xcr0 := rfl
@[simp] theorem zmmWrite_cpl (s : State) (i : BitVec 5) (v : Vec) : (s.zmmWrite i v).cpl = s.cpl := rfl
@[simp] theorem zmmWrite_mem (s : State) (i : BitVec 5) (v : Vec) : (s.zmmWrite i v).mem = s.mem := rfl
@[simp] theorem zmmWrite_params (s : State) (i : BitVec 5) (v : Vec) : (s.zmmWrite i v).params = s.params := rfl

/-! ## Fields after `advance` -/

@[simp] theorem advance_zmm (s : State) (n : Nat) : (s.advance n).zmm = s.zmm := rfl
@[simp] theorem advance_k (s : State) (n : Nat) : (s.advance n).k = s.k := rfl
@[simp] theorem advance_x (s : State) (n : Nat) : (s.advance n).x = s.x := rfl
@[simp] theorem advance_rip (s : State) (n : Nat) : (s.advance n).rip = s.nextRip n := rfl
@[simp] theorem advance_wrapped (s : State) (n : Nat) :
    (s.advance n).wrapped = (s.wrapped || decide (addressTop s.params.mode ≤ s.rip.toNat + n)) := rfl
@[simp] theorem advance_segBase (s : State) (n : Nat) : (s.advance n).segBase = s.segBase := rfl
@[simp] theorem advance_rflags (s : State) (n : Nat) : (s.advance n).rflags = s.rflags := rfl
@[simp] theorem advance_mxcsr (s : State) (n : Nat) : (s.advance n).mxcsr = s.mxcsr := rfl
@[simp] theorem advance_cr0 (s : State) (n : Nat) : (s.advance n).cr0 = s.cr0 := rfl
@[simp] theorem advance_cr4 (s : State) (n : Nat) : (s.advance n).cr4 = s.cr4 := rfl
@[simp] theorem advance_xcr0 (s : State) (n : Nat) : (s.advance n).xcr0 = s.xcr0 := rfl
@[simp] theorem advance_cpl (s : State) (n : Nat) : (s.advance n).cpl = s.cpl := rfl
@[simp] theorem advance_mem (s : State) (n : Nat) : (s.advance n).mem = s.mem := rfl
@[simp] theorem advance_params (s : State) (n : Nat) : (s.advance n).params = s.params := rfl

/-! ## Fields after `enableAll` -/

@[simp] theorem enableAll_zmm (s : State) : s.enableAll.zmm = s.zmm := rfl
@[simp] theorem enableAll_k (s : State) : s.enableAll.k = s.k := rfl
@[simp] theorem enableAll_x (s : State) : s.enableAll.x = s.x := rfl
@[simp] theorem enableAll_rip (s : State) : s.enableAll.rip = s.rip := rfl
@[simp] theorem enableAll_wrapped (s : State) : s.enableAll.wrapped = s.wrapped := rfl
@[simp] theorem enableAll_segBase (s : State) : s.enableAll.segBase = s.segBase := rfl
@[simp] theorem enableAll_rflags (s : State) : s.enableAll.rflags = s.rflags := rfl
@[simp] theorem enableAll_mxcsr (s : State) : s.enableAll.mxcsr = s.mxcsr := rfl
@[simp] theorem enableAll_cr0 (s : State) : s.enableAll.cr0 = s.cr0 &&& ~~~0xC#64 := rfl
@[simp] theorem enableAll_cr4 (s : State) : s.enableAll.cr4 = s.cr4 ||| 0x40200#64 := rfl
@[simp] theorem enableAll_xcr0 (s : State) : s.enableAll.xcr0 = s.xcr0 ||| 0xE7#64 := rfl
@[simp] theorem enableAll_cpl (s : State) : s.enableAll.cpl = s.cpl := rfl
@[simp] theorem enableAll_mem (s : State) : s.enableAll.mem = s.mem := rfl
@[simp] theorem enableAll_params (s : State) : s.enableAll.params = s.params := rfl

/-! ## What the parameters fix -/

/-- `MAXVL` depends on the parameters alone. -/
theorem maxvl_congr {s t : State} (h : t.params = s.params) : t.maxvl = s.maxvl := by
  unfold State.maxvl State.anyAvx512 State.hasAvx512f State.hasAvx512bw State.hasAvx512vl State.hasAvx State.hasAvx2
  rw [h]

/-- `NVEC` depends on the parameters alone. -/
theorem nvec_congr {s t : State} (h : t.params = s.params) : t.nvec = s.nvec := by
  unfold State.nvec
  rw [maxvl_congr h, h]

@[simp] theorem zmmWrite_maxvl (s : State) (i : BitVec 5) (v : Vec) : (s.zmmWrite i v).maxvl = s.maxvl := rfl
@[simp] theorem advance_maxvl (s : State) (n : Nat) : (s.advance n).maxvl = s.maxvl := rfl
@[simp] theorem zmmWrite_nextRip (s : State) (i : BitVec 5) (v : Vec) (n : Nat) :
    (s.zmmWrite i v).nextRip n = s.nextRip n := rfl
@[simp] theorem zmmWrite_pcCount (s : State) (i : BitVec 5) (v : Vec) : (s.zmmWrite i v).pcCount = s.pcCount := rfl
@[simp] theorem advance_zmmRead (s : State) (n : Nat) (i : BitVec 5) : (s.advance n).zmmRead i = s.zmmRead i := rfl

/-- `MAXVL` has one of its three legal values (rule R5). -/
theorem maxvl_cases (s : State) : s.maxvl = 128 ∨ s.maxvl = 256 ∨ s.maxvl = 512 := by
  unfold State.maxvl
  split
  · exact .inr (.inr rfl)
  · split
    · exact .inr (.inl rfl)
    · exact .inl rfl

/-! ## Places of the vector register file -/

/-- The place written holds the value. -/
@[simp] theorem zmmWrite_get_self (s : State) (i : BitVec 5) (v : Vec) :
    (s.zmmWrite i v).zmm.get i.toFin = lowBits s.maxvl v := by
  simp [zmmWrite_zmm, Vector.get_eq_getElem]

/-- Every other place is as before. -/
theorem zmmWrite_get_ne (s : State) {i j : BitVec 5} (v : Vec) (h : j ≠ i) :
    (s.zmmWrite i v).zmm.get j.toFin = s.zmm.get j.toFin := by
  have h' : i.toNat ≠ j.toNat := fun e => h (BitVec.eq_of_toNat_eq e.symm)
  simp [zmmWrite_zmm, Vector.get_eq_getElem, Vector.getElem_set_ne, h']

end Sys2Proof.Machine
end

