-- ==== Sys2Proof/Laws/Elements.lean ====
section
/-! SUPPORT. What the packed-element operations say bit by bit and element by element (rules R100, R102 to R104). -/

namespace Sys2Proof.Machine

/-! ## Bits -/

/-- Bit `b` of `lowBits n v`. -/
@[simp] theorem lowBits_getLsbD (n : Nat) (v : Vec) (b : Nat) :
    (lowBits n v).getLsbD b = (decide (b < n) && v.getLsbD b) := by
  simp only [lowBits, BitVec.getLsbD_setWidth]
  by_cases h : b < 512
  · simp [h]
  · simp [h, BitVec.getLsbD_of_ge v b (by omega)]

/-- Cutting twice to the same width is cutting once. -/
@[simp] theorem lowBits_lowBits (n : Nat) (v : Vec) : lowBits n (lowBits n v) = lowBits n v := by
  apply BitVec.eq_of_getLsbD_eq
  intro b _
  simp

/-- Zero stays zero. -/
@[simp] theorem lowBits_zero (n : Nat) : lowBits n 0#512 = 0#512 := by
  apply BitVec.eq_of_getLsbD_eq
  intro b _
  simp

/-- Bit `b` of element `j` of width `w`. -/
theorem elem_getLsbD (w j : Nat) (v : Vec) (b : Nat) :
    (elem w j v).getLsbD b = (decide (b < w) && decide (b < 64) && v.getLsbD (j * w + b)) := by
  simp only [elem, BitVec.getLsbD_setWidth, BitVec.getLsbD_extractLsb']
  by_cases h1 : b < w <;> by_cases h2 : b < 64 <;> simp [h1, h2]

/-- Bit `b` of a packed vector: bit `b % w` of element `b / w`. -/
theorem packElems_getLsbD {w : Nat} (hw : 0 < w) (f : Nat → Word) (n b : Nat) :
    (packElems w f n).getLsbD b = (decide (b < 512) && decide (b / w < n) && (f (b / w)).getLsbD (b % w)) := by
  induction n with
  | zero => simp [packElems]
  | succ n ih =>
    simp only [packElems, BitVec.getLsbD_or, ih, BitVec.getLsbD_shiftLeft, BitVec.getLsbD_setWidth]
    have hm : b % w < w := Nat.mod_lt b hw
    have hd : w * (b / w) + b % w = b := Nat.div_add_mod b w
    by_cases hb : b < 512
    · rcases Nat.lt_trichotomy (b / w) n with h | h | h
      · have h1 : b < n * w := (Nat.div_lt_iff_lt_mul hw).mp h
        simp [hb, h, h1, Nat.lt_succ_of_lt h]
      · have h1 : ¬ b < n * w := by rw [← Nat.div_lt_iff_lt_mul hw]; omega
        have h2 : b - n * w = b % w := by rw [← h, Nat.mul_comm]; omega
        have h3 : b % w < 512 := Nat.lt_of_le_of_lt (Nat.mod_le b w) hb
        simp [hb, h, h1, h2, hm, h3]
      · have h1 : ¬ b < n * w := by rw [← Nat.div_lt_iff_lt_mul hw]; omega
        have h2 : ¬ b - n * w < w := by
          have : (n + 1) * w ≤ b := by
            rw [← Nat.le_div_iff_mul_le hw]; omega
          rw [Nat.succ_mul] at this
          omega
        have h3 : ¬ b / w < n := by omega
        have h4 : ¬ b / w < n + 1 := by omega
        simp [hb, h2, h3, h4]
    · simp [hb]

/-- Bit `b` of the zero-extended elements: bit `b % dw` of source element `b / dw` where there is one (rule R100). -/
theorem pzx_getLsbD {sw dw : Nat} (hs : sw ≤ 64) (hd : 0 < dw) (kl : Nat) (s : Vec) (b : Nat) :
    (pzx sw dw kl s).getLsbD b =
      (decide (b < 512) && decide (b / dw < kl) && decide (b % dw < sw) && s.getLsbD (b / dw * sw + b % dw)) := by
  rw [pzx, packElems_getLsbD hd, elem_getLsbD]
  by_cases h : b % dw < sw
  · have : b % dw < 64 := by omega
    simp [h, this]
  · simp [h]

/-! ## Elements -/

/-- Element `j` of a packed vector is the value packed, cut to the element width. -/
theorem elem_packElems {w : Nat} (hw : 0 < w) (f : Nat → Word) {n j : Nat} (hj : j < n)
    (hfit : n * w ≤ 512) : elem w j (packElems w f n) = ((f j).setWidth w).setWidth 64 := by
  apply BitVec.eq_of_getLsbD_eq
  intro b hb
  rw [elem_getLsbD, packElems_getLsbD hw]
  simp only [BitVec.getLsbD_setWidth]
  by_cases h : b < w
  · have h1 : (j * w + b) / w = j := by
      rw [Nat.mul_comm, Nat.mul_add_div hw, Nat.div_eq_of_lt h]; omega
    have h2 : (j * w + b) % w = b := by
      rw [Nat.mul_comm, Nat.mul_add_mod, Nat.mod_eq_of_lt h]
    have h3 : j * w + b < 512 := by
      have : (j + 1) * w ≤ n * w := Nat.mul_le_mul_right w hj
      rw [Nat.succ_mul] at this
      omega
    simp [h, hb, h1, h2, h3, hj]
  · simp [h]

/-- Above the elements a packed vector is zero. -/
theorem packElems_above {w : Nat} (hw : 0 < w) (f : Nat → Word) {n b : Nat} (h : n * w ≤ b) :
    (packElems w f n).getLsbD b = false := by
  rw [packElems_getLsbD hw]
  have : ¬ b / w < n := by rw [Nat.div_lt_iff_lt_mul hw]; omega
  simp [this]

/-! ## Vector registers -/

/-- The register written reads as the value, cut to `MAXVL` (rule R8). -/
@[simp] theorem zmmRead_zmmWrite_self (s : State) (i : BitVec 5) (v : Vec) :
    (s.zmmWrite i v).zmmRead i = lowBits s.maxvl v := by
  simp [State.zmmRead]

/-- Every other register reads as before. -/
theorem zmmRead_zmmWrite_ne (s : State) {i j : BitVec 5} (v : Vec) (h : j ≠ i) :
    (s.zmmWrite i v).zmmRead j = s.zmmRead j := by
  simp [State.zmmRead, zmmWrite_get_ne _ _ h]

end Sys2Proof.Machine
end

