-- ==== Sys2Proof/Laws/Memory.lean ====
section
/-! SUPPORT. Memory: read after write, the canonical form kept by every operation, equal contents are equal lists, what
a multi-byte read holds, and when a read raises no fault (rules R40, R41, R48, R175). -/

namespace Sys2Proof.Machine

/-! ## The canonical form -/

/-- A canonical list is canonical from any lower address on. -/
theorem Memory.wfFrom_mono {lo lo' : Nat} (h : lo' ≤ lo) {m : Memory} (hm : Memory.wfFrom lo m = true) :
    Memory.wfFrom lo' m = true := by
  cases m with
  | nil => rfl
  | cons c m =>
    simp only [Memory.wfFrom, Bool.and_eq_true, decide_eq_true_eq] at hm ⊢
    exact ⟨⟨⟨by omega, hm.1.1.2⟩, hm.1.2⟩, hm.2⟩

/-- Below its first address a canonical list holds nothing. -/
theorem Memory.read_below {lo : Nat} {m : Memory} (hm : Memory.wfFrom lo m = true) {a : Word} (h : a.toNat < lo) :
    Memory.read m a = unlistedByte := by
  cases m with
  | nil => rfl
  | cons c m =>
    simp only [Memory.wfFrom, Bool.and_eq_true, decide_eq_true_eq] at hm
    have h1 : ¬ c.1 = a.toNat := by omega
    have h2 : a.toNat < c.1 := by omega
    simp [Memory.read, h1, h2]

/-- `Memory.cons` keeps the canonical form. -/
theorem Memory.wfFrom_cons {lo : Nat} {a : Word} {b : Byte} {m : Memory} (ha : lo ≤ a.toNat)
    (hm : Memory.wfFrom (a.toNat + 1) m = true) : Memory.wfFrom lo (Memory.cons a b m) = true := by
  unfold Memory.cons
  split
  · exact Memory.wfFrom_mono (by omega) hm
  · rename_i hb
    simp [Memory.wfFrom, ha, a.isLt, hb, hm]

/-- A write keeps the canonical form from an address on. -/
theorem Memory.wfFrom_write {lo : Nat} {m : Memory} (hm : Memory.wfFrom lo m = true) {a : Word} (ha : lo ≤ a.toNat)
    (b : Byte) : Memory.wfFrom lo (m.write a b) = true := by
  induction m generalizing lo with
  | nil => exact Memory.wfFrom_cons ha rfl
  | cons c m ih =>
    have hm' := hm
    simp only [Memory.wfFrom, Bool.and_eq_true, decide_eq_true_eq] at hm
    obtain ⟨⟨⟨h1, h2⟩, h3⟩, h4⟩ := hm
    unfold Memory.write
    split
    · rename_i h
      exact Memory.wfFrom_cons ha (h ▸ h4)
    · split
      · refine Memory.wfFrom_cons ha ?_
        simp only [Memory.wfFrom, Bool.and_eq_true, decide_eq_true_eq]
        exact ⟨⟨⟨by omega, h2⟩, h3⟩, h4⟩
      · simp only [Memory.wfFrom, Bool.and_eq_true, decide_eq_true_eq]
        exact ⟨⟨⟨h1, h2⟩, h3⟩, ih h4 (by omega)⟩

/-- A write keeps the canonical form. -/
theorem Memory.wf_write {m : Memory} (hm : m.wf = true) (a : Word) (b : Byte) : (m.write a b).wf = true :=
  Memory.wfFrom_write hm (Nat.zero_le _) b

/-- The memory of the reset state is canonical. -/
theorem Memory.wf_reset : State.reset.mem.wf = true := rfl

/-! ## Read after write -/

/-- What `Memory.cons` reads as, in front of a list that starts above. -/
theorem Memory.read_cons {a : Word} {b : Byte} {m : Memory} (hm : Memory.wfFrom (a.toNat + 1) m = true) (c : Word) :
    Memory.read (Memory.cons a b m) c = if c = a then b else Memory.read m c := by
  unfold Memory.cons
  by_cases hca : c = a
  · subst hca
    split
    · rename_i h
      simp [Memory.read_below hm (Nat.lt_succ_self _), h]
    · simp [Memory.read]
  · have hne : ¬ a.toNat = c.toNat := fun e => hca (BitVec.eq_of_toNat_eq e.symm)
    simp only [hca, if_false]
    split
    · rfl
    · simp only [Memory.read, hne, if_false]
      split
      · rename_i h
        exact (Memory.read_below hm (by omega)).symm
      · rfl

/-- What memory reads as after a write, on a list that is canonical from some address on. -/
theorem Memory.read_write_from {lo : Nat} {m : Memory} (hm : Memory.wfFrom lo m = true) (a : Word) (b : Byte) (c : Word) :
    (m.write a b).read c = if c = a then b else m.read c := by
  induction m generalizing lo with
  | nil => exact Memory.read_cons rfl c
  | cons d m ih =>
    have hm' := hm
    simp only [Memory.wfFrom, Bool.and_eq_true, decide_eq_true_eq] at hm
    obtain ⟨⟨⟨h1, h2⟩, h3⟩, h4⟩ := hm
    unfold Memory.write
    split
    · rename_i h
      rw [Memory.read_cons (h ▸ h4)]
      by_cases hca : c = a
      · simp [hca]
      · have hne : ¬ d.1 = c.toNat := fun e => hca (BitVec.eq_of_toNat_eq (by omega))
        simp only [hca, if_false, Memory.read, hne]
        split
        · exact Memory.read_below h4 (by omega)
        · rfl
    · split
      · rw [Memory.read_cons]
        simp only [Memory.wfFrom, Bool.and_eq_true, decide_eq_true_eq]
        exact ⟨⟨⟨by omega, h2⟩, h3⟩, h4⟩
      · rename_i hne hlt
        by_cases hdc : d.1 = c.toNat
        · have hca : ¬ c = a := fun e => hne (e ▸ hdc)
          simp [Memory.read, hdc, hca]
        · by_cases hcd : c.toNat < d.1
          · have hca : ¬ c = a := fun e => by subst e; omega
            simp [Memory.read, hdc, hcd, hca]
          · simp [Memory.read, hdc, hcd, ih h4]

/-- The byte written is read back, and every other address reads as before (rule R40). -/
theorem Memory.read_write {m : Memory} (hm : m.wf = true) (a : Word) (b : Byte) (c : Word) :
    (m.write a b).read c = if c = a then b else m.read c :=
  Memory.read_write_from hm a b c

/-! ## Equal contents are equal lists -/

/-- Two canonical lists that read alike everywhere are equal. -/
theorem Memory.ext_from {lo : Nat} {m m' : Memory} (hm : Memory.wfFrom lo m = true) (hm' : Memory.wfFrom lo m' = true)
    (h : ∀ a : Word, m.read a = m'.read a) : m = m' := by
  induction m generalizing lo m' with
  | nil =>
    cases m' with
    | nil => rfl
    | cons d m' =>
      simp only [Memory.wfFrom, Bool.and_eq_true, decide_eq_true_eq, bne_iff_ne, ne_eq] at hm'
      have := h (BitVec.ofNat 64 d.1)
      simp only [Memory.read, BitVec.toNat_ofNat, Nat.mod_eq_of_lt hm'.1.1.2, if_true] at this
      exact absurd this.symm hm'.1.2
  | cons c m ih =>
    simp only [Memory.wfFrom, Bool.and_eq_true, decide_eq_true_eq, bne_iff_ne, ne_eq] at hm
    cases m' with
    | nil =>
      have := h (BitVec.ofNat 64 c.1)
      simp only [Memory.read, BitVec.toNat_ofNat, Nat.mod_eq_of_lt hm.1.1.2, if_true] at this
      exact absurd this hm.1.2
    | cons d m' =>
      simp only [Memory.wfFrom, Bool.and_eq_true, decide_eq_true_eq, bne_iff_ne, ne_eq] at hm'
      have hc := h (BitVec.ofNat 64 c.1)
      have hd := h (BitVec.ofNat 64 d.1)
      simp only [Memory.read, BitVec.toNat_ofNat, Nat.mod_eq_of_lt hm.1.1.2, if_true] at hc
      simp only [Memory.read, BitVec.toNat_ofNat, Nat.mod_eq_of_lt hm'.1.1.2, if_true] at hd
      have hcd : c.1 = d.1 := by
        rcases Nat.lt_trichotomy c.1 d.1 with hl | he | hg
        · rw [if_neg (by omega), if_pos hl] at hc
          exact absurd hc hm.1.2
        · exact he
        · rw [if_neg (by omega), if_pos hg] at hd
          exact absurd hd.symm hm'.1.2
      rw [if_pos hcd.symm] at hc
      have hce : c = d := Prod.ext hcd hc
      have htail : m = m' := by
        refine ih hm.2 (hcd ▸ hm'.2) fun a => ?_
        have ha := h a
        simp only [Memory.read, hcd] at ha
        by_cases h1 : d.1 = a.toNat
        · rw [Memory.read_below hm.2 (by omega), Memory.read_below hm'.2 (by omega)]
        · by_cases h2 : a.toNat < d.1
          · rw [Memory.read_below hm.2 (by omega), Memory.read_below hm'.2 (by omega)]
          · simpa [h1, h2] using ha
      rw [hce, htail]

/-- Two canonical memories with the same byte at every address are equal. -/
theorem Memory.ext {m m' : Memory} (hm : m.wf = true) (hm' : m'.wf = true) (h : ∀ a : Word, m.read a = m'.read a) :
    m = m' := Memory.ext_from hm hm' h

/-! ## Placing bytes -/

/-- Placing bytes keeps the canonical form. -/
theorem placeBytes_wf (s : State) (la : Word) (i : Nat) (bs : List Byte) (h : s.mem.wf = true) :
    (s.placeBytes la i bs).mem.wf = true := by
  induction bs generalizing s i with
  | nil => exact h
  | cons b bs ih => exact ih _ _ (Memory.wf_write h _ _)

/-- Placing bytes changes memory only. -/
theorem placeBytes_rest (s : State) (la : Word) (i : Nat) (bs : List Byte) :
    s.placeBytes la i bs = { s with mem := (s.placeBytes la i bs).mem } := by
  induction bs generalizing s i with
  | nil => rfl
  | cons b bs ih => exact ih _ _

/-- The address `i` bytes up, as a number (rule R7; log entry 9). -/
theorem byteAddr_toNat (s : State) (la : Word) (i : Nat) :
    (s.byteAddr la i).toNat = (la.toNat + i) % addressTop s.params.mode := by
  unfold State.byteAddr wrapTo addressTop
  cases s.params.mode <;> simp
  omega

/-- Offsets within the address space name different addresses. -/
theorem byteAddr_inj {s : State} {la : Word} {i j : Nat} (hi : i < addressTop s.params.mode)
    (hj : j < addressTop s.params.mode) (h : s.byteAddr la i = s.byteAddr la j) : i = j := by
  have hn := congrArg BitVec.toNat h
  rw [byteAddr_toNat, byteAddr_toNat] at hn
  cases hm : s.params.mode <;> rw [hm] at hn hi hj <;> simp only [addressTop] at hn hi hj <;> omega

/-- Every byte near a launch's program: the program's own bytes, and the others as before (rules R200, R204). -/
theorem placeBytes_read {la : Word} {bs : List Byte} {i k : Nat} {s : State} (hw : s.mem.wf = true)
    (h : i + bs.length ≤ addressTop s.params.mode) (hk : k < addressTop s.params.mode) :
    (s.placeBytes la i bs).mem.read (s.byteAddr la k) =
      if i ≤ k ∧ k < i + bs.length then bs.getD (k - i) 0#8 else s.mem.read (s.byteAddr la k) := by
  induction bs generalizing i s with
  | nil =>
    have : ¬ (i ≤ k ∧ k < i + ([] : List Byte).length) := by simp only [List.length_nil]; omega
    rw [if_neg this]
    rfl
  | cons b bs ih =>
    simp only [List.length_cons] at h ⊢
    have hs := ih (i := i + 1) (s := { s with mem := s.mem.write (s.byteAddr la i) b }) (Memory.wf_write hw _ _)
      (by dsimp only; omega) hk
    refine hs.trans ?_
    have hr : (s.mem.write (s.byteAddr la i) b).read (s.byteAddr la k) = if k = i then b else s.mem.read (s.byteAddr la k) := by
      rw [Memory.read_write hw]
      by_cases hki : k = i
      · rw [if_pos hki, if_pos (by rw [hki])]
      · rw [if_neg hki, if_neg fun he => hki (byteAddr_inj hk (by omega) he)]
    by_cases hin : i + 1 ≤ k ∧ k < i + 1 + bs.length
    · obtain ⟨j, rfl⟩ : ∃ j, k = i + 1 + j := ⟨k - (i + 1), by omega⟩
      rw [if_pos hin, if_pos (by omega), show i + 1 + j - (i + 1) = j by omega, show i + 1 + j - i = j + 1 by omega,
        List.getD_cons_succ]
    · rw [if_neg hin]
      refine hr.trans ?_
      by_cases hki : k = i
      · subst hki
        rw [if_pos rfl, if_pos (by omega), Nat.sub_self, List.getD_cons_zero]
      · rw [if_neg hki, if_neg (by omega)]

/-! ## Multi-byte reads -/

/-- Bit `b` of a read of `n` bytes is bit `b % 8` of the byte `b / 8` above its address (rule R41). -/
theorem memRead_getLsbD (s : State) (la : Word) (n b : Nat) :
    (s.memRead la n).getLsbD b =
      (decide (b < 512) && decide (b / 8 < n) && (s.readByte la (b / 8)).getLsbD (b % 8)) := by
  rw [State.memRead, packElems_getLsbD (by decide)]
  have h : b % 8 < 64 := by omega
  simp [h]

/-! ## When a read raises no fault -/

/-- No memory fault: every needed byte is reached and readable, and the address is aligned when that is checked
(rules R43, R48, R175). -/
theorem memFault_eq_none_iff (s : State) (sg : Seg) (la : Word) (n : Nat) (need : List Nat) :
    s.memFault sg la n need = none ↔
      (∀ i ∈ need, s.segReaches sg (s.byteAddr la i) = true ∧ s.pageReadable (s.byteAddr la i) = true) ∧
        (s.alignCheck = true → need ≠ [] → la.toNat % n = 0) := by
  unfold State.memFault
  split
  · rename_i h
    simp only [List.any_eq_true, Bool.not_eq_true'] at h
    obtain ⟨i, hi, hr⟩ := h
    constructor
    · intro h
      cases h
    · intro h
      have := (h.1 i hi).1
      rw [hr] at this
      cases this
  · rename_i h
    simp only [List.any_eq_true, Bool.not_eq_true', not_exists, not_and, Bool.not_eq_false] at h
    split
    · rename_i i hf
      constructor
      · intro h
        cases h
      · intro h2
        have h3 := List.find?_some hf
        simp only [Bool.not_eq_true'] at h3
        have h4 := (h2.1 i (List.mem_of_find?_eq_some hf)).2
        rw [h3] at h4
        cases h4
    · rename_i hf
      simp only [List.find?_eq_none, Bool.not_eq_true', Bool.not_eq_false] at hf
      split
      · rename_i ha
        simp only [Bool.and_eq_true, Bool.not_eq_true', bne_iff_ne, ne_eq, List.isEmpty_eq_false_iff] at ha
        constructor
        · intro h
          cases h
        · intro h2
          exact absurd (h2.2 ha.1.1 ha.1.2) ha.2
      · rename_i ha
        simp only [Bool.and_eq_true, Bool.not_eq_true', bne_iff_ne, ne_eq, List.isEmpty_eq_false_iff, not_and,
          Decidable.not_not] at ha
        exact ⟨fun _ => ⟨fun i hi => ⟨h i hi, hf i hi⟩, fun h1 h2 => ha ⟨h1, h2⟩⟩, fun _ => rfl⟩

/-- A fault of a read is one of the four memory faults (rule R175). -/
theorem memFault_isMemory {s : State} {sg : Seg} {la : Word} {n : Nat} {need : List Nat} {f : Fault}
    (h : s.memFault sg la n need = some f) : f.isMemory = true := by
  unfold State.memFault at h
  split at h
  · cases h
    split <;> rfl
  · split at h
    · cases h
      rfl
    · split at h
      · cases h
        rfl
      · cases h

/-- `Admit` byte by byte (rule R48). -/
theorem admits_iff (s : State) (la : Word) (n : Nat) (sg : Seg) :
    s.admits la n sg = true ↔
      ∀ i < n, s.segReaches sg (s.byteAddr la i) = true ∧ s.pageReadable (s.byteAddr la i) = true := by
  simp [State.admits, List.all_eq_true]

/-! ## The program text -/

/-- What can be fetched lies in the program and below the top of both spaces, before the program counter wraps (rules R24,
R204). -/
theorem progRemaining_bounds {s : State} (h : s.progRemaining ≠ 0) :
    s.wrapped = false ∧
    s.params.progBase.toNat ≤ s.rip.toNat ∧
    s.rip.toNat + s.progRemaining ≤ s.params.progBase.toNat + s.params.progLen ∧
    s.rip.toNat + s.progRemaining ≤ addressTop s.params.mode ∧
    (s.linear .cs s.rip).toNat + s.progRemaining ≤ addressTop s.params.mode := by
  unfold State.progRemaining State.pcCount at h ⊢
  dsimp only at h ⊢
  cases hw : s.wrapped <;> rw [hw] at h <;> simp only [if_true, Bool.false_eq_true, if_false] at h ⊢ <;> split at h
  · rename_i hb
    rw [if_pos hb]
    refine ⟨trivial, ?_⟩
    omega
  · exact absurd rfl h
  · omega
  · exact absurd rfl h

end Sys2Proof.Machine
end

