-- ==== Sys2Proof/Laws/Operands.lean ====
section
/-! SUPPORT. What the shared operand operations can do: the write-backs bit by bit, the source fetch, and one inversion
lemma for the step that every form shares (rules R101 to R104, R109, R173 to R177). -/

namespace Sys2Proof.Machine

/-! ## Write-back -/

/-- Bit `b` after a legacy write-back: the new value below bit 128, the old from there on (rule R102). -/
theorem legacyWriteBack_getLsbD (old t : Vec) (b : Nat) :
    (legacyWriteBack old t).getLsbD b = if b < 128 then t.getLsbD b else old.getLsbD b := by
  rw [legacyWriteBack]
  erw [BitVec.getLsbD_append]
  by_cases h : b < 128
  · simp [h]
  · simp only [h, if_false, BitVec.getLsbD_extractLsb']
    by_cases h2 : b < 512
    · have h3 : b - 128 < 384 := by omega
      have h4 : 128 + (b - 128) = b := by omega
      simp [h3, h4]
    · have h3 : ¬ b - 128 < 384 := by omega
      simp [h3, BitVec.getLsbD_of_ge old b (by omega)]

/-- Bit `b` after an EVEX write-back: below the vector length the bit of the new value, of zero or of the old value, by
the element it lies in; zero above (rule R104). -/
theorem evexWriteBack_getLsbD {sh : Shape} (hd : 0 < sh.dw) (hd64 : sh.dw ≤ 64) (active : Nat → Bool) (z : Bool)
    (old t : Vec) (b : Nat) :
    (evexWriteBack sh active z old t).getLsbD b =
      (decide (b < 512) && decide (b / sh.dw < sh.kl) &&
        if active (b / sh.dw) then t.getLsbD b else if z then false else old.getLsbD b) := by
  rw [evexWriteBack, packElems_getLsbD hd]
  have h1 : b % sh.dw < sh.dw := Nat.mod_lt b hd
  have h2 : b % sh.dw < 64 := by omega
  have h3 : b / sh.dw * sh.dw + b % sh.dw = b := by
    rw [Nat.mul_comm]
    exact Nat.div_add_mod b sh.dw
  split
  · rw [elem_getLsbD, h3]
    simp [h1, h2]
  · split
    · simp
    · rw [elem_getLsbD, h3]
      simp [h1, h2]

/-- Without a writemask an EVEX write-back is the new value (rules R84, R104). -/
theorem evexWriteBack_unmasked {sh : Shape} (hd : 0 < sh.dw) (hd64 : sh.dw ≤ 64) (z : Bool) (old v : Vec) (sw : Nat) :
    evexWriteBack sh (fun _ => true) z old (pzx sw sh.dw sh.kl v) = pzx sw sh.dw sh.kl v := by
  apply BitVec.eq_of_getLsbD_eq
  intro b _
  rw [evexWriteBack_getLsbD hd hd64, if_pos rfl, pzx, packElems_getLsbD hd]
  simp only [← Bool.and_assoc, Bool.and_self]

/-! ## Source -/

/-- A register source is read without fault (rule R175). -/
@[simp] theorem source_reg {k : Nat} (s : State) (a : Bool) (g : Option Seg) (len n nbytes : Nat) (need : List Nat)
    (r : BitVec k) : s.source a g len n nbytes need (.reg r) = .ok (lowBits (8 * nbytes) (s.zmmRead (r.setWidth 5))) :=
  rfl

/-- A memory source whose read raises no memory fault is the bytes at its address (rules R41, R101). -/
theorem source_mem_ok {k : Nat} {s : State} {a : Bool} {g : Option Seg} {len n nbytes : Nat} {need : List Nat}
    {m : MemOp} (h : s.memFault (segOf g m) (s.memAddr a g len n m) nbytes need = none) :
    s.source a g len n nbytes need (.mem m : Src k) = .ok (s.memRead (s.memAddr a g len n m) nbytes) := by
  simp [State.source, h]

/-- A memory source whose read raises a memory fault raises that one (rule R175). -/
theorem source_mem_error {k : Nat} {s : State} {a : Bool} {g : Option Seg} {len n nbytes : Nat} {need : List Nat}
    {m : MemOp} {f : Fault} (h : s.memFault (segOf g m) (s.memAddr a g len n m) nbytes need = some f) :
    s.source a g len n nbytes need (.mem m : Src k) = .error f := by
  simp [State.source, h]

/-- A source that faults is memory, and the fault is a memory fault (rule R175). -/
theorem source_error {k : Nat} {s : State} {a : Bool} {g : Option Seg} {len n nbytes : Nat} {need : List Nat}
    {src : Src k} {f : Fault} (h : s.source a g len n nbytes need src = .error f) :
    f.isMemory = true ∧ ∃ m, src = .mem m := by
  cases src with
  | reg r => cases h
  | mem m =>
    cases hf : s.memFault (segOf g m) (s.memAddr a g len n m) nbytes need with
    | none =>
      rw [source_mem_ok hf] at h
      cases h
    | some f' =>
      rw [source_mem_error hf] at h
      cases h
      exact ⟨memFault_isMemory hf, m, rfl⟩

/-! ## The shared step -/

/-- All that the shared step can do: #UD when not enabled, #NM when CR0.TS = 1, the source's fault, or the destination
and the program counter written together (rules R109, R170, R173 to R176). -/
theorem runForm_cases (s : State) (en : Bool) (src : Except Fault Vec) (d : BitVec 5) (res : Vec → Vec) (len : Nat) :
    (en = false ∧ s.runForm en src d res len = .fault .ud) ∨
    (en = true ∧ s.crTs = true ∧ s.runForm en src d res len = .fault .nm) ∨
    (∃ f, en = true ∧ s.crTs = false ∧ src = .error f ∧ s.runForm en src d res len = .fault f) ∨
    (∃ v, en = true ∧ s.crTs = false ∧ src = .ok v ∧
      s.runForm en src d res len = .next ((s.zmmWrite d (res v)).advance len)) := by
  cases en with
  | false => exact .inl ⟨rfl, rfl⟩
  | true =>
    cases ht : s.crTs with
    | true => exact .inr (.inl ⟨rfl, rfl, by simp [State.runForm, ht, raise]⟩)
    | false =>
      cases src with
      | error f => exact .inr (.inr (.inl ⟨f, rfl, rfl, rfl, by simp [State.runForm, ht, raise]⟩))
      | ok v => exact .inr (.inr (.inr ⟨v, rfl, rfl, rfl, by simp [State.runForm, ht]⟩))

/-- When the shared step answers a next state, this is it. -/
theorem runForm_next {s t : State} {en : Bool} {src : Except Fault Vec} {d : BitVec 5} {res : Vec → Vec} {len : Nat}
    (h : s.runForm en src d res len = .next t) :
    en = true ∧ s.crTs = false ∧ ∃ v, src = .ok v ∧ t = (s.zmmWrite d (res v)).advance len := by
  rcases runForm_cases s en src d res len with ⟨_, e⟩ | ⟨_, _, e⟩ | ⟨_, _, _, _, e⟩ | ⟨v, h1, h2, h3, e⟩
  · rw [e] at h
    cases h
  · rw [e] at h
    cases h
  · rw [e] at h
    cases h
  · rw [e] at h
    cases h
    exact ⟨h1, h2, v, h3, rfl⟩

/-- An enabled form with CR0.TS = 0 and a source completes. -/
theorem runForm_ok {s : State} {src : Except Fault Vec} {v : Vec} (ht : s.crTs = false) (hv : src = .ok v)
    (d : BitVec 5) (res : Vec → Vec) (len : Nat) :
    s.runForm true src d res len = .next ((s.zmmWrite d (res v)).advance len) := by
  simp [State.runForm, ht, hv]

/-- The shared step never refuses. -/
theorem runForm_not_refused (s : State) (en : Bool) (src : Except Fault Vec) (d : BitVec 5) (res : Vec → Vec)
    (len : Nat) (r : Refusal) : s.runForm en src d res len ≠ .refused r := by
  intro h
  rcases runForm_cases s en src d res len with ⟨_, e⟩ | ⟨_, _, e⟩ | ⟨_, _, _, _, e⟩ | ⟨_, _, _, _, e⟩ <;>
    (rw [e] at h; cases h)

/-! ## The program counter -/

/-- The next program counter as a number (rule R24). -/
theorem nextRip_toNat (s : State) (n : Nat) :
    (s.nextRip n).toNat =
      (s.rip.toNat + n) % (match s.params.mode with | .long64 => 2 ^ 64 | .prot32 => 2 ^ 32) := by
  unfold State.nextRip wrapTo
  split <;> simp_all [BitVec.toNat_add, BitVec.toNat_setWidth, BitVec.toNat_ofNat]
  omega

/-- The program counter counted on past the top grows by the length of an instruction that crosses nothing (rules R24,
R204). -/
theorem advance_pcCount {s : State} {n : Nat} (hw : s.wrapped = false) (h : s.rip.toNat + n ≤ addressTop s.params.mode) :
    (s.advance n).pcCount = s.pcCount + n := by
  have e := nextRip_toNat s n
  by_cases hc : addressTop s.params.mode ≤ s.rip.toNat + n <;>
    simp only [State.pcCount, advance_wrapped, advance_rip, advance_params, hw, hc, Bool.false_or, decide_true, decide_false,
      if_true, Bool.false_eq_true, if_false, e] <;>
    cases hm : s.params.mode <;> simp only [hm, addressTop] at h hc ⊢ <;> omega

end Sys2Proof.Machine
end

