-- ==== Sys2Proof/Laws/Forms.lean ====
section
/-! SUPPORT. All 36 meanings as one: each form is the shared step with the widths, flags, operands and write-back that the
table of Sys2Proof/Safety.lean gives it. A proof about every form goes through `exec_eq`. -/

namespace Sys2Proof.Machine

/-- The widths of a form, from the table. -/
def formShape (i : Instr) : Shape := ⟨srcWidth (convOf i), dstWidth (convOf i), klOf i⟩

/-- The source offsets that must be admitted. -/
def formNeed (i : Instr) (s : State) : List Nat :=
  match i.operands with
  | .legacy _ => List.range (nbytesOf i)
  | .vex _ => List.range (nbytesOf i)
  | .evex o => s.evexNeed (formShape i) o.aaa

/-- The source, or its memory fault. -/
def formSource (i : Instr) (s : State) : Except Fault Vec :=
  s.source (adr67Of i) (overrideOf i) i.len (dispScaleOf i) (nbytesOf i) (formNeed i s) (srcOf i)

/-- What is written to the destination for a source value. -/
def formResult (i : Instr) (s : State) (v : Vec) : Vec :=
  let t := pzx (srcWidth (convOf i)) (dstWidth (convOf i)) (klOf i) v
  match i.operands with
  | .legacy _ => legacyWriteBack (s.zmmRead (destOf i)) t
  | .vex _ => t
  | .evex o => evexWriteBack (formShape i) (s.active o.aaa) o.z (s.zmmRead (destOf i)) t

/-- Widening a register number does not change the source. -/
theorem source_widenSrc (s : State) (a : Bool) (g : Option Seg) (len n nbytes : Nat) (need : List Nat) (x : Src 4) :
    s.source a g len n nbytes need (widenSrc x) = s.source a g len n nbytes need x := by
  cases x <;> rfl

/-- A legacy form's step, its parameters named. -/
theorem runLegacy_eq {i : Instr} {o : LegacyOps} {sh : Shape} (s : State) (ho : i.operands = .legacy o)
    (hs : formShape i = sh) (hn : nbytesOf i = sh.nbytes) :
    runLegacy sh o s = s.runForm (enabledFor i s) (formSource i s) (destOf i) (formResult i s) i.len := by
  have hr : formResult i s = fun v => legacyWriteBack (s.zmmRead (o.d.setWidth 5)) (pzx sh.sw sh.dw sh.kl v) := by
    subst hs
    funext v
    simp only [formResult, destOf, ho, formShape]
  simp only [runLegacy, formSource, formNeed, enabledFor, adr67Of, overrideOf, dispScaleOf, destOf, srcOf,
    Instr.len, Operands.len, ho, source_widenSrc, hn, hr]

/-- A VEX form's step, its parameters named. -/
theorem runVex_eq {i : Instr} {o : VexOps} {sh : Shape} {feat : Bool} (s : State) (ho : i.operands = .vex o)
    (hs : formShape i = sh) (hn : nbytesOf i = sh.nbytes) (hf : (if vlOf i = 128 then s.hasAvx else s.hasAvx2) = feat) :
    runVex sh feat o s = s.runForm (enabledFor i s) (formSource i s) (destOf i) (formResult i s) i.len := by
  have hr : formResult i s = fun v => pzx sh.sw sh.dw sh.kl v := by
    subst hs
    funext v
    simp only [formResult, ho, formShape]
  simp only [runVex, formSource, formNeed, enabledFor, adr67Of, overrideOf, dispScaleOf, destOf, srcOf,
    Instr.len, Operands.len, ho, source_widenSrc, hn, hf, hr]

/-- An EVEX form's step, its parameters named. -/
theorem runEvex_eq {i : Instr} {o : EvexOps} {sh : Shape} {t : Tuple} {feat : Bool} (s : State)
    (ho : i.operands = .evex o) (hs : formShape i = sh) (hn : nbytesOf i = sh.nbytes)
    (ht : dispScaleOf i = t.scale sh.vl)
    (hf : ((if convOf i = .bw then s.hasAvx512bw else s.hasAvx512f) && (vlOf i == 512 || s.hasAvx512vl)) = feat) :
    runEvex sh t feat o s = s.runForm (enabledFor i s) (formSource i s) (destOf i) (formResult i s) i.len := by
  have hr : formResult i s = fun v =>
      evexWriteBack sh (s.active o.aaa) o.z (s.zmmRead o.d) (pzx sh.sw sh.dw sh.kl v) := by
    subst hs
    funext v
    simp only [formResult, destOf, ho, formShape]
  simp only [runEvex, formSource, formNeed, enabledFor, adr67Of, overrideOf, destOf, srcOf, Instr.len,
    Operands.len, ho, hn, hf, ht, hr, hs]

/-- Every form is the shared step of rule R109 with the table's parameters. -/
theorem exec_eq (i : Instr) (s : State) :
    exec i s = s.runForm (enabledFor i s) (formSource i s) (destOf i) (formResult i s) i.len := by
  cases i <;> first
    | (refine runLegacy_eq s rfl ?_ ?_ <;>
        simp [formShape, nbytesOf, klOf, vlOf, dstWidth, srcWidth, convOf, Shape.nbytes])
    | (refine runVex_eq s rfl ?_ ?_ rfl <;>
        simp [formShape, nbytesOf, klOf, vlOf, dstWidth, srcWidth, convOf, Shape.nbytes])
    | (refine runEvex_eq s rfl ?_ ?_ ?_ ?_ <;>
        simp [formShape, nbytesOf, klOf, vlOf, dstWidth, srcWidth, convOf, Shape.nbytes, dispScaleOf, Instr.operands,
          Tuple.scale, Shape.vl])

/-! ## The table's numbers -/

/-- The vector length is one of three (rules R62, R64, R66). -/
theorem vlOf_cases (i : Instr) : vlOf i = 128 ∨ vlOf i = 256 ∨ vlOf i = 512 := by
  cases i <;> simp [vlOf]

/-- The widths of a form: element sizes in whole bytes, sources no wider than 32 bits, and `KL * dw = VL`,
`KL * sw / 8 = nbytes` (rules R42, R79, R101). -/
theorem form_numbers (i : Instr) :
    8 * (srcWidth (convOf i) / 8) = srcWidth (convOf i) ∧ 8 * (dstWidth (convOf i) / 8) = dstWidth (convOf i) ∧
      0 < srcWidth (convOf i) ∧ srcWidth (convOf i) < dstWidth (convOf i) ∧ dstWidth (convOf i) ≤ 64 ∧
      klOf i * dstWidth (convOf i) = vlOf i ∧ klOf i * (srcWidth (convOf i) / 8) = nbytesOf i ∧ 2 ≤ klOf i ∧
      klOf i ≤ 32 ∧ nbytesOf i ≤ 32 := by
  have h := vlOf_cases i
  unfold nbytesOf klOf
  generalize convOf i = c
  rcases h with h | h | h <;> rw [h] <;> cases c <;> decide

/-! ## The source -/

/-- The offsets that must be admitted: all of the operand's, or those of the elements that are written (rule R177). -/
theorem mem_formNeed (i : Instr) (s : State) (k : Nat) :
    k ∈ formNeed i s ↔
      k < nbytesOf i ∧ (suppresses i s = true → elementWritten i s (k / (srcWidth (convOf i) / 8)) = true) := by
  have hn : (formShape i).nbytes = nbytesOf i := rfl
  unfold formNeed suppresses elementWritten
  cases h : i.operands with
  | legacy o => simp
  | vex o => simp
  | evex o =>
    simp only [State.evexNeed, hn]
    cases hf : s.params.faultSuppression with
    | false => simp
    | true => simp [State.active, formShape]

/-- Two sums of offsets are one. -/
theorem byteAddr_add (s : State) (la : Word) (a b : Nat) :
    s.byteAddr (la + BitVec.ofNat 64 a) b = s.byteAddr la (a + b) := by
  unfold State.byteAddr
  rw [BitVec.add_assoc, ← BitVec.ofNat_add]

/-- A memory source raises no memory fault exactly when it is readable in the terms of the claims (rules R43, R175,
R177). -/
theorem memFault_none_iff {i : Instr} {s : State} {m : MemOp} (hm : srcOf i = .mem m) :
    s.memFault (segOf (overrideOf i) m) (addrOf i s m) (nbytesOf i) (formNeed i s) = none ↔ readableFor i s = true := by
  obtain ⟨h1, _, h3, _, _, _, h7, h8, _, _⟩ := form_numbers i
  have hsb : 0 < srcWidth (convOf i) / 8 := by omega
  rw [memFault_eq_none_iff]
  unfold readableFor
  rw [hm]
  simp only [Bool.and_eq_true]
  have hA : (∀ k ∈ formNeed i s, s.segReaches (segOf (overrideOf i) m) (s.byteAddr (addrOf i s m) k) = true ∧
      s.pageReadable (s.byteAddr (addrOf i s m) k) = true) ↔ readAdmitted i s m = true := by
    unfold readAdmitted
    cases hs : suppresses i s with
    | false => simp [mem_formNeed, hs, admits_iff]
    | true =>
      simp only [if_true, List.all_eq_true, List.mem_range, Bool.or_eq_true, Bool.not_eq_true', admits_iff,
        byteAddr_add, mem_formNeed, hs, true_implies]
      constructor
      · intro h j hj
        cases hw : elementWritten i s j with
        | false => exact .inl rfl
        | true =>
          refine .inr fun b hb => h _ ⟨?_, ?_⟩
          · rw [← h7]
            calc j * (srcWidth (convOf i) / 8) + b < (j + 1) * (srcWidth (convOf i) / 8) := by
                  rw [Nat.succ_mul]; omega
              _ ≤ klOf i * (srcWidth (convOf i) / 8) := Nat.mul_le_mul_right _ hj
          · rw [Nat.mul_comm, Nat.mul_add_div hsb, Nat.div_eq_of_lt hb, Nat.add_zero, hw]
      · intro h k hk
        have hj : k / (srcWidth (convOf i) / 8) < klOf i := by
          rw [Nat.div_lt_iff_lt_mul hsb, h7]; exact hk.1
        rcases h _ hj with hw | hw
        · rw [hw] at hk
          cases hk.2
        · have := hw (k % (srcWidth (convOf i) / 8)) (Nat.mod_lt _ hsb)
          rwa [Nat.mul_comm, Nat.div_add_mod] at this
  have hB : formNeed i s ≠ [] ↔ readsSome i s = true := by
    unfold readsSome
    rw [List.ne_nil_iff_length_pos, List.length_pos_iff_exists_mem]
    cases hs : suppresses i s with
    | false =>
      simp only [mem_formNeed, hs]
      simp only [Bool.not_false, Bool.true_or, iff_true]
      have : 2 * 1 ≤ klOf i * (srcWidth (convOf i) / 8) := Nat.mul_le_mul h8 hsb
      exact ⟨0, by omega, by simp⟩
    | true =>
      simp only [mem_formNeed, hs, Bool.not_true, Bool.false_or, List.any_eq_true, List.mem_range, true_implies]
      constructor
      · rintro ⟨k, hk, hw⟩
        exact ⟨_, by rw [Nat.div_lt_iff_lt_mul hsb, h7]; exact hk, hw⟩
      · rintro ⟨j, hj, hw⟩
        refine ⟨j * (srcWidth (convOf i) / 8), ?_, ?_⟩
        · rw [← h7]
          exact Nat.mul_lt_mul_of_pos_right hj hsb
        · rw [Nat.mul_div_cancel _ hsb, hw]
  rw [hA, hB]
  cases s.alignCheck <;> cases readsSome i s <;> simp

/-- The source is there exactly when it is readable (rules R175 to R177). -/
theorem formSource_ok_iff (i : Instr) (s : State) : (∃ v, formSource i s = .ok v) ↔ readableFor i s = true := by
  cases hm : srcOf i with
  | reg r =>
    refine ⟨fun _ => by simp [readableFor, hm], fun _ => ?_⟩
    exact ⟨_, by rw [formSource, hm, source_reg]⟩
  | mem m =>
    rw [← memFault_none_iff hm]
    constructor
    · rintro ⟨v, hv⟩
      cases hf : s.memFault (segOf (overrideOf i) m) (addrOf i s m) (nbytesOf i) (formNeed i s) with
      | none => rfl
      | some f =>
        rw [formSource, hm, source_mem_error hf] at hv
        cases hv
    · intro h
      exact ⟨_, by rw [formSource, hm]; exact source_mem_ok h⟩

/-! ## Bytes of the result -/

/-- Bit `b` of byte `n` of a vector. -/
theorem vecByte_getLsbD (v : Vec) (n b : Nat) : (vecByte v n).getLsbD b = (decide (b < 8) && v.getLsbD (8 * n + b)) := by
  simp [vecByte, BitVec.getLsbD_extractLsb']

/-- Byte `n` of a source value is byte `n` of the operand (rules R41, R101). -/
theorem formSource_byte {i : Instr} {s : State} {v : Vec} (hv : formSource i s = .ok v) {n : Nat} (hn : n < nbytesOf i) :
    vecByte v n = srcByteOf i s n := by
  have hn32 : nbytesOf i ≤ 32 := (form_numbers i).2.2.2.2.2.2.2.2.2
  unfold formSource at hv
  unfold srcByteOf
  cases hm : srcOf i with
  | reg r =>
    rw [hm, source_reg] at hv
    cases hv
    apply BitVec.eq_of_getLsbD_eq
    intro b hb
    have h1 : 8 * n + b < 8 * nbytesOf i := by omega
    simp [vecByte_getLsbD, h1]
  | mem m =>
    rw [hm] at hv
    cases hf : s.memFault (segOf (overrideOf i) m) (addrOf i s m) (nbytesOf i) (formNeed i s) with
    | some f => rw [source_mem_error hf] at hv; cases hv
    | none =>
      rw [source_mem_ok hf] at hv
      cases hv
      apply BitVec.eq_of_getLsbD_eq
      intro b hb
      have h1 : 8 * n + b < 512 := by omega
      have h2 : (8 * n + b) / 8 = n := by omega
      have h3 : (8 * n + b) % 8 = b := by omega
      rw [vecByte_getLsbD, memRead_getLsbD, h2, h3]
      simp [h1, hb, hn, addrOf]

/-- An enabled form's vector length fits in a vector register (rules R5, R173). -/
theorem vlOf_le_maxvl {i : Instr} {s : State} (he : enabledFor i s = true) : vlOf i ≤ s.maxvl := by
  have hm := maxvl_cases s
  have hv := vlOf_cases i
  unfold enabledFor at he
  cases ho : i.operands with
  | legacy o =>
    have : vlOf i = 128 := by cases i <;> first | rfl | cases ho
    omega
  | vex o =>
    have h2 : vlOf i = 128 ∨ vlOf i = 256 := by cases i <;> first | exact .inl rfl | exact .inr rfl | cases ho
    rw [ho] at he
    rcases h2 with h2 | h2
    · omega
    · simp only [h2, Nat.reduceEqDiff, if_false, Bool.and_eq_true] at he
      unfold State.maxvl at hm ⊢
      simp only [he.1, Bool.or_true, if_true] at hm ⊢
      split <;> omega
  | evex o =>
    rw [ho] at he
    simp only [Bool.and_eq_true] at he
    have h512 : s.anyAvx512 = true := by
      unfold State.anyAvx512
      have h := he.1.1
      split at h <;> simp [h]
    simp only [State.maxvl, h512, if_true]
    omega

/-- Byte `n` of the zero-extended elements (rule R100). -/
theorem pzx_byte {i : Instr} {s : State} {v : Vec} (hv : formSource i s = .ok v) {n : Nat} (hn : n < vlOf i / 8) :
    vecByte (pzx (srcWidth (convOf i)) (dstWidth (convOf i)) (klOf i) v) n = widenedByte i s n := by
  obtain ⟨h1, h2, h3, h4, h5, h6, h7, _, _, h10⟩ := form_numbers i
  have hvl := vlOf_cases i
  have hb8 : 8 * n < vlOf i := by omega
  apply BitVec.eq_of_getLsbD_eq
  intro b hb
  unfold widenedByte
  rw [vecByte_getLsbD, pzx_getLsbD (by omega) (by omega)]
  generalize srcWidth (convOf i) / 8 = sB at *
  generalize hD : dstWidth (convOf i) / 8 = dB at *
  have hdB : 0 < dB := by omega
  have hdiv : (8 * n + b) / dstWidth (convOf i) = n / dB := by
    rw [← h2, ← Nat.div_div_eq_div_mul]
    congr 1
    omega
  have hmod : (8 * n + b) % dstWidth (convOf i) = 8 * (n % dB) + b := by
    rw [← h2, Nat.mod_mul, show (8 * n + b) / 8 = n by omega]
    omega
  have hlt : n / dB < klOf i := by
    rw [Nat.div_lt_iff_lt_mul hdB]
    have : klOf i * (8 * dB) = vlOf i := by rw [h2]; exact h6
    have e : klOf i * (8 * dB) = 8 * (klOf i * dB) := by ring
    omega
  rw [hdiv, hmod]
  by_cases hs : n % dB < sB
  · have e1 : 8 * (n % dB) + b < srcWidth (convOf i) := by omega
    have e2 : 8 * n + b < 512 := by omega
    have e3 : n / dB * srcWidth (convOf i) + (8 * (n % dB) + b) = 8 * (n / dB * sB + n % dB) + b := by
      rw [← h1]; ring
    have e4 : n / dB * sB + n % dB < nbytesOf i := by
      rw [← h7]
      calc n / dB * sB + n % dB < (n / dB + 1) * sB := by rw [Nat.succ_mul]; omega
        _ ≤ klOf i * sB := Nat.mul_le_mul_right _ hlt
    rw [if_pos hs, ← formSource_byte hv e4, vecByte_getLsbD, e3]
    simp [hb, e1, e2, hlt]
  · have e1 : ¬ 8 * (n % dB) + b < srcWidth (convOf i) := by omega
    rw [if_neg hs]
    simp [e1]

/-- Byte `n` of what an enabled form with a source writes (rules R102 to R104). -/
theorem formResult_byte {i : Instr} {s : State} {v : Vec} (he : enabledFor i s = true) (hv : formSource i s = .ok v)
    (n : Nat) : vecByte (lowBits s.maxvl (formResult i s v)) n = resultByte i s n := by
  have hle := vlOf_le_maxvl he
  have hvl := vlOf_cases i
  obtain ⟨h1, h2, h3, h4, h5, h6, h7, _, _, h10⟩ := form_numbers i
  have hp := fun h : n < vlOf i / 8 => pzx_byte hv h
  apply BitVec.eq_of_getLsbD_eq
  intro b hb
  have hin : n < vlOf i / 8 → 8 * n + b < vlOf i := fun h => by omega
  have hout : ¬ n < vlOf i / 8 → ¬ 8 * n + b < vlOf i := fun h => by omega
  have hdw : 0 < dstWidth (convOf i) := by omega
  have hdB : 0 < dstWidth (convOf i) / 8 := by omega
  have hdiv : (8 * n + b) / dstWidth (convOf i) = n / (dstWidth (convOf i) / 8) := by
    conv_lhs => rw [← h2, ← Nat.div_div_eq_div_mul]
    congr 1
    omega
  have hkl : (8 * n + b) / dstWidth (convOf i) < klOf i ↔ 8 * n + b < vlOf i := by
    rw [Nat.div_lt_iff_lt_mul hdw, h6]
  have hpb : n < vlOf i / 8 →
      (pzx (srcWidth (convOf i)) (dstWidth (convOf i)) (klOf i) v).getLsbD (8 * n + b) = (widenedByte i s n).getLsbD b := by
    intro h
    rw [← hp h, vecByte_getLsbD]
    simp [hb]
  have habove : ¬ n < vlOf i / 8 →
      (pzx (srcWidth (convOf i)) (dstWidth (convOf i)) (klOf i) v).getLsbD (8 * n + b) = false := by
    intro h
    exact packElems_above hdw _ (by rw [h6]; have := hout h; omega)
  unfold resultByte formResult
  rw [vecByte_getLsbD, lowBits_getLsbD]
  cases ho : i.operands with
  | legacy o =>
    have h128 : vlOf i = 128 := by cases i <;> first | rfl | cases ho
    simp only [legacyWriteBack_getLsbD]
    by_cases hc : n < vlOf i / 8
    · have e1 := hin hc
      have e2 : 8 * n + b < s.maxvl := by omega
      have e3 : 8 * n + b < 128 := by omega
      simp [hc, hb, e2, e3, hpb hc]
    · have e1 := hout hc
      have e3 : ¬ 8 * n + b < 128 := by omega
      simp only [hc, if_false, vecByte_getLsbD, e3, State.zmmRead, lowBits_getLsbD]
      cases hx : decide (8 * n + b < s.maxvl) <;> simp [hb]
  | vex o =>
    by_cases hc : n < vlOf i / 8
    · have e2 : 8 * n + b < s.maxvl := by have := hin hc; omega
      simp [hc, hb, e2, hpb hc]
    · simp [hc, habove hc]
  | evex o =>
    have hw : elementWritten i s (n / (dstWidth (convOf i) / 8)) = s.active o.aaa (n / (dstWidth (convOf i) / 8)) := by
      simp only [elementWritten, ho, State.active]
    have hsd : (formShape i).dw = dstWidth (convOf i) := rfl
    have hsk : (formShape i).kl = klOf i := rfl
    have hw512 : 8 * n + b < vlOf i → 8 * n + b < 512 := fun _ => by omega
    rw [evexWriteBack_getLsbD (by rw [hsd]; exact hdw) (by rw [hsd]; exact h5), hsd, hsk, hdiv]
    by_cases hc : n < vlOf i / 8
    · have e1 := hin hc
      have e2 : 8 * n + b < s.maxvl := by omega
      have e4 : n / (dstWidth (convOf i) / 8) < klOf i := by rw [← hdiv]; exact hkl.mpr e1
      simp only [hc, if_true, hw, hb, e2, hw512 e1, e4, decide_true, Bool.true_and]
      cases s.active o.aaa (n / (dstWidth (convOf i) / 8)) with
      | true => simpa using hpb hc
      | false =>
        cases o.z with
        | true => simp
        | false => simp only [Bool.false_eq_true, if_false, vecByte_getLsbD, hb, decide_true, Bool.true_and]
    · have e4 : ¬ n / (dstWidth (convOf i) / 8) < klOf i := by
        rw [← hdiv, hkl]; exact hout hc
      simp [hc, e4]

end Sys2Proof.Machine
end

