-- ==== Sys2Proof/Laws/PerInstr.lean ====
section
/-! SUPPORT. One law per instruction form: its length is within the bounds of spec/30_encoding.md rule R60. -/

/-- Every form takes 5 to 13 bytes (rule R60). -/
def Sys2Proof.Laws.LenBounds.Statement (i : Sys2Proof.Instr) : Prop := 5 ≤ i.len ∧ i.len ≤ 13

namespace Sys2Proof.Laws.LenBounds

theorem pmovzxbw (o : LegacyOps) : Statement (.pmovzxbw o) := o.len_bounds
theorem pmovzxbd (o : LegacyOps) : Statement (.pmovzxbd o) := o.len_bounds
theorem pmovzxbq (o : LegacyOps) : Statement (.pmovzxbq o) := o.len_bounds
theorem pmovzxwd (o : LegacyOps) : Statement (.pmovzxwd o) := o.len_bounds
theorem pmovzxwq (o : LegacyOps) : Statement (.pmovzxwq o) := o.len_bounds
theorem pmovzxdq (o : LegacyOps) : Statement (.pmovzxdq o) := o.len_bounds
theorem vpmovzxbwVex128 (o : VexOps) : Statement (.vpmovzxbwVex128 o) := o.len_bounds
theorem vpmovzxbdVex128 (o : VexOps) : Statement (.vpmovzxbdVex128 o) := o.len_bounds
theorem vpmovzxbqVex128 (o : VexOps) : Statement (.vpmovzxbqVex128 o) := o.len_bounds
theorem vpmovzxwdVex128 (o : VexOps) : Statement (.vpmovzxwdVex128 o) := o.len_bounds
theorem vpmovzxwqVex128 (o : VexOps) : Statement (.vpmovzxwqVex128 o) := o.len_bounds
theorem vpmovzxdqVex128 (o : VexOps) : Statement (.vpmovzxdqVex128 o) := o.len_bounds
theorem vpmovzxbwVex256 (o : VexOps) : Statement (.vpmovzxbwVex256 o) := o.len_bounds
theorem vpmovzxbdVex256 (o : VexOps) : Statement (.vpmovzxbdVex256 o) := o.len_bounds
theorem vpmovzxbqVex256 (o : VexOps) : Statement (.vpmovzxbqVex256 o) := o.len_bounds
theorem vpmovzxwdVex256 (o : VexOps) : Statement (.vpmovzxwdVex256 o) := o.len_bounds
theorem vpmovzxwqVex256 (o : VexOps) : Statement (.vpmovzxwqVex256 o) := o.len_bounds
theorem vpmovzxdqVex256 (o : VexOps) : Statement (.vpmovzxdqVex256 o) := o.len_bounds
theorem vpmovzxbwEvex128 (o : EvexOps) : Statement (.vpmovzxbwEvex128 o) := o.len_bounds
theorem vpmovzxbwEvex256 (o : EvexOps) : Statement (.vpmovzxbwEvex256 o) := o.len_bounds
theorem vpmovzxbwEvex512 (o : EvexOps) : Statement (.vpmovzxbwEvex512 o) := o.len_bounds
theorem vpmovzxbdEvex128 (o : EvexOps) : Statement (.vpmovzxbdEvex128 o) := o.len_bounds
theorem vpmovzxbdEvex256 (o : EvexOps) : Statement (.vpmovzxbdEvex256 o) := o.len_bounds
theorem vpmovzxbdEvex512 (o : EvexOps) : Statement (.vpmovzxbdEvex512 o) := o.len_bounds
theorem vpmovzxbqEvex128 (o : EvexOps) : Statement (.vpmovzxbqEvex128 o) := o.len_bounds
theorem vpmovzxbqEvex256 (o : EvexOps) : Statement (.vpmovzxbqEvex256 o) := o.len_bounds
theorem vpmovzxbqEvex512 (o : EvexOps) : Statement (.vpmovzxbqEvex512 o) := o.len_bounds
theorem vpmovzxwdEvex128 (o : EvexOps) : Statement (.vpmovzxwdEvex128 o) := o.len_bounds
theorem vpmovzxwdEvex256 (o : EvexOps) : Statement (.vpmovzxwdEvex256 o) := o.len_bounds
theorem vpmovzxwdEvex512 (o : EvexOps) : Statement (.vpmovzxwdEvex512 o) := o.len_bounds
theorem vpmovzxwqEvex128 (o : EvexOps) : Statement (.vpmovzxwqEvex128 o) := o.len_bounds
theorem vpmovzxwqEvex256 (o : EvexOps) : Statement (.vpmovzxwqEvex256 o) := o.len_bounds
theorem vpmovzxwqEvex512 (o : EvexOps) : Statement (.vpmovzxwqEvex512 o) := o.len_bounds
theorem vpmovzxdqEvex128 (o : EvexOps) : Statement (.vpmovzxdqEvex128 o) := o.len_bounds
theorem vpmovzxdqEvex256 (o : EvexOps) : Statement (.vpmovzxdqEvex256 o) := o.len_bounds
theorem vpmovzxdqEvex512 (o : EvexOps) : Statement (.vpmovzxdqEvex512 o) := o.len_bounds

end Sys2Proof.Laws.LenBounds
end

