-- ==== Sys2Proof/Laws/Prefixes.lean ====
section
/-! SUPPORT. What reading a string of legacy prefix bytes does, whatever their order (rules R62, R81, R85 (1)), and how
decoding goes on after it. -/

namespace Sys2Proof.Machine

/-- A legacy prefix byte is noted: what it adds to the counts. -/
theorem note_of_isLegacyPrefix {b : Byte} (h : isLegacyPrefix b) (p : Prefixes) :
    p.note b = some ⟨p.n66 + [b].count 0x66#8, p.n67 + [b].count 0x67#8, p.lock + [b].count 0xF0#8,
      p.nF2 + [b].count 0xF2#8, p.nF3 + [b].count 0xF3#8, p.segs ++ [b].filterMap segOfPrefix⟩ := by
  simp only [isLegacyPrefix, List.mem_cons, List.not_mem_nil, or_false] at h
  rcases h with h | h | h | h | h | h | h | h | h | h | h <;> subst h <;> simp [Prefixes.note, segOfPrefix]

/-- A byte that is no legacy prefix is not noted. -/
theorem note_eq_none {b : Byte} (h : ¬ isLegacyPrefix b) (p : Prefixes) : p.note b = none := by
  simp only [isLegacyPrefix, List.mem_cons, List.not_mem_nil, or_false, not_or] at h
  simp [Prefixes.note, segOfPrefix, h]

/-- Scanning a string of legacy prefix bytes counts them, and goes on with what follows. -/
theorem scanPrefixes_append {pre : List Byte} (h : ∀ b ∈ pre, isLegacyPrefix b) (p : Prefixes) (bs : List Byte) :
    scanPrefixes p (pre ++ bs) =
      scanPrefixes ⟨p.n66 + pre.count 0x66#8, p.n67 + pre.count 0x67#8, p.lock + pre.count 0xF0#8,
        p.nF2 + pre.count 0xF2#8, p.nF3 + pre.count 0xF3#8, p.segs ++ pre.filterMap segOfPrefix⟩ bs := by
  induction pre generalizing p with
  | nil => simp
  | cons b pre ih =>
    rw [List.cons_append, scanPrefixes_step (note_of_isLegacyPrefix (h b (by simp)) p), ih fun c hc => h c (by simp [hc])]
    congr 1
    simp only [Prefixes.mk.injEq]
    have hc : ∀ v : Byte, (b :: pre).count v = [b].count v + pre.count v := fun v => by
      rw [← List.count_append, List.singleton_append]
    refine ⟨?_, ?_, ?_, ?_, ?_, ?_⟩
    · rw [hc]; omega
    · rw [hc]; omega
    · rw [hc]; omega
    · rw [hc]; omega
    · rw [hc]; omega
    · rw [List.append_assoc, ← List.filterMap_append, List.singleton_append]

/-- The prefixes noted after a string of legacy prefix bytes. -/
def prefixesFrom (pre : List Byte) : Prefixes :=
  ⟨pre.count 0x66#8, pre.count 0x67#8, pre.count 0xF0#8, pre.count 0xF2#8, pre.count 0xF3#8, pre.filterMap segOfPrefix⟩

/-- Decoding after the legacy prefixes, without a REX byte. -/
theorem decode_append {m : Mode} {pre : List Byte} (h : ∀ b ∈ pre, isLegacyPrefix b) {b : Byte} (hb : ¬ isLegacyPrefix b)
    (hr : m = .long64 → b.extractLsb' 4 4 ≠ 4#4) (bs : List Byte) :
    decode m (pre ++ b :: bs) = decodeClass m (prefixesFrom pre) none (b :: bs) := by
  unfold decode
  rw [scanPrefixes_append h, scanPrefixes_stop (note_eq_none hb _)]
  have : takeRex m (b :: bs) = (none, b :: bs) := by
    simp only [takeRex]
    rw [if_neg]
    rintro ⟨h1, h2⟩
    exact hr h1 h2
  simp [this, Prefixes.empty, prefixesFrom]

/-- Decoding after the legacy prefixes and a REX byte. -/
theorem decode_append_rex {pre : List Byte} (h : ∀ b ∈ pre, isLegacyPrefix b) {r : Byte} (hr : r.extractLsb' 4 4 = 4#4)
    (bs : List Byte) : decode .long64 (pre ++ r :: bs) = decodeClass .long64 (prefixesFrom pre) (some r) bs := by
  have hb : ¬ isLegacyPrefix r := by
    unfold isLegacyPrefix
    revert r
    decide
  unfold decode
  rw [scanPrefixes_append h, scanPrefixes_stop (note_eq_none hb _)]
  simp [takeRex, hr, Prefixes.empty, prefixesFrom]

/-- Every string the encoder puts in front is of legacy prefix bytes. -/
theorem isLegacyPrefix_of_prefixBytes {a : Bool} {g : Option Seg} {b : Byte} (h : b ∈ prefixBytes a g) :
    isLegacyPrefix b := by
  revert h
  unfold isLegacyPrefix
  cases a <;> rcases g with _ | _ | _ | _ | _ | _ | _ <;> simp [prefixBytes, prefixOfSeg] <;> rintro (rfl | rfl) <;> simp

end Sys2Proof.Machine
end

