-- ==== Sys2Proof/Laws/Runs.lean ====
section
/-! SUPPORT. Runs of the machine (spec/70_reset_and_hazards.md rule R204): what one more step adds, and what a completed
step was. -/

namespace Sys2Proof.Machine

/-- A run of one more step that ends in a next state began with a completed step. -/
theorem run_succ_next {n : Nat} {s t : State} (h : Host.Core.run Sys2Proof.core (n + 1) s = .next t) :
    ∃ u : State, step s = .next u ∧ Host.Core.run Sys2Proof.core n u = .next t := by
  have e : ∀ (M : Host.Core) (x y : M.State), M.run (n + 1) x = .next y → ∃ u, M.step x = .next u ∧ M.run n u = .next y := by
    intro M x y hx
    rw [Host.Core.run] at hx
    split at hx
    · exact ⟨_, by assumption, hx⟩
    · cases hx
    · cases hx
  exact e Sys2Proof.core s t h

/-- A run of no steps ends where it begins. -/
theorem run_zero_next {s t : State} (h : Host.Core.run Sys2Proof.core 0 s = .next t) : t = s := by
  have e : ∀ (M : Host.Core) (x y : M.State), M.run 0 x = .next y → y = x := by
    intro M x y hx
    rw [Host.Core.run] at hx
    cases hx
    rfl
  exact e Sys2Proof.core s t h

/-- A completed step ran the decoded form (rule R109). -/
theorem step_next {s t : State} (h : step s = .next t) :
    ∃ i, decode s.params.mode s.fetchBytes = .instr i ∧ exec i s = .next t := by
  unfold step at h
  split at h
  · cases h
  · split at h
    · exact ⟨_, by assumption, h⟩
    · cases h
    · cases h

end Sys2Proof.Machine
end

