-- ==== Sys2Proof/Tests/Slice0.lean ====
section
/-! SUPPORT. Tests on fixed values, every expected value from spec/: what `wf` refuses, words of every form decoded, the
examples of rules R110 to R157 run for one step, and for every statement with hypotheses a concrete state and operands
that meet them. -/

open Sys2Proof Sys2Proof.Machine

namespace Sys2Proof.Tests

-- One theorem after another: elaborated side by side, these kernel evaluations start more threads than memory allows.
set_option Elab.async false

/-! ## States and observations -/

/-- The 32 example bytes of spec/43_vpmovzx_evex.md, byte 0 first; those of the other files are its first 16. -/
def sourceBytes : List Byte :=
  [0x80#8, 0xFF#8, 0x01#8, 0x7F#8, 0x00#8, 0xAA#8, 0x55#8, 0xFE#8, 0x11#8, 0x22#8, 0x33#8, 0x44#8, 0x88#8, 0x99#8, 0xCC#8,
    0xEE#8, 0xF0#8, 0xE1#8, 0xD2#8, 0xC3#8, 0xB4#8, 0xA5#8, 0x96#8, 0x87#8, 0x78#8, 0x69#8, 0x5A#8, 0x4B#8, 0x3C#8, 0x2D#8,
    0x1E#8, 0x0F#8]

/-- A vector from its bytes, byte 0 first. -/
def vecOf (bs : List Byte) : Vec := bs.foldr (fun b v => (v <<< 8) ||| b.setWidth 512) 0#512

/-- The example state of spec/43_vpmovzx_evex.md: every byte of register 1 is DD, register 2 holds the example bytes with 99
above, opmask 1 is FFFFFFFF5A5AA5A5, and the example bytes stand at the address in general register 0. -/
def baseState : State :=
  State.placeBytes { State.reset with
    zmm := ((Vector.replicate 32 0#512).set 1 (vecOf (List.replicate 64 0xDD#8))).set 2
      (vecOf (sourceBytes ++ List.replicate 32 0x99#8))
    k := (Vector.replicate 8 0#64).set 1 0xFFFFFFFF5A5AA5A5#64
    x := (Vector.replicate 16 0#64).set 0 0x1000#64
    rip := 0x2000#64 } 0x1000#64 0 sourceBytes

/-- The example state in a mode, with a program at 2000 and every class enabled. -/
def fetched (m : Mode) (prog : List Byte) : State :=
  { baseState with params := { baseState.params with mode := m } }.launch prog

/-- The example state, enabled, with no program. -/
def ready : State := fetched .long64 []

/-- Only one stretch of memory is mapped. -/
def withPages (base size : Nat) (user : Bool) (s : State) : State :=
  { s with params := { s.params with pages := [⟨base, size, user⟩] } }

/-- One segment reaches no address. -/
def withoutSeg (g : Seg) (s : State) : State :=
  { s with params := { s.params with reach := s.params.reach.filter fun w => w.seg != g } }

/-- Fault suppression chosen (rule R177). -/
def suppressing (b : Bool) (s : State) : State := { s with params := { s.params with faultSuppression := b } }

/-- CR0.AM, RFLAGS.AC and privilege level 3 (rule R43). -/
def checkingAlignment (s : State) : State :=
  { s with cr0 := s.cr0 ||| 0x40000#64, rflags := s.rflags ||| 0x40000#64, cpl := 3#2 }

/-- General register 0 holds another address. -/
def withAddress (a : Word) (s : State) : State := { s with x := s.x.set 0 a }

/-- CR0.TS = 1 (rule R174). -/
def taskSwitched (s : State) : State := { s with cr0 := s.cr0 ||| 8#64 }

/-- The example state in a mode, with a code-segment base and a program counter. -/
def atCode (m : Mode) (base rip : Word) : State :=
  { fetched m [] with segBase := { baseState.segBase with cs := base }, rip := rip }

/-- The spec's first example, PMOVZXBW xmm1, xmm2 (rule R110). -/
def legacyWord : List Byte := [0x66#8, 0x0F#8, 0x38#8, 0x30#8, 0xCA#8]

/-- The refusal of an outcome. -/
def refusalOf : Host.Outcome State Fault Refusal → Option Refusal
  | .next _ => none
  | .fault _ => none
  | .refused r => some r

/-- The outcome is a next state. -/
def isNext : Host.Outcome State Fault Refusal → Bool
  | .next _ => true
  | .fault _ => false
  | .refused _ => false

/-- The fault of an outcome. -/
def faultOf : Host.Outcome State Fault Refusal → Option Fault
  | .next _ => none
  | .fault f => some f
  | .refused _ => none

theorem exists_next {o : Host.Outcome State Fault Refusal} (h : isNext o = true) : ∃ t, o = .next t := by
  cases o with
  | next t => exact ⟨t, rfl⟩
  | fault f => cases h
  | refused r => cases h

theorem fault_of {o : Host.Outcome State Fault Refusal} {f : Fault} (h : faultOf o = some f) : o = .fault f := by
  cases o with
  | next t => cases h
  | fault g => cases h; rfl
  | refused r => cases h

/-- Register 1 after one step of a program on the example state, as elements of `w` bits, element 0 first; nothing when the
step does not complete. -/
def elemsAfter (w : Nat) (prog : List Byte) : List Nat :=
  match step (fetched .long64 prog) with
  | .next t => (List.range (512 / w)).map fun j => ((t.zmm.get 1).extractLsb' (j * w) w).toNat
  | .fault _ => []
  | .refused _ => []

/-- The six conversions. -/
def allConv : List Conv := [.bw, .bd, .bq, .wd, .wq, .dq]

/-- Every legacy form with register 1 and a source. -/
def legacyForms (src : Src 4) : List Instr := allConv.map fun c => legacyForm c ⟨false, none, false, 1#4, src⟩

/-- Every VEX form with register 1 and a source. -/
def vexForms (src : Src 4) : List Instr :=
  [false, true].flatMap fun l => allConv.map fun c => vexForm l c ⟨false, none, 1#4, src⟩

/-- Every EVEX form with register 1, a source, an opmask and zeroing or not. -/
def evexForms (src : Src 5) (aaa : BitVec 3) (z : Bool) : List Instr :=
  [EvexLen.l128, EvexLen.l256, EvexLen.l512].flatMap fun l =>
    allConv.map fun c => evexForm l c ⟨false, none, 1#5, src, aaa, z⟩

/-! ## What well-formedness refuses -/

/-- Rule R71: low three bits 100b of `rm` announce a SIB byte. -/
theorem test_wf_base_needs_sib : (MemOp.base 4#4 .none).wf = false ∧ (MemOp.base 12#4 (.d8 0#8)).wf = false := by decide

/-- Rule R72: `mod` = 00b with `rm` = 101b is no base register. -/
theorem test_wf_base_needs_displacement : (MemOp.base 5#4 .none).wf = false ∧ (MemOp.base 13#4 .none).wf = false := by decide

/-- Rule R72: `mod` = 00b with SIB base 101b is no base register. -/
theorem test_wf_sib_needs_displacement : (MemOp.sib 5#4 none 0#2 .none).wf = false ∧
    (MemOp.sib 13#4 none 0#2 .none).wf = false := by decide

/-- Rule R71: `X :: index` = 0100b is no index. -/
theorem test_wf_index_four : (MemOp.sib 0#4 (some 4#4) 0#2 .none).wf = false ∧
    (MemOp.sibNoBase (some 4#4) 0#2 0#32).wf = false := by decide

/-- A source is refused with its memory operand. -/
theorem test_wf_source : (Src.mem (n := 4) (.base 4#4 .none)).wf = false := by decide

/-- Rule R63: without a REX byte registers 8 to 15 have no encoding. -/
theorem test_wf_legacy_without_rex : LegacyOps.wf .long64 ⟨false, none, false, 8#4, .reg 0#4⟩ = false ∧
    LegacyOps.wf .long64 ⟨false, none, false, 0#4, .reg 8#4⟩ = false ∧
    LegacyOps.wf .long64 ⟨false, none, false, 0#4, .mem (.sib 0#4 (some 8#4) 0#2 .none)⟩ = false ∧
    LegacyOps.wf .long64 ⟨false, none, false, 0#4, .mem (.base 4#4 .none)⟩ = false := by decide

/-- Rules R61, R74: in `Prot32` no REX byte, and prefix 67 is refused. -/
theorem test_wf_legacy_prot32 : LegacyOps.wf .prot32 ⟨false, none, true, 0#4, .reg 0#4⟩ = false ∧
    LegacyOps.wf .prot32 ⟨true, none, false, 0#4, .reg 0#4⟩ = false := by decide

/-- Rules R74, R82: in `Prot32` a VEX form names registers 0 to 7 only, and prefix 67 is refused. -/
theorem test_wf_vex_prot32 : VexOps.wf .prot32 ⟨false, none, 8#4, .reg 0#4⟩ = false ∧
    VexOps.wf .prot32 ⟨false, none, 0#4, .reg 8#4⟩ = false ∧ VexOps.wf .prot32 ⟨true, none, 0#4, .reg 0#4⟩ = false ∧
    VexOps.wf .long64 ⟨false, none, 0#4, .mem (.base 4#4 .none)⟩ = false := by decide

/-- Rule R80 (d): zeroing-masking without an opmask. -/
theorem test_wf_evex_zeroing_needs_mask : EvexOps.wf .long64 ⟨false, none, 0#5, .reg 0#5, 0#3, true⟩ = false := by decide

/-- Rules R74, R82: in `Prot32` an EVEX form names registers 0 to 7 only, and prefix 67 is refused. -/
theorem test_wf_evex_prot32 : EvexOps.wf .prot32 ⟨false, none, 8#5, .reg 0#5, 0#3, false⟩ = false ∧
    EvexOps.wf .prot32 ⟨false, none, 16#5, .reg 0#5, 0#3, false⟩ = false ∧
    EvexOps.wf .prot32 ⟨false, none, 0#5, .reg 8#5, 0#3, false⟩ = false ∧
    EvexOps.wf .prot32 ⟨false, none, 0#5, .reg 16#5, 0#3, false⟩ = false ∧
    EvexOps.wf .prot32 ⟨true, none, 0#5, .reg 0#5, 0#3, false⟩ = false ∧
    EvexOps.wf .long64 ⟨false, none, 0#5, .mem (.base 4#4 .none), 0#3, false⟩ = false := by decide

/-! ## Decoding: the words of the spec's examples, one per form -/

theorem test_decode_pmovzxbw : decode .long64 [0x66#8, 0x0F#8, 0x38#8, 0x30#8, 0xCA#8] = .instr (.pmovzxbw ⟨false,
    none, false, 1#4, .reg 2#4⟩) := by decide +kernel

theorem test_decode_pmovzxbd : decode .long64 [0x66#8, 0x0F#8, 0x38#8, 0x31#8, 0xCA#8] = .instr (.pmovzxbd ⟨false,
    none, false, 1#4, .reg 2#4⟩) := by decide +kernel

theorem test_decode_pmovzxbq : decode .long64 [0x66#8, 0x0F#8, 0x38#8, 0x32#8, 0xCA#8] = .instr (.pmovzxbq ⟨false,
    none, false, 1#4, .reg 2#4⟩) := by decide +kernel

theorem test_decode_pmovzxwd : decode .long64 [0x66#8, 0x0F#8, 0x38#8, 0x33#8, 0xCA#8] = .instr (.pmovzxwd ⟨false,
    none, false, 1#4, .reg 2#4⟩) := by decide +kernel

theorem test_decode_pmovzxwq : decode .long64 [0x66#8, 0x0F#8, 0x38#8, 0x34#8, 0xCA#8] = .instr (.pmovzxwq ⟨false,
    none, false, 1#4, .reg 2#4⟩) := by decide +kernel

theorem test_decode_pmovzxdq : decode .long64 [0x66#8, 0x0F#8, 0x38#8, 0x35#8, 0xCA#8] = .instr (.pmovzxdq ⟨false,
    none, false, 1#4, .reg 2#4⟩) := by decide +kernel

theorem test_decode_vpmovzxbwVex128 : decode .long64 [0xC4#8, 0xE2#8, 0x79#8, 0x30#8, 0xCA#8] = .instr
    (.vpmovzxbwVex128 ⟨false, none, 1#4, .reg 2#4⟩) := by decide +kernel

theorem test_decode_vpmovzxbdVex128 : decode .long64 [0xC4#8, 0xE2#8, 0x79#8, 0x31#8, 0xCA#8] = .instr
    (.vpmovzxbdVex128 ⟨false, none, 1#4, .reg 2#4⟩) := by decide +kernel

theorem test_decode_vpmovzxbqVex128 : decode .long64 [0xC4#8, 0xE2#8, 0x79#8, 0x32#8, 0xCA#8] = .instr
    (.vpmovzxbqVex128 ⟨false, none, 1#4, .reg 2#4⟩) := by decide +kernel

theorem test_decode_vpmovzxwdVex128 : decode .long64 [0xC4#8, 0xE2#8, 0x79#8, 0x33#8, 0xCA#8] = .instr
    (.vpmovzxwdVex128 ⟨false, none, 1#4, .reg 2#4⟩) := by decide +kernel

theorem test_decode_vpmovzxwqVex128 : decode .long64 [0xC4#8, 0xE2#8, 0x79#8, 0x34#8, 0xCA#8] = .instr
    (.vpmovzxwqVex128 ⟨false, none, 1#4, .reg 2#4⟩) := by decide +kernel

theorem test_decode_vpmovzxdqVex128 : decode .long64 [0xC4#8, 0xE2#8, 0x79#8, 0x35#8, 0xCA#8] = .instr
    (.vpmovzxdqVex128 ⟨false, none, 1#4, .reg 2#4⟩) := by decide +kernel

theorem test_decode_vpmovzxbwVex256 : decode .long64 [0xC4#8, 0xE2#8, 0x7D#8, 0x30#8, 0xCA#8] = .instr
    (.vpmovzxbwVex256 ⟨false, none, 1#4, .reg 2#4⟩) := by decide +kernel

theorem test_decode_vpmovzxbdVex256 : decode .long64 [0xC4#8, 0xE2#8, 0x7D#8, 0x31#8, 0xCA#8] = .instr
    (.vpmovzxbdVex256 ⟨false, none, 1#4, .reg 2#4⟩) := by decide +kernel

theorem test_decode_vpmovzxbqVex256 : decode .long64 [0xC4#8, 0xE2#8, 0x7D#8, 0x32#8, 0xCA#8] = .instr
    (.vpmovzxbqVex256 ⟨false, none, 1#4, .reg 2#4⟩) := by decide +kernel

theorem test_decode_vpmovzxwdVex256 : decode .long64 [0xC4#8, 0xE2#8, 0x7D#8, 0x33#8, 0xCA#8] = .instr
    (.vpmovzxwdVex256 ⟨false, none, 1#4, .reg 2#4⟩) := by decide +kernel

theorem test_decode_vpmovzxwqVex256 : decode .long64 [0xC4#8, 0xE2#8, 0x7D#8, 0x34#8, 0xCA#8] = .instr
    (.vpmovzxwqVex256 ⟨false, none, 1#4, .reg 2#4⟩) := by decide +kernel

theorem test_decode_vpmovzxdqVex256 : decode .long64 [0xC4#8, 0xE2#8, 0x7D#8, 0x35#8, 0xCA#8] = .instr
    (.vpmovzxdqVex256 ⟨false, none, 1#4, .reg 2#4⟩) := by decide +kernel

theorem test_decode_vpmovzxbwEvex128 : decode .long64 [0x62#8, 0xF2#8, 0x7D#8, 0x09#8, 0x30#8, 0xCA#8] = .instr
    (.vpmovzxbwEvex128 ⟨false, none, 1#5, .reg 2#5, 1#3, false⟩) := by decide +kernel

theorem test_decode_vpmovzxbwEvex256 : decode .long64 [0x62#8, 0xF2#8, 0x7D#8, 0x29#8, 0x30#8, 0xCA#8] = .instr
    (.vpmovzxbwEvex256 ⟨false, none, 1#5, .reg 2#5, 1#3, false⟩) := by decide +kernel

theorem test_decode_vpmovzxbwEvex512 : decode .long64 [0x62#8, 0xF2#8, 0x7D#8, 0x49#8, 0x30#8, 0xCA#8] = .instr
    (.vpmovzxbwEvex512 ⟨false, none, 1#5, .reg 2#5, 1#3, false⟩) := by decide +kernel

theorem test_decode_vpmovzxbdEvex128 : decode .long64 [0x62#8, 0xF2#8, 0x7D#8, 0x09#8, 0x31#8, 0xCA#8] = .instr
    (.vpmovzxbdEvex128 ⟨false, none, 1#5, .reg 2#5, 1#3, false⟩) := by decide +kernel

theorem test_decode_vpmovzxbdEvex256 : decode .long64 [0x62#8, 0xF2#8, 0x7D#8, 0x29#8, 0x31#8, 0xCA#8] = .instr
    (.vpmovzxbdEvex256 ⟨false, none, 1#5, .reg 2#5, 1#3, false⟩) := by decide +kernel

theorem test_decode_vpmovzxbdEvex512 : decode .long64 [0x62#8, 0xF2#8, 0x7D#8, 0x49#8, 0x31#8, 0xCA#8] = .instr
    (.vpmovzxbdEvex512 ⟨false, none, 1#5, .reg 2#5, 1#3, false⟩) := by decide +kernel

theorem test_decode_vpmovzxbqEvex128 : decode .long64 [0x62#8, 0xF2#8, 0x7D#8, 0x09#8, 0x32#8, 0xCA#8] = .instr
    (.vpmovzxbqEvex128 ⟨false, none, 1#5, .reg 2#5, 1#3, false⟩) := by decide +kernel

theorem test_decode_vpmovzxbqEvex256 : decode .long64 [0x62#8, 0xF2#8, 0x7D#8, 0x29#8, 0x32#8, 0xCA#8] = .instr
    (.vpmovzxbqEvex256 ⟨false, none, 1#5, .reg 2#5, 1#3, false⟩) := by decide +kernel

theorem test_decode_vpmovzxbqEvex512 : decode .long64 [0x62#8, 0xF2#8, 0x7D#8, 0x49#8, 0x32#8, 0xCA#8] = .instr
    (.vpmovzxbqEvex512 ⟨false, none, 1#5, .reg 2#5, 1#3, false⟩) := by decide +kernel

theorem test_decode_vpmovzxwdEvex128 : decode .long64 [0x62#8, 0xF2#8, 0x7D#8, 0x09#8, 0x33#8, 0xCA#8] = .instr
    (.vpmovzxwdEvex128 ⟨false, none, 1#5, .reg 2#5, 1#3, false⟩) := by decide +kernel

theorem test_decode_vpmovzxwdEvex256 : decode .long64 [0x62#8, 0xF2#8, 0x7D#8, 0x29#8, 0x33#8, 0xCA#8] = .instr
    (.vpmovzxwdEvex256 ⟨false, none, 1#5, .reg 2#5, 1#3, false⟩) := by decide +kernel

theorem test_decode_vpmovzxwdEvex512 : decode .long64 [0x62#8, 0xF2#8, 0x7D#8, 0x49#8, 0x33#8, 0xCA#8] = .instr
    (.vpmovzxwdEvex512 ⟨false, none, 1#5, .reg 2#5, 1#3, false⟩) := by decide +kernel

theorem test_decode_vpmovzxwqEvex128 : decode .long64 [0x62#8, 0xF2#8, 0x7D#8, 0x09#8, 0x34#8, 0xCA#8] = .instr
    (.vpmovzxwqEvex128 ⟨false, none, 1#5, .reg 2#5, 1#3, false⟩) := by decide +kernel

theorem test_decode_vpmovzxwqEvex256 : decode .long64 [0x62#8, 0xF2#8, 0x7D#8, 0x29#8, 0x34#8, 0xCA#8] = .instr
    (.vpmovzxwqEvex256 ⟨false, none, 1#5, .reg 2#5, 1#3, false⟩) := by decide +kernel

theorem test_decode_vpmovzxwqEvex512 : decode .long64 [0x62#8, 0xF2#8, 0x7D#8, 0x49#8, 0x34#8, 0xCA#8] = .instr
    (.vpmovzxwqEvex512 ⟨false, none, 1#5, .reg 2#5, 1#3, false⟩) := by decide +kernel

theorem test_decode_vpmovzxdqEvex128 : decode .long64 [0x62#8, 0xF2#8, 0x7D#8, 0x09#8, 0x35#8, 0xCA#8] = .instr
    (.vpmovzxdqEvex128 ⟨false, none, 1#5, .reg 2#5, 1#3, false⟩) := by decide +kernel

theorem test_decode_vpmovzxdqEvex256 : decode .long64 [0x62#8, 0xF2#8, 0x7D#8, 0x29#8, 0x35#8, 0xCA#8] = .instr
    (.vpmovzxdqEvex256 ⟨false, none, 1#5, .reg 2#5, 1#3, false⟩) := by decide +kernel

theorem test_decode_vpmovzxdqEvex512 : decode .long64 [0x62#8, 0xF2#8, 0x7D#8, 0x49#8, 0x35#8, 0xCA#8] = .instr
    (.vpmovzxdqEvex512 ⟨false, none, 1#5, .reg 2#5, 1#3, false⟩) := by decide +kernel
/-! ## Decoding: words written out bit by bit -/

/-- Rules R63, R69, R70: REX 0100 W=1 R=1 X=0 B=1, ModRM 11 010 101 is PMOVZXWD xmm10, xmm13. -/
theorem test_decode_bits_legacy : decode .long64 [0b01100110#8, 0b01001101#8, 0b00001111#8, 0b00111000#8, 0b00110011#8,
    0b11010101#8] = .instr (.pmovzxwd ⟨false, none, true, 10#4, .reg 13#4⟩) := by decide +kernel

/-- Rules R71, R72, R75: ModRM 01 011 100, SIB 10 001 101, displacement -16: PMOVZXDQ xmm3, fs:[ebp + ecx*4 - 16]. -/
theorem test_decode_bits_legacy_sib : decode .long64 [0x67#8, 0x64#8, 0x66#8, 0x0F#8, 0x38#8, 0b00110101#8, 0b01011100#8,
    0b10001101#8, 0b11110000#8] =
    .instr (.pmovzxdq ⟨true, some .fs, false, 3#4, .mem (.sib 5#4 (some 1#4) 2#2 (.d8 0xF0#8))⟩) := by decide +kernel

/-- Rule R64: `V1` Rbar=0 Xbar=1 Bbar=0 00010, `V2` W=1 vvvv=1111 L=1 pp=01, ModRM 11 110 001: VPMOVZXBQ ymm14, xmm9. -/
theorem test_decode_bits_vex : decode .long64 [0b11000100#8, 0b01000010#8, 0b11111101#8, 0b00110010#8, 0b11110001#8] =
    .instr (.vpmovzxbqVex256 ⟨false, none, 14#4, .reg 9#4⟩) := by decide +kernel

/-- Rules R64, R72: ModRM 00 000 101 with a four-byte displacement, VPMOVZXWQ xmm0, [rip - 2]. -/
theorem test_decode_bits_vex_rip : decode .long64 [0xC4#8, 0b11100010#8, 0b01111001#8, 0b00110100#8, 0b00000101#8, 0xFE#8,
    0xFF#8, 0xFF#8, 0xFF#8] = .instr (.vpmovzxwqVex128 ⟨false, none, 0#4, .mem (.rip 0xFFFFFFFE#32)⟩) := by decide +kernel

/-- Rules R66, R70: `P0` Rbar=0 Xbar=0 Bbar=1 Rpbar=0 00 10, `P1` W=1 1111 1 01, `P2` z=1 LL=10 b=0 Vpbar=1 aaa=111, ModRM
11 101 010: VPMOVZXBD zmm29 under k7 with zeroing, xmm18. -/
theorem test_decode_bits_evex : decode .long64 [0b01100010#8, 0b00100010#8, 0b11111101#8, 0b11001111#8, 0b00110001#8,
    0b11101010#8] = .instr (.vpmovzxbdEvex512 ⟨false, none, 29#5, .reg 18#5, 7#3, true⟩) := by decide +kernel

/-- Rules R66, R71: Xbar=0 makes the index register 12; ModRM 10 000 100, SIB 11 100 000: VPMOVZXBW ymm0, [rax + r12*8 + 256]. -/
theorem test_decode_bits_evex_sib : decode .long64 [0x62#8, 0b10110010#8, 0b01111101#8, 0b00101000#8, 0b00110000#8,
    0b10000100#8, 0b11100000#8, 0x00#8, 0x01#8, 0x00#8, 0x00#8] =
    .instr (.vpmovzxbwEvex256 ⟨false, none, 0#5, .mem (.sib 0#4 (some 12#4) 3#2 (.d32 256#32)), 0#3, false⟩) := by
  decide +kernel

/-- A word numbered as rule R86 numbers it; the opcode-table row's word itself, its `must_be` bits 0, is #UD in the VEX and EVEX
classes (rules R80, R86). -/
theorem test_decode_table_words :
    decodeTableWord 40 0xC4E27930CA = some (.vpmovzxbwVex128 ⟨false, none, 1#4, .reg 2#4⟩) ∧
    decodeTableWord 32 0x660F3830 = some (.pmovzxbw ⟨false, none, false, 0#4, .mem (.base 0#4 .none)⟩) ∧
    decodeTableWord 32 0xC4020130 = none ∧ decodeTableWord 40 0x6202010030 = none := by decide +kernel

/-- `withFetchWord` places the word where the next step fetches it. -/
theorem test_withFetchWord : isNext (step (State.reset.withFetchWord 32 0x660F3835)) = true ∧
    isNext (step (State.reset.withFetchWord 40 0xC4E27D35CA)) = true ∧
    isNext (step (State.reset.withFetchWord 48 0x62F27DC935CA)) = true := by decide +kernel

/-! ## One step on the spec's example data -/

/-- The register example of rule R110. -/
theorem test_pmovzxbw_register : elemsAfter 16 [0x66#8, 0x0F#8, 0x38#8, 0x30#8, 0xCA#8] = [0x80, 0xFF, 0x1, 0x7F,
    0x0, 0xAA, 0x55, 0xFE] ++ List.replicate 24 0xDDDD := by decide +kernel

/-- The memory example of rule R110. -/
theorem test_pmovzxbw_memory : elemsAfter 16 [0x66#8, 0x0F#8, 0x38#8, 0x30#8, 0x08#8] = [0x80, 0xFF, 0x1, 0x7F, 0x0,
    0xAA, 0x55, 0xFE] ++ List.replicate 24 0xDDDD := by decide +kernel

/-- The register example of rule R111. -/
theorem test_pmovzxbd_register : elemsAfter 32 [0x66#8, 0x0F#8, 0x38#8, 0x31#8, 0xCA#8] = [0x80, 0xFF, 0x1, 0x7F] ++
    List.replicate 12 0xDDDDDDDD := by decide +kernel

/-- The memory example of rule R111. -/
theorem test_pmovzxbd_memory : elemsAfter 32 [0x66#8, 0x0F#8, 0x38#8, 0x31#8, 0x08#8] = [0x80, 0xFF, 0x1, 0x7F] ++
    List.replicate 12 0xDDDDDDDD := by decide +kernel

/-- The register example of rule R112. -/
theorem test_pmovzxbq_register : elemsAfter 64 [0x66#8, 0x0F#8, 0x38#8, 0x32#8, 0xCA#8] = [0x80, 0xFF] ++
    List.replicate 6 0xDDDDDDDDDDDDDDDD := by decide +kernel

/-- The memory example of rule R112. -/
theorem test_pmovzxbq_memory : elemsAfter 64 [0x66#8, 0x0F#8, 0x38#8, 0x32#8, 0x08#8] = [0x80, 0xFF] ++
    List.replicate 6 0xDDDDDDDDDDDDDDDD := by decide +kernel

/-- The register example of rule R113. -/
theorem test_pmovzxwd_register : elemsAfter 32 [0x66#8, 0x0F#8, 0x38#8, 0x33#8, 0xCA#8] = [0xFF80, 0x7F01, 0xAA00,
    0xFE55] ++ List.replicate 12 0xDDDDDDDD := by decide +kernel

/-- The memory example of rule R113. -/
theorem test_pmovzxwd_memory : elemsAfter 32 [0x66#8, 0x0F#8, 0x38#8, 0x33#8, 0x08#8] = [0xFF80, 0x7F01, 0xAA00,
    0xFE55] ++ List.replicate 12 0xDDDDDDDD := by decide +kernel

/-- The register example of rule R114. -/
theorem test_pmovzxwq_register : elemsAfter 64 [0x66#8, 0x0F#8, 0x38#8, 0x34#8, 0xCA#8] = [0xFF80, 0x7F01] ++
    List.replicate 6 0xDDDDDDDDDDDDDDDD := by decide +kernel

/-- The memory example of rule R114. -/
theorem test_pmovzxwq_memory : elemsAfter 64 [0x66#8, 0x0F#8, 0x38#8, 0x34#8, 0x08#8] = [0xFF80, 0x7F01] ++
    List.replicate 6 0xDDDDDDDDDDDDDDDD := by decide +kernel

/-- The register example of rule R115. -/
theorem test_pmovzxdq_register : elemsAfter 64 [0x66#8, 0x0F#8, 0x38#8, 0x35#8, 0xCA#8] = [0x7F01FF80, 0xFE55AA00] ++
    List.replicate 6 0xDDDDDDDDDDDDDDDD := by decide +kernel

/-- The memory example of rule R115. -/
theorem test_pmovzxdq_memory : elemsAfter 64 [0x66#8, 0x0F#8, 0x38#8, 0x35#8, 0x08#8] = [0x7F01FF80, 0xFE55AA00] ++
    List.replicate 6 0xDDDDDDDDDDDDDDDD := by decide +kernel

/-- The register example of rule R120. -/
theorem test_vpmovzxbwVex128_register : elemsAfter 16 [0xC4#8, 0xE2#8, 0x79#8, 0x30#8, 0xCA#8] = [0x80, 0xFF, 0x1,
    0x7F, 0x0, 0xAA, 0x55, 0xFE] ++ List.replicate 24 0 := by decide +kernel

/-- The memory example of rule R120. -/
theorem test_vpmovzxbwVex128_memory : elemsAfter 16 [0xC4#8, 0xE2#8, 0x79#8, 0x30#8, 0x08#8] = [0x80, 0xFF, 0x1,
    0x7F, 0x0, 0xAA, 0x55, 0xFE] ++ List.replicate 24 0 := by decide +kernel

/-- The register example of rule R121. -/
theorem test_vpmovzxbdVex128_register : elemsAfter 32 [0xC4#8, 0xE2#8, 0x79#8, 0x31#8, 0xCA#8] = [0x80, 0xFF, 0x1,
    0x7F] ++ List.replicate 12 0 := by decide +kernel

/-- The memory example of rule R121. -/
theorem test_vpmovzxbdVex128_memory : elemsAfter 32 [0xC4#8, 0xE2#8, 0x79#8, 0x31#8, 0x08#8] = [0x80, 0xFF, 0x1,
    0x7F] ++ List.replicate 12 0 := by decide +kernel

/-- The register example of rule R122. -/
theorem test_vpmovzxbqVex128_register : elemsAfter 64 [0xC4#8, 0xE2#8, 0x79#8, 0x32#8, 0xCA#8] = [0x80, 0xFF] ++
    List.replicate 6 0 := by decide +kernel

/-- The memory example of rule R122. -/
theorem test_vpmovzxbqVex128_memory : elemsAfter 64 [0xC4#8, 0xE2#8, 0x79#8, 0x32#8, 0x08#8] = [0x80, 0xFF] ++
    List.replicate 6 0 := by decide +kernel

/-- The register example of rule R123. -/
theorem test_vpmovzxwdVex128_register : elemsAfter 32 [0xC4#8, 0xE2#8, 0x79#8, 0x33#8, 0xCA#8] = [0xFF80, 0x7F01,
    0xAA00, 0xFE55] ++ List.replicate 12 0 := by decide +kernel

/-- The memory example of rule R123. -/
theorem test_vpmovzxwdVex128_memory : elemsAfter 32 [0xC4#8, 0xE2#8, 0x79#8, 0x33#8, 0x08#8] = [0xFF80, 0x7F01,
    0xAA00, 0xFE55] ++ List.replicate 12 0 := by decide +kernel

/-- The register example of rule R124. -/
theorem test_vpmovzxwqVex128_register : elemsAfter 64 [0xC4#8, 0xE2#8, 0x79#8, 0x34#8, 0xCA#8] = [0xFF80, 0x7F01] ++
    List.replicate 6 0 := by decide +kernel

/-- The memory example of rule R124. -/
theorem test_vpmovzxwqVex128_memory : elemsAfter 64 [0xC4#8, 0xE2#8, 0x79#8, 0x34#8, 0x08#8] = [0xFF80, 0x7F01] ++
    List.replicate 6 0 := by decide +kernel

/-- The register example of rule R125. -/
theorem test_vpmovzxdqVex128_register : elemsAfter 64 [0xC4#8, 0xE2#8, 0x79#8, 0x35#8, 0xCA#8] = [0x7F01FF80,
    0xFE55AA00] ++ List.replicate 6 0 := by decide +kernel

/-- The memory example of rule R125. -/
theorem test_vpmovzxdqVex128_memory : elemsAfter 64 [0xC4#8, 0xE2#8, 0x79#8, 0x35#8, 0x08#8] = [0x7F01FF80,
    0xFE55AA00] ++ List.replicate 6 0 := by decide +kernel

/-- The register example of rule R126. -/
theorem test_vpmovzxbwVex256_register : elemsAfter 16 [0xC4#8, 0xE2#8, 0x7D#8, 0x30#8, 0xCA#8] = [0x80, 0xFF, 0x1,
    0x7F, 0x0, 0xAA, 0x55, 0xFE, 0x11, 0x22, 0x33, 0x44, 0x88, 0x99, 0xCC, 0xEE] ++ List.replicate 16 0 := by
    decide +kernel

/-- The memory example of rule R126. -/
theorem test_vpmovzxbwVex256_memory : elemsAfter 16 [0xC4#8, 0xE2#8, 0x7D#8, 0x30#8, 0x08#8] = [0x80, 0xFF, 0x1,
    0x7F, 0x0, 0xAA, 0x55, 0xFE, 0x11, 0x22, 0x33, 0x44, 0x88, 0x99, 0xCC, 0xEE] ++ List.replicate 16 0 := by
    decide +kernel

/-- The register example of rule R127. -/
theorem test_vpmovzxbdVex256_register : elemsAfter 32 [0xC4#8, 0xE2#8, 0x7D#8, 0x31#8, 0xCA#8] = [0x80, 0xFF, 0x1,
    0x7F, 0x0, 0xAA, 0x55, 0xFE] ++ List.replicate 8 0 := by decide +kernel

/-- The memory example of rule R127. -/
theorem test_vpmovzxbdVex256_memory : elemsAfter 32 [0xC4#8, 0xE2#8, 0x7D#8, 0x31#8, 0x08#8] = [0x80, 0xFF, 0x1,
    0x7F, 0x0, 0xAA, 0x55, 0xFE] ++ List.replicate 8 0 := by decide +kernel

/-- The register example of rule R128. -/
theorem test_vpmovzxbqVex256_register : elemsAfter 64 [0xC4#8, 0xE2#8, 0x7D#8, 0x32#8, 0xCA#8] = [0x80, 0xFF, 0x1,
    0x7F] ++ List.replicate 4 0 := by decide +kernel

/-- The memory example of rule R128. -/
theorem test_vpmovzxbqVex256_memory : elemsAfter 64 [0xC4#8, 0xE2#8, 0x7D#8, 0x32#8, 0x08#8] = [0x80, 0xFF, 0x1,
    0x7F] ++ List.replicate 4 0 := by decide +kernel

/-- The register example of rule R129. -/
theorem test_vpmovzxwdVex256_register : elemsAfter 32 [0xC4#8, 0xE2#8, 0x7D#8, 0x33#8, 0xCA#8] = [0xFF80, 0x7F01,
    0xAA00, 0xFE55, 0x2211, 0x4433, 0x9988, 0xEECC] ++ List.replicate 8 0 := by decide +kernel

/-- The memory example of rule R129. -/
theorem test_vpmovzxwdVex256_memory : elemsAfter 32 [0xC4#8, 0xE2#8, 0x7D#8, 0x33#8, 0x08#8] = [0xFF80, 0x7F01,
    0xAA00, 0xFE55, 0x2211, 0x4433, 0x9988, 0xEECC] ++ List.replicate 8 0 := by decide +kernel

/-- The register example of rule R130. -/
theorem test_vpmovzxwqVex256_register : elemsAfter 64 [0xC4#8, 0xE2#8, 0x7D#8, 0x34#8, 0xCA#8] = [0xFF80, 0x7F01,
    0xAA00, 0xFE55] ++ List.replicate 4 0 := by decide +kernel

/-- The memory example of rule R130. -/
theorem test_vpmovzxwqVex256_memory : elemsAfter 64 [0xC4#8, 0xE2#8, 0x7D#8, 0x34#8, 0x08#8] = [0xFF80, 0x7F01,
    0xAA00, 0xFE55] ++ List.replicate 4 0 := by decide +kernel

/-- The register example of rule R131. -/
theorem test_vpmovzxdqVex256_register : elemsAfter 64 [0xC4#8, 0xE2#8, 0x7D#8, 0x35#8, 0xCA#8] = [0x7F01FF80,
    0xFE55AA00, 0x44332211, 0xEECC9988] ++ List.replicate 4 0 := by decide +kernel

/-- The memory example of rule R131. -/
theorem test_vpmovzxdqVex256_memory : elemsAfter 64 [0xC4#8, 0xE2#8, 0x7D#8, 0x35#8, 0x08#8] = [0x7F01FF80,
    0xFE55AA00, 0x44332211, 0xEECC9988] ++ List.replicate 4 0 := by decide +kernel

/-- The merging example of rule R140. -/
theorem test_vpmovzxbwEvex128_merging : elemsAfter 16 [0x62#8, 0xF2#8, 0x7D#8, 0x09#8, 0x30#8, 0xCA#8] = [0x80,
    0xDDDD, 0x1, 0xDDDD, 0xDDDD, 0xAA, 0xDDDD, 0xFE] ++ List.replicate 24 0 := by decide +kernel

/-- The zeroing memory example of rule R140. -/
theorem test_vpmovzxbwEvex128_zeroing : elemsAfter 16 [0x62#8, 0xF2#8, 0x7D#8, 0x89#8, 0x30#8, 0x08#8] = [0x80, 0x0,
    0x1, 0x0, 0x0, 0xAA, 0x0, 0xFE] ++ List.replicate 24 0 := by decide +kernel

/-- The merging example of rule R141. -/
theorem test_vpmovzxbwEvex256_merging : elemsAfter 16 [0x62#8, 0xF2#8, 0x7D#8, 0x29#8, 0x30#8, 0xCA#8] = [0x80,
    0xDDDD, 0x1, 0xDDDD, 0xDDDD, 0xAA, 0xDDDD, 0xFE, 0x11, 0xDDDD, 0x33, 0xDDDD, 0xDDDD, 0x99, 0xDDDD, 0xEE] ++
    List.replicate 16 0 := by decide +kernel

/-- The zeroing memory example of rule R141. -/
theorem test_vpmovzxbwEvex256_zeroing : elemsAfter 16 [0x62#8, 0xF2#8, 0x7D#8, 0xA9#8, 0x30#8, 0x08#8] = [0x80, 0x0,
    0x1, 0x0, 0x0, 0xAA, 0x0, 0xFE, 0x11, 0x0, 0x33, 0x0, 0x0, 0x99, 0x0, 0xEE] ++ List.replicate 16 0 := by
    decide +kernel

/-- The merging example of rule R142. -/
theorem test_vpmovzxbwEvex512_merging : elemsAfter 16 [0x62#8, 0xF2#8, 0x7D#8, 0x49#8, 0x30#8, 0xCA#8] = [0x80,
    0xDDDD, 0x1, 0xDDDD, 0xDDDD, 0xAA, 0xDDDD, 0xFE, 0x11, 0xDDDD, 0x33, 0xDDDD, 0xDDDD, 0x99, 0xDDDD, 0xEE, 0xDDDD,
    0xE1, 0xDDDD, 0xC3, 0xB4, 0xDDDD, 0x96, 0xDDDD, 0xDDDD, 0x69, 0xDDDD, 0x4B, 0x3C, 0xDDDD, 0x1E, 0xDDDD] := by
    decide +kernel

/-- The zeroing memory example of rule R142. -/
theorem test_vpmovzxbwEvex512_zeroing : elemsAfter 16 [0x62#8, 0xF2#8, 0x7D#8, 0xC9#8, 0x30#8, 0x08#8] = [0x80, 0x0,
    0x1, 0x0, 0x0, 0xAA, 0x0, 0xFE, 0x11, 0x0, 0x33, 0x0, 0x0, 0x99, 0x0, 0xEE, 0x0, 0xE1, 0x0, 0xC3, 0xB4, 0x0,
    0x96, 0x0, 0x0, 0x69, 0x0, 0x4B, 0x3C, 0x0, 0x1E, 0x0] := by decide +kernel

/-- The merging example of rule R143. -/
theorem test_vpmovzxbdEvex128_merging : elemsAfter 32 [0x62#8, 0xF2#8, 0x7D#8, 0x09#8, 0x31#8, 0xCA#8] = [0x80,
    0xDDDDDDDD, 0x1, 0xDDDDDDDD] ++ List.replicate 12 0 := by decide +kernel

/-- The zeroing memory example of rule R143. -/
theorem test_vpmovzxbdEvex128_zeroing : elemsAfter 32 [0x62#8, 0xF2#8, 0x7D#8, 0x89#8, 0x31#8, 0x08#8] = [0x80, 0x0,
    0x1, 0x0] ++ List.replicate 12 0 := by decide +kernel

/-- The merging example of rule R144. -/
theorem test_vpmovzxbdEvex256_merging : elemsAfter 32 [0x62#8, 0xF2#8, 0x7D#8, 0x29#8, 0x31#8, 0xCA#8] = [0x80,
    0xDDDDDDDD, 0x1, 0xDDDDDDDD, 0xDDDDDDDD, 0xAA, 0xDDDDDDDD, 0xFE] ++ List.replicate 8 0 := by decide +kernel

/-- The zeroing memory example of rule R144. -/
theorem test_vpmovzxbdEvex256_zeroing : elemsAfter 32 [0x62#8, 0xF2#8, 0x7D#8, 0xA9#8, 0x31#8, 0x08#8] = [0x80, 0x0,
    0x1, 0x0, 0x0, 0xAA, 0x0, 0xFE] ++ List.replicate 8 0 := by decide +kernel

/-- The merging example of rule R145. -/
theorem test_vpmovzxbdEvex512_merging : elemsAfter 32 [0x62#8, 0xF2#8, 0x7D#8, 0x49#8, 0x31#8, 0xCA#8] = [0x80,
    0xDDDDDDDD, 0x1, 0xDDDDDDDD, 0xDDDDDDDD, 0xAA, 0xDDDDDDDD, 0xFE, 0x11, 0xDDDDDDDD, 0x33, 0xDDDDDDDD, 0xDDDDDDDD,
    0x99, 0xDDDDDDDD, 0xEE] := by decide +kernel

/-- The zeroing memory example of rule R145. -/
theorem test_vpmovzxbdEvex512_zeroing : elemsAfter 32 [0x62#8, 0xF2#8, 0x7D#8, 0xC9#8, 0x31#8, 0x08#8] = [0x80, 0x0,
    0x1, 0x0, 0x0, 0xAA, 0x0, 0xFE, 0x11, 0x0, 0x33, 0x0, 0x0, 0x99, 0x0, 0xEE] := by decide +kernel

/-- The merging example of rule R146. -/
theorem test_vpmovzxbqEvex128_merging : elemsAfter 64 [0x62#8, 0xF2#8, 0x7D#8, 0x09#8, 0x32#8, 0xCA#8] = [0x80,
    0xDDDDDDDDDDDDDDDD] ++ List.replicate 6 0 := by decide +kernel

/-- The zeroing memory example of rule R146. -/
theorem test_vpmovzxbqEvex128_zeroing : elemsAfter 64 [0x62#8, 0xF2#8, 0x7D#8, 0x89#8, 0x32#8, 0x08#8] = [0x80, 0x0]
    ++ List.replicate 6 0 := by decide +kernel

/-- The merging example of rule R147. -/
theorem test_vpmovzxbqEvex256_merging : elemsAfter 64 [0x62#8, 0xF2#8, 0x7D#8, 0x29#8, 0x32#8, 0xCA#8] = [0x80,
    0xDDDDDDDDDDDDDDDD, 0x1, 0xDDDDDDDDDDDDDDDD] ++ List.replicate 4 0 := by decide +kernel

/-- The zeroing memory example of rule R147. -/
theorem test_vpmovzxbqEvex256_zeroing : elemsAfter 64 [0x62#8, 0xF2#8, 0x7D#8, 0xA9#8, 0x32#8, 0x08#8] = [0x80, 0x0,
    0x1, 0x0] ++ List.replicate 4 0 := by decide +kernel

/-- The merging example of rule R148. -/
theorem test_vpmovzxbqEvex512_merging : elemsAfter 64 [0x62#8, 0xF2#8, 0x7D#8, 0x49#8, 0x32#8, 0xCA#8] = [0x80,
    0xDDDDDDDDDDDDDDDD, 0x1, 0xDDDDDDDDDDDDDDDD, 0xDDDDDDDDDDDDDDDD, 0xAA, 0xDDDDDDDDDDDDDDDD, 0xFE] := by
    decide +kernel

/-- The zeroing memory example of rule R148. -/
theorem test_vpmovzxbqEvex512_zeroing : elemsAfter 64 [0x62#8, 0xF2#8, 0x7D#8, 0xC9#8, 0x32#8, 0x08#8] = [0x80, 0x0,
    0x1, 0x0, 0x0, 0xAA, 0x0, 0xFE] := by decide +kernel

/-- The merging example of rule R149. -/
theorem test_vpmovzxwdEvex128_merging : elemsAfter 32 [0x62#8, 0xF2#8, 0x7D#8, 0x09#8, 0x33#8, 0xCA#8] = [0xFF80,
    0xDDDDDDDD, 0xAA00, 0xDDDDDDDD] ++ List.replicate 12 0 := by decide +kernel

/-- The zeroing memory example of rule R149. -/
theorem test_vpmovzxwdEvex128_zeroing : elemsAfter 32 [0x62#8, 0xF2#8, 0x7D#8, 0x89#8, 0x33#8, 0x08#8] = [0xFF80,
    0x0, 0xAA00, 0x0] ++ List.replicate 12 0 := by decide +kernel

/-- The merging example of rule R150. -/
theorem test_vpmovzxwdEvex256_merging : elemsAfter 32 [0x62#8, 0xF2#8, 0x7D#8, 0x29#8, 0x33#8, 0xCA#8] = [0xFF80,
    0xDDDDDDDD, 0xAA00, 0xDDDDDDDD, 0xDDDDDDDD, 0x4433, 0xDDDDDDDD, 0xEECC] ++ List.replicate 8 0 := by decide +kernel

/-- The zeroing memory example of rule R150. -/
theorem test_vpmovzxwdEvex256_zeroing : elemsAfter 32 [0x62#8, 0xF2#8, 0x7D#8, 0xA9#8, 0x33#8, 0x08#8] = [0xFF80,
    0x0, 0xAA00, 0x0, 0x0, 0x4433, 0x0, 0xEECC] ++ List.replicate 8 0 := by decide +kernel

/-- The merging example of rule R151. -/
theorem test_vpmovzxwdEvex512_merging : elemsAfter 32 [0x62#8, 0xF2#8, 0x7D#8, 0x49#8, 0x33#8, 0xCA#8] = [0xFF80,
    0xDDDDDDDD, 0xAA00, 0xDDDDDDDD, 0xDDDDDDDD, 0x4433, 0xDDDDDDDD, 0xEECC, 0xE1F0, 0xDDDDDDDD, 0xA5B4, 0xDDDDDDDD,
    0xDDDDDDDD, 0x4B5A, 0xDDDDDDDD, 0xF1E] := by decide +kernel

/-- The zeroing memory example of rule R151. -/
theorem test_vpmovzxwdEvex512_zeroing : elemsAfter 32 [0x62#8, 0xF2#8, 0x7D#8, 0xC9#8, 0x33#8, 0x08#8] = [0xFF80,
    0x0, 0xAA00, 0x0, 0x0, 0x4433, 0x0, 0xEECC, 0xE1F0, 0x0, 0xA5B4, 0x0, 0x0, 0x4B5A, 0x0, 0xF1E] := by
    decide +kernel

/-- The merging example of rule R152. -/
theorem test_vpmovzxwqEvex128_merging : elemsAfter 64 [0x62#8, 0xF2#8, 0x7D#8, 0x09#8, 0x34#8, 0xCA#8] = [0xFF80,
    0xDDDDDDDDDDDDDDDD] ++ List.replicate 6 0 := by decide +kernel

/-- The zeroing memory example of rule R152. -/
theorem test_vpmovzxwqEvex128_zeroing : elemsAfter 64 [0x62#8, 0xF2#8, 0x7D#8, 0x89#8, 0x34#8, 0x08#8] = [0xFF80,
    0x0] ++ List.replicate 6 0 := by decide +kernel

/-- The merging example of rule R153. -/
theorem test_vpmovzxwqEvex256_merging : elemsAfter 64 [0x62#8, 0xF2#8, 0x7D#8, 0x29#8, 0x34#8, 0xCA#8] = [0xFF80,
    0xDDDDDDDDDDDDDDDD, 0xAA00, 0xDDDDDDDDDDDDDDDD] ++ List.replicate 4 0 := by decide +kernel

/-- The zeroing memory example of rule R153. -/
theorem test_vpmovzxwqEvex256_zeroing : elemsAfter 64 [0x62#8, 0xF2#8, 0x7D#8, 0xA9#8, 0x34#8, 0x08#8] = [0xFF80,
    0x0, 0xAA00, 0x0] ++ List.replicate 4 0 := by decide +kernel

/-- The merging example of rule R154. -/
theorem test_vpmovzxwqEvex512_merging : elemsAfter 64 [0x62#8, 0xF2#8, 0x7D#8, 0x49#8, 0x34#8, 0xCA#8] = [0xFF80,
    0xDDDDDDDDDDDDDDDD, 0xAA00, 0xDDDDDDDDDDDDDDDD, 0xDDDDDDDDDDDDDDDD, 0x4433, 0xDDDDDDDDDDDDDDDD, 0xEECC] := by
    decide +kernel

/-- The zeroing memory example of rule R154. -/
theorem test_vpmovzxwqEvex512_zeroing : elemsAfter 64 [0x62#8, 0xF2#8, 0x7D#8, 0xC9#8, 0x34#8, 0x08#8] = [0xFF80,
    0x0, 0xAA00, 0x0, 0x0, 0x4433, 0x0, 0xEECC] := by decide +kernel

/-- The merging example of rule R155. -/
theorem test_vpmovzxdqEvex128_merging : elemsAfter 64 [0x62#8, 0xF2#8, 0x7D#8, 0x09#8, 0x35#8, 0xCA#8] = [0x7F01FF80,
    0xDDDDDDDDDDDDDDDD] ++ List.replicate 6 0 := by decide +kernel

/-- The zeroing memory example of rule R155. -/
theorem test_vpmovzxdqEvex128_zeroing : elemsAfter 64 [0x62#8, 0xF2#8, 0x7D#8, 0x89#8, 0x35#8, 0x08#8] = [0x7F01FF80,
    0x0] ++ List.replicate 6 0 := by decide +kernel

/-- The merging example of rule R156. -/
theorem test_vpmovzxdqEvex256_merging : elemsAfter 64 [0x62#8, 0xF2#8, 0x7D#8, 0x29#8, 0x35#8, 0xCA#8] = [0x7F01FF80,
    0xDDDDDDDDDDDDDDDD, 0x44332211, 0xDDDDDDDDDDDDDDDD] ++ List.replicate 4 0 := by decide +kernel

/-- The zeroing memory example of rule R156. -/
theorem test_vpmovzxdqEvex256_zeroing : elemsAfter 64 [0x62#8, 0xF2#8, 0x7D#8, 0xA9#8, 0x35#8, 0x08#8] = [0x7F01FF80,
    0x0, 0x44332211, 0x0] ++ List.replicate 4 0 := by decide +kernel

/-- The merging example of rule R157. -/
theorem test_vpmovzxdqEvex512_merging : elemsAfter 64 [0x62#8, 0xF2#8, 0x7D#8, 0x49#8, 0x35#8, 0xCA#8] = [0x7F01FF80,
    0xDDDDDDDDDDDDDDDD, 0x44332211, 0xDDDDDDDDDDDDDDDD, 0xDDDDDDDDDDDDDDDD, 0x8796A5B4, 0xDDDDDDDDDDDDDDDD,
    0xF1E2D3C] := by decide +kernel

/-- The zeroing memory example of rule R157. -/
theorem test_vpmovzxdqEvex512_zeroing : elemsAfter 64 [0x62#8, 0xF2#8, 0x7D#8, 0xC9#8, 0x35#8, 0x08#8] = [0x7F01FF80,
    0x0, 0x44332211, 0x0, 0x0, 0x8796A5B4, 0x0, 0xF1E2D3C] := by decide +kernel

/-! ## Witnesses: a concrete state and operands for the hypotheses of every statement -/

theorem legacy_prefixes_nil : ∀ b ∈ ([] : List Byte), isLegacyPrefix b := by simp

theorem admitted_none : admittedPrefixes [] := ⟨false, none, .inl rfl⟩

theorem admitted_both : admittedPrefixes [0x67#8, 0x2E#8] ∧ admittedPrefixes [0x2E#8, 0x67#8] :=
  ⟨⟨true, some .cs, .inl rfl⟩, ⟨true, some .cs, .inr rfl⟩⟩

/-- Highest registers, in each mode. -/
theorem witness_DecodeOfEncodeGivesInstruction :
    (Instr.vpmovzxbwEvex512 ⟨true, some .gs, 31#5, .reg 31#5, 7#3, true⟩).wf .long64 = true ∧
    (Instr.pmovzxdq ⟨false, some .es, false, 7#4, .mem (.sib 7#4 (some 5#4) 3#2 (.d8 0x80#8))⟩).wf .prot32 = true ∧
    (Instr.vpmovzxbdVex256 ⟨true, none, 15#4, .mem (.sibNoBase (some 12#4) 0#2 0#32)⟩).wf .long64 = true := by decide

theorem witness_DecodedInstructionIsWellFormed : decode .prot32 [0xC4#8, 0xE2#8, 0x79#8, 0x30#8, 0x3F#8, 0xCC#8] =
    .instr (.vpmovzxbwVex128 ⟨false, none, 7#4, .mem (.base 7#4 .none)⟩) := by decide +kernel

/-- The shortest and the longest instruction (rule R60). -/
theorem witness_DecodeReadsExactlyItsLength :
    decode .long64 [0x66#8, 0x0F#8, 0x38#8, 0x30#8, 0xC0#8] = .instr (.pmovzxbw ⟨false, none, false, 0#4, .reg 0#4⟩) ∧
    decode .long64 [0x67#8, 0x65#8, 0x62#8, 0xF2#8, 0x7D#8, 0x08#8, 0x30#8, 0x84#8, 0x00#8, 0#8, 0#8, 0#8, 0x80#8] =
      .instr (.vpmovzxbwEvex128
        ⟨true, some .gs, 0#5, .mem (.sib 0#4 (some 0#4) 0#2 (.d32 0x80000000#32)), 0#3, false⟩) := by decide +kernel

theorem witness_EncodedFormMatchesItsTableRow :
    let i := Instr.vpmovzxbqEvex256 ⟨false, none, 31#5, .reg 0#5, 7#3, true⟩
    let j := Instr.vpmovzxbqEvex256 ⟨true, none, 0#5, .mem (.rip 0#32), 0#3, false⟩
    (windowBytes i).length = (windowBytes j).length ∧ bigEndian (windowBytes i) &&& (windowOf j).2 = (windowOf j).1 := by
  decide +kernel

/-- `vvvv` one bit off and all bits off, opcodes 30 and 35. -/
theorem witness_ReservedVvvv_vex :
    vexIdentified (fetched .prot32 [0xC4#8, 0xE2#8, 0x71#8, 0x30#8, 0xCA#8]).params.mode 0xE2#8 0x71#8 0x30#8 ∧
    (0x71#8 : Byte).extractLsb' 3 4 ≠ 15#4 ∧
    (fetched .prot32 [0xC4#8, 0xE2#8, 0x71#8, 0x30#8, 0xCA#8]).fetchBytes =
      [] ++ [0xC4#8, 0xE2#8, 0x71#8, 0x30#8] ++ [0xCA#8] ∧
    vexIdentified (fetched .long64 [0x67#8, 0x2E#8, 0xC4#8, 0x02#8, 0x85#8, 0x35#8]).params.mode 0x02#8 0x85#8 0x35#8 ∧
    (0x85#8 : Byte).extractLsb' 3 4 ≠ 15#4 ∧
    (fetched .long64 [0x67#8, 0x2E#8, 0xC4#8, 0x02#8, 0x85#8, 0x35#8]).fetchBytes =
      [0x67#8, 0x2E#8] ++ [0xC4#8, 0x02#8, 0x85#8, 0x35#8] ++ [] := by
  unfold vexIdentified; decide +kernel

theorem witness_ReservedVvvv_evex :
    evexIdentified (fetched .long64 [0x62#8, 0xF2#8, 0x3D#8, 0x08#8, 0x30#8, 0xCA#8]).params.mode 0xF2#8 0x3D#8 0x30#8 ∧
    (0x3D#8 : Byte).extractLsb' 3 4 ≠ 15#4 ∧
    (fetched .long64 [0x62#8, 0xF2#8, 0x3D#8, 0x08#8, 0x30#8, 0xCA#8]).fetchBytes =
      [] ++ [0x62#8, 0xF2#8, 0x3D#8, 0x08#8, 0x30#8] ++ [0xCA#8] := by
  unfold evexIdentified; decide +kernel

/-- `P0` to `P2` and the opcode with one wrong bit for each clause: `Vpbar`, `b`, `z`, `LL`, both of `P0` bits 3:2, `P1` bit 2, W
on opcode 35. -/
def evexWrongBytes : List (List Byte) :=
  [[0xF2#8, 0x7D#8, 0x00#8, 0x30#8], [0xF2#8, 0x7D#8, 0x18#8, 0x30#8], [0xF2#8, 0x7D#8, 0x88#8, 0x31#8],
    [0xF2#8, 0x7D#8, 0x68#8, 0x32#8], [0xF6#8, 0x7D#8, 0x08#8, 0x33#8], [0xFA#8, 0x7D#8, 0x08#8, 0x33#8],
    [0xF2#8, 0x79#8, 0x08#8, 0x34#8], [0xF2#8, 0xFD#8, 0x08#8, 0x35#8]]

theorem witness_EvexReservedBits :
    ∀ q ∈ evexWrongBytes, evexIdentified .long64 (q.getD 0 0#8) (q.getD 1 0#8) (q.getD 3 0#8) ∧
      evexReservedWrong .long64 (q.getD 0 0#8) (q.getD 1 0#8) (q.getD 2 0#8) (q.getD 3 0#8) := by
  unfold evexIdentified evexReservedWrong; decide +kernel

theorem witness_EvexReservedBits_fetched :
    ∀ q ∈ evexWrongBytes, (fetched .long64 (0x62#8 :: q ++ [0xCA#8])).fetchBytes = [] ++ (0x62#8 :: q) ++ [0xCA#8] := by
  decide +kernel

/-- LOCK, F2 and F3 in the legacy class, with and without 66 and REX; and no 66, F2 or F3 at all. -/
theorem witness_IllegalPrefixes_legacy :
    (∀ q ∈ [[0xF0#8, 0x66#8], [0xF2#8], [0xF3#8, 0x67#8], []],
      (∀ b ∈ q, isLegacyPrefix b) ∧
      (fetched .long64 (q ++ [0x48#8, 0x0F#8, 0x38#8, 0x30#8, 0xCA#8])).fetchBytes =
        q ++ [0x48#8] ++ [0x0F#8, 0x38#8, 0x30#8] ++ [0xCA#8]) ∧
    (fetched .long64 []).params.mode = .long64 ∧ (0x48#8 : Byte).extractLsb' 4 4 = 4#4 ∧ 0x30#8 ≤ (0x30#8 : Byte) := by
  unfold isLegacyPrefix; decide +kernel

theorem witness_IllegalPrefixes_vex_evex :
    (∀ q ∈ [([0x66#8], []), ([0xF2#8], []), ([0xF3#8], []), ([0x64#8, 0xF0#8], []), ([], [0x40#8])],
      (∀ b ∈ q.1, isLegacyPrefix b) ∧
      (0x66#8 ∈ q.1 ∨ 0xF2#8 ∈ q.1 ∨ 0xF3#8 ∈ q.1 ∨ 0xF0#8 ∈ q.1 ∨ q.2 ≠ []) ∧
      (fetched .long64 (q.1 ++ q.2 ++ [0xC4#8, 0xE2#8, 0x79#8, 0x35#8])).fetchBytes =
        q.1 ++ q.2 ++ [0xC4#8, 0xE2#8, 0x79#8, 0x35#8] ++ [] ∧
      (fetched .long64 (q.1 ++ q.2 ++ [0x62#8, 0xF2#8, 0x7D#8, 0x08#8, 0x35#8])).fetchBytes =
        q.1 ++ q.2 ++ [0x62#8, 0xF2#8, 0x7D#8, 0x08#8, 0x35#8] ++ []) ∧
    vexIdentified .long64 0xE2#8 0x79#8 0x35#8 ∧ evexIdentified .long64 0xF2#8 0x7D#8 0x35#8 := by
  unfold isLegacyPrefix vexIdentified evexIdentified; decide +kernel

theorem rex_is_optional : optionalRex .long64 [0x48#8] ∧ optionalRex .long64 [0x40#8] ∧ optionalRex .prot32 [] :=
  ⟨.inr ⟨rfl, 0x48#8, by decide, rfl⟩, .inr ⟨rfl, 0x40#8, by decide, rfl⟩, .inl rfl⟩

/-- 66 twice, 67 twice, two segment overrides, for the legacy class. -/
theorem witness_UnlistedPrefixes_legacy :
    ∀ q ∈ [[0x66#8, 0x66#8], [0x67#8, 0x66#8, 0x67#8], [0x2E#8, 0x66#8, 0x36#8]],
      (∀ b ∈ q, isLegacyPrefix b) ∧ 0xF0#8 ∉ q ∧ 0xF2#8 ∉ q ∧ 0xF3#8 ∉ q ∧ 0x66#8 ∈ q ∧
      (1 < q.count 0x66#8 ∨ 1 < q.count 0x67#8 ∨ 1 < (q.filter fun b => (segOfPrefix b).isSome).length) ∧
      (fetched .long64 (q ++ [0x0F#8, 0x38#8, 0x35#8])).fetchBytes = q ++ [] ++ [0x0F#8, 0x38#8, 0x35#8] ++ [] := by
  unfold isLegacyPrefix; decide +kernel

/-- 67 twice and two segment overrides, for the VEX and EVEX classes; a REX byte before 66. -/
theorem witness_UnlistedPrefixes_others :
    (∀ q ∈ [[0x67#8, 0x67#8], [0x2E#8, 0x36#8]],
      (∀ b ∈ q, isLegacyPrefix b) ∧ 0xF0#8 ∉ q ∧ 0xF2#8 ∉ q ∧ 0xF3#8 ∉ q ∧ 0x66#8 ∉ q ∧
      (1 < q.count 0x67#8 ∨ 1 < (q.filter fun b => (segOfPrefix b).isSome).length) ∧
      vexIdentified .prot32 0xE2#8 0x79#8 0x30#8 ∧ evexIdentified .prot32 0xF2#8 0x7D#8 0x30#8 ∧
      (fetched .prot32 (q ++ [0xC4#8, 0xE2#8, 0x79#8, 0x30#8])).fetchBytes = q ++ [0xC4#8, 0xE2#8, 0x79#8, 0x30#8] ++ [] ∧
      (fetched .prot32 (q ++ [0x62#8, 0xF2#8, 0x7D#8, 0x08#8, 0x30#8])).fetchBytes =
        q ++ [0x62#8, 0xF2#8, 0x7D#8, 0x08#8, 0x30#8] ++ []) ∧
    (∀ b ∈ [0x67#8], isLegacyPrefix b) ∧ (0x4F#8 : Byte).extractLsb' 4 4 = 4#4 ∧ (0x66#8 : Byte) ≠ 0x0F#8 ∧
    (0x66#8 : Byte) ≠ 0xC4#8 ∧ (0x66#8 : Byte) ≠ 0x62#8 ∧
    (fetched .long64 [0x67#8, 0x4F#8, 0x66#8, 0x0F#8]).fetchBytes = [0x67#8] ++ [0x4F#8, 0x66#8] ++ [0x0F#8] := by
  unfold isLegacyPrefix vexIdentified evexIdentified; decide +kernel

/-- Bits 7:6 of the next byte 10b, after C4 and after 62; and a legacy form with the prefix 67. -/
theorem witness_ProtectedModeEncodings_bytes :
    (fetched .prot32 []).params.mode = .prot32 ∧ (0xBF#8 : Byte).extractLsb' 6 2 ≠ 3#2 ∧
    (fetched .prot32 [0xC4#8, 0xBF#8, 0x79#8, 0x30#8]).fetchBytes = [] ++ [0xC4#8, 0xBF#8, 0x79#8, 0x30#8] ++ [] ∧
    (fetched .prot32 [0x62#8, 0xBF#8, 0x7D#8, 0x08#8, 0x30#8]).fetchBytes =
      [] ++ [0x62#8, 0xBF#8, 0x7D#8, 0x08#8, 0x30#8] ++ [] ∧
    (∀ b ∈ [0x66#8, 0x67#8], isLegacyPrefix b) ∧ [0x66#8, 0x67#8].count 0x66#8 = 1 ∧ [0x66#8, 0x67#8].count 0x67#8 = 1 ∧
    ([0x66#8, 0x67#8].filter fun b => (segOfPrefix b).isSome).length ≤ 1 ∧
    (fetched .prot32 [0x66#8, 0x67#8, 0x0F#8, 0x38#8, 0x35#8]).fetchBytes =
      [0x66#8, 0x67#8] ++ [0x0F#8, 0x38#8, 0x35#8] ++ [] := by
  unfold isLegacyPrefix; decide +kernel

/-- `Bbar` = 0, and the prefix 67. -/
theorem witness_ProtectedModeEncodings_vex :
    ∀ q ∈ [([], 0xC2#8), ([0x67#8, 0x2E#8], 0xE2#8)],
      vexIdentified .prot32 q.2 0x79#8 0x30#8 ∧ (q.2.getLsbD 5 = false ∨ 0x67#8 ∈ q.1) ∧
      (0x79#8 : Byte).extractLsb' 3 4 = 15#4 ∧
      (fetched .prot32 (q.1 ++ [0xC4#8, q.2, 0x79#8, 0x30#8])).fetchBytes =
        q.1 ++ [0xC4#8, q.2, 0x79#8, 0x30#8] ++ [] := by
  unfold vexIdentified; decide +kernel

/-- `Vpbar` = 0 alone (rule R82). -/
theorem witness_ProtectedModeEncodings_vpbar :
    evexIdentified .prot32 0xF2#8 0x7D#8 0x30#8 ∧ ¬ evexReservedWrong .prot32 0xF2#8 0x7D#8 0x00#8 0x30#8 ∧
    (0x00#8 : Byte).getLsbD 3 = false ∧ (0x7D#8 : Byte).extractLsb' 3 4 = 15#4 ∧
    (fetched .prot32 [0x62#8, 0xF2#8, 0x7D#8, 0x00#8, 0x30#8]).fetchBytes =
      [] ++ [0x62#8, 0xF2#8, 0x7D#8, 0x00#8, 0x30#8] ++ [] := by
  unfold evexIdentified evexReservedWrong; decide +kernel

/-- `Bbar` = 0, `Rpbar` = 0, and the prefix 67. -/
theorem witness_ProtectedModeEncodings_evex :
    ∀ q ∈ [([], 0xD2#8), ([], 0xE2#8), ([0x67#8, 0x2E#8], 0xF2#8)],
      evexIdentified .prot32 q.2 0x7D#8 0x30#8 ∧ ¬ evexReservedWrong .prot32 q.2 0x7D#8 0x08#8 0x30#8 ∧
      (q.2.getLsbD 5 = false ∨ q.2.getLsbD 4 = false ∨ 0x67#8 ∈ q.1) ∧ (0x7D#8 : Byte).extractLsb' 3 4 = 15#4 ∧
      (fetched .prot32 (q.1 ++ [0x62#8, q.2, 0x7D#8, 0x08#8, 0x30#8])).fetchBytes =
        q.1 ++ [0x62#8, q.2, 0x7D#8, 0x08#8, 0x30#8] ++ [] := by
  unfold evexIdentified evexReservedWrong; decide +kernel

theorem witness_WBit : (∀ b ∈ [0x65#8], isLegacyPrefix b) ∧ (0x34#8 : Byte) ≠ 0x35#8 ∧
    evexIdentified .prot32 0xF2#8 0xFD#8 0x35#8 ∧ (0xFD#8 : Byte).getLsbD 7 = true ∧
    (fetched .prot32 [0x62#8, 0xF2#8, 0xFD#8, 0x08#8, 0x35#8, 0xCA#8]).fetchBytes =
      [] ++ [0x62#8, 0xF2#8, 0xFD#8, 0x08#8, 0x35#8] ++ [0xCA#8] := by
  unfold evexIdentified isLegacyPrefix; decide +kernel

/-- A register source with `rm` = 100b, a memory source with `rm` = 101b. -/
theorem witness_IgnoredBits : (∀ b ∈ [0x66#8], isLegacyPrefix b) ∧ (0x48#8 : Byte).extractLsb' 4 4 = 4#4 ∧
    (0xCC#8 : Byte).extractLsb' 6 2 = 3#2 ∧ (0x05#8 : Byte).extractLsb' 6 2 ≠ 3#2 ∧
    (0x05#8 : Byte).extractLsb' 0 3 ≠ 4#3 := by
  unfold isLegacyPrefix; decide +kernel

/-- The first and the last byte of a program. -/
theorem witness_StepRunsTheDecodedInstruction :
    decode (fetched .prot32 [0x66#8, 0x0F#8, 0x38#8, 0x30#8, 0xCA#8]).params.mode
      (fetched .prot32 [0x66#8, 0x0F#8, 0x38#8, 0x30#8, 0xCA#8]).fetchBytes =
      .instr (.pmovzxbw ⟨false, none, false, 1#4, .reg 2#4⟩) ∧
    0 < (fetched .prot32 [0x66#8, 0x0F#8, 0x38#8, 0x30#8, 0xCA#8]).progRemaining ∧
    4 < (fetched .prot32 [0x66#8, 0x0F#8, 0x38#8, 0x30#8, 0xCA#8]).progRemaining := by decide +kernel

theorem witness_StepStopsWhereDecodingStops :
    decode .long64 (fetched .long64 [0xF0#8, 0x66#8, 0x0F#8, 0x38#8, 0x30#8, 0xCA#8]).fetchBytes = .ud ∧
    (fetched .long64 [0x90#8]).progRemaining ≠ 0 ∧
    decode .long64 (fetched .long64 [0x90#8]).fetchBytes = .reject .opcode ∧ ready.progRemaining = 0 ∧
    ready.atEnd = true := by decide +kernel

theorem witness_StepKeepsInvariant :
    (fetched .long64 [0xC4#8, 0xE2#8, 0x7D#8, 0x30#8, 0x08#8]).Inv ∧
    ∃ t, step (fetched .long64 [0xC4#8, 0xE2#8, 0x7D#8, 0x30#8, 0x08#8]) = .next t :=
  ⟨⟨by decide +kernel, by decide +kernel, by decide +kernel, by decide +kernel⟩, exists_next (by decide +kernel)⟩

/-- Registers 15 and 31 in `Long64`, 7 in `Prot32`. -/
theorem witness_DecodedFormsNameExistingRegisters :
    decode .long64 (fetched .long64 [0x66#8, 0x45#8, 0x0F#8, 0x38#8, 0x30#8, 0xFF#8]).fetchBytes =
      .instr (.pmovzxbw ⟨false, none, true, 15#4, .reg 15#4⟩) ∧
    decode .long64 (fetched .long64 [0xC4#8, 0x42#8, 0x79#8, 0x30#8, 0xFF#8]).fetchBytes =
      .instr (.vpmovzxbwVex128 ⟨false, none, 15#4, .reg 15#4⟩) ∧
    decode .long64 (fetched .long64 [0x62#8, 0x02#8, 0x7D#8, 0x08#8, 0x30#8, 0xFF#8]).fetchBytes =
      .instr (.vpmovzxbwEvex128 ⟨false, none, 31#5, .reg 31#5, 0#3, false⟩) ∧
    decode .prot32 (fetched .prot32 [0x62#8, 0xF2#8, 0x7D#8, 0x08#8, 0x30#8, 0xFF#8]).fetchBytes =
      .instr (.vpmovzxbwEvex128 ⟨false, none, 7#5, .reg 7#5, 0#3, false⟩) ∧
    enabledFor (.vpmovzxbwEvex128 ⟨false, none, 31#5, .reg 31#5, 0#3, false⟩)
      (fetched .long64 [0x62#8, 0x02#8, 0x7D#8, 0x08#8, 0x30#8, 0xFF#8]) = true := by decide +kernel

/-- Every legacy form completes from a register and, at any alignment, from memory. -/
theorem witness_LegacyFormsComplete : ∀ i ∈ legacyForms (.reg 2#4) ++ legacyForms (.mem (.base 0#4 (.d8 1#8))),
    enabledFor i ready = true ∧ ready.crTs = false ∧ readableFor i ready = true ∧ isNext (exec i ready) = true := by
  decide +kernel

theorem witness_VexFormsComplete : ∀ i ∈ vexForms (.reg 2#4) ++ vexForms (.mem (.base 0#4 (.d8 1#8))),
    enabledFor i ready = true ∧ ready.crTs = false ∧ readableFor i ready = true ∧ isNext (exec i ready) = true := by
  decide +kernel

theorem witness_EvexFormsComplete : ∀ i ∈ evexForms (.reg 2#5) 1#3 false ++ evexForms (.mem (.base 0#4 (.d8 1#8))) 1#3 true,
    enabledFor i ready = true ∧ ready.crTs = false ∧ readableFor i ready = true ∧ isNext (exec i ready) = true := by
  decide +kernel

/-- An address that is a multiple of the operand's size passes `AlignCheck`, up to the largest size, 32 bytes. -/
theorem witness_AlignedFormsComplete :
    readableFor (.vpmovzxbwEvex512 ⟨false, none, 1#5, .mem (.base 0#4 (.d8 1#8)), 0#3, false⟩) (checkingAlignment ready) =
      true ∧ (checkingAlignment ready).alignCheck = true := by decide +kernel

/-- Each class without its feature, without its enable, and with both but CR0.TS = 1 (rules R173, R174, R176). -/
theorem witness_ExceptionsOfDisabledForms :
    (∀ i ∈ legacyForms (.reg 2#4), faultOf (exec i { ready with cr4 := 0x40000#64 }) = some .ud ∧
      faultOf (exec i { taskSwitched ready with cr4 := 0x40000#64 }) = some .ud ∧
      enabledFor i (taskSwitched ready) = true ∧ faultOf (exec i (taskSwitched ready)) = some .nm) ∧
    (∀ i ∈ vexForms (.reg 2#4), faultOf (exec i { ready with xcr0 := 5#64 }) = some .ud ∧
      enabledFor i (taskSwitched ready) = true ∧ faultOf (exec i (taskSwitched ready)) = some .nm) ∧
    (∀ i ∈ evexForms (.reg 2#5) 0#3 false, faultOf (exec i { ready with xcr0 := 0x67#64 }) = some .ud ∧
      enabledFor i (taskSwitched ready) = true ∧ faultOf (exec i (taskSwitched ready)) = some .nm) := by decide +kernel

/-- Eight bytes read where seven are mapped; and a register source that faults. -/
theorem witness_UnreadableSource :
    let i := Instr.pmovzxbw ⟨false, none, false, 1#4, .mem (.base 0#4 .none)⟩
    let s := withPages 0x1000 7 true ready
    enabledFor i s = true ∧ s.crTs = false ∧ readableFor i s = false ∧
      srcOf (.pmovzxbw ⟨false, none, false, 1#4, .reg 2#4⟩) = .reg 2#5 ∧
      faultOf (exec (.pmovzxbw ⟨false, none, false, 1#4, .reg 2#4⟩) (taskSwitched s)) = some .nm := by decide +kernel

/-- One fault of each kind: through SS, through DS, the eighth byte unmapped, a page that privilege level 3 may not read, and a
misaligned address. -/
theorem witness_MemoryFaultKinds :
    exec (.pmovzxbw ⟨false, none, false, 1#4, .mem (.base 5#4 (.d8 0#8))⟩) (withoutSeg .ss ready) = .fault .ss ∧
    exec (.pmovzxbw ⟨false, none, false, 1#4, .mem (.base 0#4 .none)⟩) (withoutSeg .ds ready) = .fault .gp ∧
    exec (.pmovzxbw ⟨false, none, false, 1#4, .mem (.base 0#4 .none)⟩) (withPages 0x1000 7 true ready) =
      .fault (.pf 0#32 0x1007#64) ∧
    exec (.pmovzxbw ⟨false, none, false, 1#4, .mem (.base 0#4 .none)⟩)
      (withPages 0x1000 8 false { ready with cpl := 3#2 }) = .fault (.pf 5#32 0x1000#64) ∧
    exec (.pmovzxbw ⟨false, none, false, 1#4, .mem (.base 0#4 (.d8 4#8))⟩) (checkingAlignment ready) = .fault .ac :=
  ⟨fault_of (by decide +kernel), fault_of (by decide +kernel), fault_of (by decide +kernel), fault_of (by decide +kernel),
    fault_of (by decide +kernel)⟩

/-- An address one below a multiple of the operand's size, with and without `AlignCheck`. -/
theorem witness_Misaligned :
    let i := Instr.vpmovzxbwEvex512 ⟨false, none, 1#5, .mem (.base 0#4 .none), 1#3, false⟩
    let s := withAddress 0x101F#64 ready
    (enabledFor i s = true ∧ s.crTs = false ∧ readAdmitted i s (.base 0#4 .none) = true ∧ s.alignCheck = false) ∧
    (checkingAlignment s).cr0.getLsbD 18 = true ∧ (checkingAlignment s).rflags.getLsbD 18 = true ∧
    (checkingAlignment s).cpl = 3#2 ∧ (checkingAlignment s).crTs = false ∧ enabledFor i (checkingAlignment s) = true ∧
    readAdmitted i (checkingAlignment s) (.base 0#4 .none) = true ∧ readsSome i (checkingAlignment s) = true ∧
    (addrOf i (checkingAlignment s) (.base 0#4 .none)).toNat % nbytesOf i ≠ 0 := by decide +kernel

/-- The low eight mask bits are A5: with only byte 0 mapped even the suppressing form faults, with bytes 0 to 7 mapped neither
setting does; with no byte mapped and the mask 0 only the suppressing form completes. -/
theorem witness_FaultSuppression :
    let i := Instr.vpmovzxbwEvex128 ⟨false, none, 1#5, .mem (.base 0#4 .none), 1#3, false⟩
    let z := Instr.vpmovzxbwEvex128 ⟨false, none, 1#5, .mem (.base 0#4 .none), 2#3, false⟩
    (∀ b ∈ [true, false], ∀ n ∈ [1, 8], enabledFor i (suppressing b (withPages 0x1000 n true ready)) = true ∧
      (suppressing b (withPages 0x1000 n true ready)).crTs = false ∧
      (suppressing b (withPages 0x1000 n true ready)).alignCheck = false) ∧
    isNext (exec i (suppressing true (withPages 0x1000 1 true ready))) = false ∧
    isNext (exec i (suppressing true (withPages 0x1000 8 true ready))) = true ∧
    isNext (exec i (suppressing false (withPages 0x1000 8 true ready))) = true ∧
    (∀ j < klOf z, ((suppressing true (withPages 0x1000 0 true ready)).kRead 2#3).getLsbD j = false) ∧
    isNext (exec z (suppressing true (withPages 0x1000 0 true ready))) = true ∧
    isNext (exec z (suppressing false (withPages 0x1000 0 true ready))) = false := by decide +kernel

/-- An unmapped byte of a masked-off element faults only without suppression: bytes 0 to 3 are mapped, four elements are read
under the mask 5. -/
theorem witness_FaultSuppression_partial :
    let i := Instr.vpmovzxbdEvex128 ⟨false, none, 1#5, .mem (.base 0#4 .none), 1#3, false⟩
    isNext (exec i (suppressing true (withPages 0x1000 3 true ready))) = true ∧
    isNext (exec i (suppressing false (withPages 0x1000 3 true ready))) = false := by decide +kernel

theorem witness_LegacyFormsAlwaysReadAll :
    let i := Instr.pmovzxbw ⟨false, none, false, 1#4, .mem (.base 0#4 .none)⟩
    (∀ o, i.operands ≠ .evex o) ∧ enabledFor i (withPages 0x1000 8 true ready) = true ∧
    (withPages 0x1000 8 true ready).crTs = false ∧ (withPages 0x1000 8 true ready).alignCheck = false :=
  ⟨fun _ h => Operands.noConfusion h, by decide +kernel, by decide +kernel, by decide +kernel⟩

/-- A program of two instructions: a step completes, and a run of two. -/
theorem witness_StepsAndRuns :
    (∃ t, step (fetched .prot32 [0x66#8, 0x0F#8, 0x38#8, 0x30#8, 0xCA#8, 0xC4#8, 0xE2#8, 0x79#8, 0x30#8, 0x08#8]) =
      .next t) ∧
    ∃ t, Host.Core.run Sys2Proof.core 2
      (fetched .prot32 [0x66#8, 0x0F#8, 0x38#8, 0x30#8, 0xCA#8, 0xC4#8, 0xE2#8, 0x79#8, 0x30#8, 0x08#8]) = .next t :=
  ⟨exists_next (by decide +kernel), exists_next (by decide +kernel)⟩

/-- The bounds of the run statement hold of that program, at its first byte. -/
theorem witness_RunEndsWithinLengthOverFive :
    let s := fetched .prot32 [0x66#8, 0x0F#8, 0x38#8, 0x30#8, 0xCA#8, 0xC4#8, 0xE2#8, 0x79#8, 0x30#8, 0x08#8]
    s.params.progBase.toNat + s.params.progLen ≤ modulusOf s.params.mode ∧
    s.params.progBase.toNat ≤ s.pcCount ∧ s.pcCount ≤ s.params.progBase.toNat + s.params.progLen := by decide +kernel

/-- A text from address 0 that fills the 32-bit space, at its last instruction. -/
def fullSpace : State :=
  let s := (atCode .prot32 0#64 0xFFFFFFFB#64).launch legacyWord
  { s with params := { s.params with progBase := 0#64, progLen := 2 ^ 32 } }

/-- They hold of a text that fills the space, at its last instruction and, with `rip` wrapped to 0, at its end. -/
theorem witness_RunEndsWithinLengthOverFive_top :
    fullSpace.params.progBase.toNat + fullSpace.params.progLen = modulusOf .prot32 ∧
    fullSpace.params.progBase.toNat ≤ fullSpace.pcCount ∧ fullSpace.pcCount + 5 = 2 ^ 32 ∧
    (∃ t, Host.Core.run Sys2Proof.core 1 fullSpace = .next t) ∧
    { fullSpace with rip := 0#64, wrapped := true }.pcCount = 2 ^ 32 :=
  ⟨by decide +kernel, by decide +kernel, by decide +kernel, exists_next (by decide +kernel), by decide +kernel⟩

/-- Rule R204: the run of that text ends after its last instruction, and with `rip` = 0 before it the text runs. -/
theorem test_full_space_ends :
    refusalOf (match step fullSpace with | .next t => step t | o => o) = some .endOfProgram ∧
    { fullSpace with rip := 0#64 }.atEnd = false := by decide +kernel

/-- Outcomes of every kind: a next state, #UD, #NM and a memory fault. -/
theorem witness_Outcomes :
    (∃ t, exec (.vpmovzxbwVex128 ⟨false, none, 1#4, .reg 2#4⟩) ready = .next t) ∧
    exec (.vpmovzxbwVex128 ⟨false, none, 1#4, .reg 2#4⟩) State.reset = .fault .ud ∧
    exec (.vpmovzxbwVex128 ⟨false, none, 1#4, .reg 2#4⟩) (taskSwitched ready) = .fault .nm ∧
    exec (.vpmovzxbwVex128 ⟨false, none, 1#4, .mem (.base 0#4 .none)⟩) (withPages 0 0 true ready) =
      .fault (.pf 0#32 0x1000#64) ∧
    srcOf (.vpmovzxbwVex128 ⟨false, none, 1#4, .reg 2#4⟩) = .reg 2#5 ∧
    srcOf (.vpmovzxbwVex128 ⟨false, none, 1#4, .mem (.base 0#4 .none)⟩) = .mem (.base 0#4 .none) :=
  ⟨exists_next (by decide +kernel), fault_of (by decide +kernel), fault_of (by decide +kernel),
    fault_of (by decide +kernel), by decide, by decide⟩

/-- Bytes 8 to 63 of the source differ, its low 8 are the same. -/
theorem witness_SourceBytesAboveOperandIgnored :
    let i := Instr.pmovzxbw ⟨false, none, false, 1#4, .reg 2#4⟩
    srcOf i = .reg 2#5 ∧ 2#5 ≠ destOf i ∧
    (∀ n < nbytesOf i, vecByte (vecOf (sourceBytes.take 8)) n = vecByte (ready.zmm.get (2#5 : BitVec 5).toFin) n) ∧
    vecOf (sourceBytes.take 8) ≠ ready.zmm.get (2#5 : BitVec 5).toFin ∧ isNext (exec i ready) = true := by decide +kernel

/-- Only the 8 bytes of the operand are listed, the others differ. -/
theorem witness_MemoryOutsideOperandIgnored :
    let i := Instr.pmovzxbw ⟨false, none, false, 1#4, .mem (.base 0#4 .none)⟩
    (∀ k < nbytesOf i, Memory.read (ready.mem.take 7) (ready.byteAddr (addrOf i ready (.base 0#4 .none)) k) =
      ready.mem.read (ready.byteAddr (addrOf i ready (.base 0#4 .none)) k)) ∧
    ready.mem.take 7 ≠ ready.mem ∧ isNext (exec i ready) = true := by decide +kernel

/-- Opmask 1 with its bits above the eight elements cleared. -/
theorem witness_MaskBitsAboveElementsIgnored :
    let i := Instr.vpmovzxbwEvex128 ⟨false, none, 1#5, .reg 2#5, 1#3, false⟩
    (∀ (a : BitVec 3), ∀ j < klOf i,
      ((ready.k.set 1 0xA5#64).get a.toFin).getLsbD j = (ready.k.get a.toFin).getLsbD j) ∧
    ready.k.set 1 0xA5#64 ≠ ready.k ∧ isNext (exec i ready) = true := by decide +kernel

/-- Registers 3 and 4 hold equal values; in the EVEX class registers 0 and 31. -/
theorem witness_SameRegister :
    ready.zmm.get ((3#4 : BitVec 4).setWidth 5).toFin = ready.zmm.get ((4#4 : BitVec 4).setWidth 5).toFin ∧
    ready.zmm.get (31#5 : BitVec 5).toFin = ready.zmm.get (0#5 : BitVec 5).toFin ∧
    isNext (exec (legacyForm .bw ⟨false, none, false, 4#4, .reg 3#4⟩) ready) = true ∧
    isNext (exec (vexForm true .bw ⟨false, none, 4#4, .reg 3#4⟩) ready) = true ∧
    isNext (exec (evexForm .l512 .bw ⟨false, none, 0#5, .reg 31#5, 1#3, false⟩) ready) = true := by decide +kernel

/-- From a register, and from memory with a scaled displacement: 16 bytes up are `d8` = 16 in the VEX form and 2 in the EVEX
form of VPMOVZXBW xmm. -/
theorem witness_VexAndEvexEncodingsAgree :
    (∀ c ∈ allConv, ∀ l ∈ [false, true], enabledFor (vexForm l c ⟨true, some .ss, 15#4, .reg 0#4⟩) ready = true ∧
      enabledFor (evexForm (evexLenOf l) c ⟨true, some .ss, 15#5, .reg 0#5, 0#3, false⟩) ready = true ∧
      readableFor (vexForm l c ⟨true, some .ss, 15#4, .mem (.base 0#4 (.d32 16#32))⟩) ready = true) ∧
    ready.crTs = false ∧
    addrOf (vexForm false .bw ⟨false, none, 1#4, .mem (.base 0#4 (.d8 16#8))⟩) ready (.base 0#4 (.d8 16#8)) =
      addrOf (evexForm .l128 .bw ⟨false, none, 1#5, .mem (.base 0#4 (.d8 2#8)), 0#3, false⟩) ready
        (.base 0#4 (.d8 2#8)) ∧
    segOf none (.base 0#4 (.d8 16#8)) = segOf none (.base 0#4 (.d8 2#8)) ∧
    addressIsPlain (.sib 0#4 (some 15#4) 3#2 (.d32 16#32)) = true ∧
    exec (vexForm false .bw ⟨false, none, 1#4, .mem (.base 0#4 .none)⟩) (withPages 0 0 true ready) =
      .fault (.pf 0#32 0x1000#64) :=
  ⟨by decide +kernel, by decide +kernel, by decide +kernel, by decide +kernel, by decide, fault_of (by decide +kernel)⟩

/-- The last element of the widest forms. -/
theorem witness_PackedZeroExtension :
    (8 ∈ [8, 16, 32] ∧ 16 ∈ [16, 32, 64] ∧ 8 < 16 ∧ 32 * 16 ≤ 512 ∧ 31 < 32) ∧
    (32 ∈ [8, 16, 32] ∧ 64 ∈ [16, 32, 64] ∧ 32 < 64 ∧ 8 * 64 ≤ 512 ∧ 7 < 8) := by decide

/-- A read that wraps at the top of the address space, in each mode; the last byte and element of 64 and 32 bytes. -/
theorem witness_MemoryReadIsLittleEndian :
    ready.params.mode = .long64 ∧ (fetched .prot32 []).params.mode = .prot32 ∧
    (ready.byteAddr (-1) 1).toNat = 0 ∧ ((fetched .prot32 []).byteAddr 0xFFFFFFFF#64 1).toNat = 0 ∧ 63 < 64 ∧
    (7 + 1) * (32 / 8) ≤ 32 := by decide +kernel

/-- Both causes of 32-bit addressing, and both modes. -/
theorem witness_EffectiveAddress :
    ready.params.mode = .long64 ∧ (true = true ∨ ready.params.mode = .prot32) ∧
    (false = true ∨ (fetched .prot32 []).params.mode = .prot32) ∧ (none : Option Seg) ≠ some .fs ∧
    some Seg.ss ≠ some .gs := by decide +kernel

/-- Forms with the displacements -128 and 127. -/
theorem witness_OneByteDisplacementIsScaled :
    isNext (exec (legacyForm .dq ⟨false, none, false, 1#4, .mem (.base 0#4 (.d8 0x80#8))⟩) ready) = true ∧
    isNext (exec (vexForm true .dq ⟨false, none, 1#4, .mem (.base 0#4 (.d8 0x7F#8))⟩) ready) = true ∧
    isNext (exec (evexForm .l512 .bw ⟨false, none, 1#5, .mem (.base 0#4 (.d8 0x80#8)), 0#3, false⟩) ready) = true ∧
    isNext (exec (evexForm .l512 .bw ⟨false, none, 1#5, .mem (.sib 0#4 (some 0#4) 3#2 (.d8 0x7F#8)), 0#3, false⟩) ready) =
      true := by decide +kernel

/-- A launch that ends at the top of the 32-bit address space, without and with a code-segment base. -/
theorem witness_LaunchedProgramIsFetched :
    (atCode .prot32 0#64 0xFFFFFFFB#64).mem.wf = true ∧
    (atCode .prot32 0#64 0xFFFFFFFB#64).rip.toNat + legacyWord.length ≤ modulusOf .prot32 ∧
    ((atCode .prot32 0#64 0xFFFFFFFB#64).linear .cs 0xFFFFFFFB#64).toNat + legacyWord.length ≤ modulusOf .prot32 ∧
    (atCode .prot32 0xFFFFDFFB#64 0x2000#64).rip.toNat + legacyWord.length ≤ modulusOf .prot32 ∧
    ((atCode .prot32 0xFFFFDFFB#64 0x2000#64).linear .cs 0x2000#64).toNat + legacyWord.length = modulusOf .prot32 := by
  decide +kernel

/-- Rule R24: an instruction that ends at the top of the program counter's range, or of the linear space behind a code-segment
base, completes. -/
theorem test_fetch_up_to_the_top :
    isNext (step ((atCode .prot32 0#64 0xFFFFFFFB#64).launch legacyWord)) = true ∧
    isNext (step ((atCode .prot32 0xFFFFDFFB#64 0x2000#64).launch legacyWord)) = true := by decide +kernel

/-- Rules R24, R204: a text that ends at the top ends there, and the bytes past the top of one that runs on (log entry 10) are no
part of it. -/
theorem test_end_at_the_top :
    refusalOf (match step ((atCode .prot32 0#64 0xFFFFFFFB#64).launch legacyWord) with | .next t => step t | o => o) =
      some .endOfProgram ∧
    refusalOf (match step ((atCode .prot32 0#64 0xFFFFFFFB#64).launch (legacyWord ++ legacyWord)) with
      | .next t => step t | o => o) = some .outsideProgram := by decide +kernel

/-- Rule R24: one that crosses either top is refused. -/
theorem test_fetch_across_the_top :
    refusalOf (step ((atCode .prot32 0#64 0xFFFFFFFC#64).launch legacyWord)) = some (.undecoded .truncated) ∧
    refusalOf (step ((atCode .prot32 0xFFFFDFFC#64 0x2000#64).launch legacyWord)) = some (.undecoded .truncated) := by
  decide +kernel

theorem witness_NoInstructionCrossesTheEndOrTheTop :
    ∃ t, step ((atCode .prot32 0xFFFFDFFB#64 0x2000#64).launch legacyWord) = .next t := exists_next (by decide +kernel)

/-- `Vpbar` = 0 (log entry 17): #UD in `Long64` (rule R80 (b)), refused in `Prot32` (rule R82), where with `b` = 1 beside it it is
#UD (rule R80 (c)). -/
theorem test_vpbar :
    faultOf (step (fetched .long64 [0x62#8, 0xF2#8, 0x7D#8, 0x00#8, 0x30#8, 0xCA#8])) = some .ud ∧
    refusalOf (step (fetched .prot32 [0x62#8, 0xF2#8, 0x7D#8, 0x00#8, 0x30#8, 0xCA#8])) =
      some (.undecoded .extensionBit) ∧
    faultOf (step (fetched .prot32 [0x62#8, 0xF2#8, 0x7D#8, 0x10#8, 0x30#8, 0xCA#8])) = some .ud := by decide +kernel

/-- A byte that begins no class with and without REX, and C5. -/
theorem witness_BytesOfNoForm_class :
    ¬ isLegacyPrefix 0x90#8 ∧ ¬ isLegacyPrefix 0xC5#8 ∧ (0x90#8 : Byte).extractLsb' 4 4 ≠ 4#4 ∧
    (0xC5#8 : Byte).extractLsb' 4 4 ≠ 4#4 ∧ (∀ b ∈ [0x66#8], isLegacyPrefix b) ∧
    (fetched .long64 [0x66#8, 0x48#8, 0x90#8]).fetchBytes = [0x66#8] ++ [0x48#8] ++ [0x90#8] ++ [] ∧
    (fetched .prot32 [0x66#8, 0xC5#8]).fetchBytes = [0x66#8] ++ [] ++ [0xC5#8] ++ [] := by
  unfold isLegacyPrefix; decide +kernel

/-- A byte other than 38 after 0F, and the opcode 36. -/
theorem witness_BytesOfNoForm_legacy :
    (0x3A#8 : Byte) ≠ 0x38#8 ∧ ¬ (0x30#8 ≤ (0x36#8 : Byte) ∧ (0x36#8 : Byte) ≤ 0x35#8) ∧
    (fetched .prot32 [0x66#8, 0x0F#8, 0x3A#8, 0x30#8]).fetchBytes = [0x66#8] ++ [] ++ [0x0F#8, 0x3A#8, 0x30#8] ++ [] ∧
    (fetched .prot32 [0x66#8, 0x0F#8, 0x38#8, 0x36#8]).fetchBytes = [0x66#8] ++ [] ++ [0x0F#8, 0x38#8, 0x36#8] ++ [] := by
  decide +kernel

/-- A map, a `pp` and an opcode one off, and in `Prot32` bits 7:6 = 01b; one of them fetched. -/
theorem witness_BytesOfNoForm_vex :
    ¬ vexIdentified .prot32 0xE1#8 0x79#8 0x30#8 ∧ ¬ vexIdentified .prot32 0xE2#8 0x78#8 0x30#8 ∧
    ¬ vexIdentified .prot32 0xE2#8 0x79#8 0x36#8 ∧ ¬ vexIdentified .prot32 0x62#8 0x79#8 0x30#8 ∧
    (fetched .prot32 [0xC4#8, 0xE1#8, 0x79#8, 0x30#8]).fetchBytes = [] ++ [] ++ [0xC4#8, 0xE1#8, 0x79#8, 0x30#8] ++ [] := by
  unfold vexIdentified; decide +kernel

theorem witness_BytesOfNoForm_evex :
    ¬ evexIdentified .prot32 0xF1#8 0x7D#8 0x30#8 ∧ ¬ evexIdentified .prot32 0xF2#8 0x7C#8 0x30#8 ∧
    ¬ evexIdentified .prot32 0xF2#8 0x7D#8 0x2F#8 ∧ ¬ evexIdentified .prot32 0x72#8 0x7D#8 0x30#8 ∧
    (fetched .prot32 [0x62#8, 0xF1#8, 0x7D#8, 0x08#8, 0x30#8]).fetchBytes =
      [] ++ [] ++ [0x62#8, 0xF1#8, 0x7D#8, 0x08#8, 0x30#8] ++ [] := by
  unfold evexIdentified; decide +kernel

/-- The first and the last REX byte. -/
theorem witness_ProtectedModeEncodings_rex : ∀ r ∈ [0x40#8, 0x4F#8], r.extractLsb' 4 4 = 4#4 ∧
    (fetched .prot32 [0x66#8, r, 0x0F#8, 0x38#8, 0x30#8, 0xCA#8]).fetchBytes =
      [0x66#8] ++ [r] ++ [0x0F#8, 0x38#8, 0x30#8, 0xCA#8] := by decide +kernel

/-- Each clause of rule R77 and, beside it, the case with B = 1 or without a base. -/
theorem witness_DefaultSegment :
    decodeMem false false 1#2 5#3 [0x00#8] = some (.base 5#4 (.d8 0#8)) ∧
    decodeMem false true 1#2 5#3 [0x00#8] = some (.base 13#4 (.d8 0#8)) ∧
    decodeMem false false 0#2 4#3 [0x24#8] = some (.sib 4#4 none 0#2 .none) ∧
    decodeMem false false 1#2 4#3 [0x25#8, 0x00#8] = some (.sib 5#4 none 0#2 (.d8 0#8)) ∧
    decodeMem false false 0#2 4#3 [0x25#8, 0#8, 0#8, 0#8, 0#8] = some (.sibNoBase none 0#2 0#32) ∧
    (fetched .prot32 []).params.mode = .prot32 := by decide +kernel

end Sys2Proof.Tests
end

section
/-! PROOFS. The family spec/00_scope.md: every step keeps the invariant, the forms complete exactly when they may, bytes of
no form are refused, and the step stops where decoding stops.

The decoder's facts come first: what each class answers an instruction for, and what it refuses as another opcode. -/

namespace Sys2Proof.Machine

/-! ## Register numbers as numbers (rule R70) -/

/-- A register number without its extension bit is one of the low eight. -/
theorem regNo_false_toNat_lt (f : BitVec 3) : (regNo false f).toNat < 8 := by
  revert f
  decide

/-- A five-bit register number without its two extension bits is one of the low eight. -/
theorem wideNo_false_toNat_lt (f : BitVec 3) : (BitVec.ofBool false ++ regNo false f).toNat < 8 := by
  revert f
  decide

/-- A four-bit register number widened to five bits is the same number. -/
theorem toNat_setWidth_five (d : BitVec 4) : (d.setWidth 5).toNat = d.toNat :=
  BitVec.toNat_setWidth_of_le (by decide)

@[simp] theorem destOf_legacyForm (c : Conv) (o : LegacyOps) : destOf (legacyForm c o) = o.d.setWidth 5 := by
  simp [destOf]

@[simp] theorem destOf_vexForm (l : Bool) (c : Conv) (o : VexOps) : destOf (vexForm l c o) = o.d.setWidth 5 := by
  simp [destOf]

@[simp] theorem destOf_evexForm (l : EvexLen) (c : Conv) (o : EvexOps) : destOf (evexForm l c o) = o.d := by
  simp [destOf]

/-! ## What identifies a class (rules R61, R64, R66, R79) -/

/-- The opcodes that select no conversion are those outside 30 to 35. -/
theorem ofOp_eq_none_iff (op : Byte) : Conv.ofOp op = none ↔ ¬ (0x30#8 ≤ op ∧ op ≤ 0x35#8) := by
  revert op
  decide

/-- The opcodes that select a conversion are 30 to 35. -/
theorem exists_ofOp_iff (op : Byte) : (∃ c, Conv.ofOp op = some c) ↔ 0x30#8 ≤ op ∧ op ≤ 0x35#8 := by
  rw [← Option.ne_none_iff_exists', ne_eq, ofOp_eq_none_iff, not_not]

/-- C4 and 62 begin no VEX or EVEX form in `Prot32` unless bits 7:6 of the next byte are 11b. -/
theorem notPrefixByte_iff (m : Mode) (b : Byte) :
    notPrefixByte m b = true ↔ ¬ (m = .prot32 → b.extractLsb' 6 2 = 3#2) := by
  cases m <;> simp [notPrefixByte]

/-- A VEX form is identified exactly when the decoder's three checks on its bytes pass. -/
theorem vexIdentified_iff_checks {m : Mode} {v1 v2 op : Byte} :
    vexIdentified m v1 v2 op ↔ ¬ notPrefixByte m v1 = true ∧
      ¬ (v1.extractLsb' 0 5 ≠ 2#5 ∨ v2.extractLsb' 0 2 ≠ 1#2) ∧ ∃ c, Conv.ofOp op = some c := by
  rw [notPrefixByte_iff, exists_ofOp_iff, not_not, not_or, not_ne_iff, not_ne_iff, and_assoc, vexIdentified]

/-- An EVEX form is identified exactly when the decoder's three checks on its bytes pass. -/
theorem evexIdentified_iff_checks {m : Mode} {p0 p1 op : Byte} :
    evexIdentified m p0 p1 op ↔ ¬ notPrefixByte m p0 = true ∧
      ¬ (p0.extractLsb' 0 2 ≠ 2#2 ∨ p1.extractLsb' 0 2 ≠ 1#2) ∧ ∃ c, Conv.ofOp op = some c := by
  rw [notPrefixByte_iff, exists_ofOp_iff, not_not, not_or, not_ne_iff, not_ne_iff, and_assoc, evexIdentified]

/-- Bits 7:6 both set, as single bits. -/
theorem bit7_of_topBits {b : Byte} (h : b.extractLsb' 6 2 = 3#2) : b.getLsbD 7 = true := by
  revert b
  decide

/-! ## When a class answers an instruction (rule R85) -/

/-- The legacy class answers an instruction only for `38 op ModRM …` with admitted prefixes, 66 among them, and this
one. -/
theorem decodeLegacy_instr {m : Mode} {p : Prefixes} {rex : Option Byte} {bs : List Byte} {i : Instr}
    (h : decodeLegacy m p rex bs = .instr i) :
    ∃ op c rest reg src, bs = 0x38#8 :: op :: rest ∧ Conv.ofOp op = some c ∧
      ¬ (p.n66 = 0 ∧ p.nF2 = 0 ∧ p.nF3 = 0) ∧ p.illegal = false ∧ p.repeated = false ∧
      ¬ (m = .prot32 ∧ p.adr67 = true) ∧
      decodeRM ((rex.getD 0#8).getLsbD 1) ((rex.getD 0#8).getLsbD 0) (regNo ((rex.getD 0#8).getLsbD 0)) rest =
        some (reg, src) ∧
      i = legacyForm c ⟨p.adr67, p.seg, rex.isSome, regNo ((rex.getD 0#8).getLsbD 2) reg, src⟩ := by
  unfold decodeLegacy at h
  split at h
  · cases h
  split at h
  · cases h
  next he =>
  split at h
  · cases h
  split at h
  · cases h
  next hc =>
  split at h
  · cases h
  next h66 =>
  split at h
  · cases h
  next hill =>
  split at h
  · cases h
  next hrep =>
  split at h
  · cases h
  next h67 =>
  split at h
  · cases h
  next hrm =>
  cases h
  exact ⟨_, _, _, _, _, by rw [Decidable.not_not.mp he], hc, h66, by simpa using hill, by simpa using hrep, h67,
    hrm, rfl⟩

/-- The VEX class answers an instruction only for the bytes of an identified form with `vvvv` = 1111b behind admitted
prefixes, and this one. -/
theorem decodeVex_instr {m : Mode} {p : Prefixes} {rex : Option Byte} {bs : List Byte} {i : Instr}
    (h : decodeVex m p rex bs = .instr i) :
    ∃ v1 v2 op c rest reg src, bs = v1 :: v2 :: op :: rest ∧ vexIdentified m v1 v2 op ∧ Conv.ofOp op = some c ∧
      ¬ (p.illegal = true ∨ p.n66 ≠ 0 ∨ rex.isSome = true) ∧ p.repeated = false ∧ v2.extractLsb' 3 4 = 15#4 ∧
      ¬ (m = .prot32 ∧ v1.getLsbD 5 = false) ∧ ¬ (m = .prot32 ∧ p.adr67 = true) ∧
      decodeRM (!v1.getLsbD 6) (!v1.getLsbD 5) (regNo (!v1.getLsbD 5)) rest = some (reg, src) ∧
      i = vexForm (v2.getLsbD 2) c ⟨p.adr67, p.seg, regNo (!v1.getLsbD 7) reg, src⟩ := by
  unfold decodeVex at h
  split at h
  case h_2 => cases h
  split at h
  · cases h
  next hpre =>
  split at h
  · cases h
  next hmap =>
  split at h
  · cases h
  next hc =>
  split at h
  · cases h
  next hill =>
  split at h
  · cases h
  next hrep =>
  split at h
  · cases h
  next hvvvv =>
  split at h
  · cases h
  next hext =>
  split at h
  · cases h
  next h67 =>
  split at h
  · cases h
  next hrm =>
  cases h
  exact ⟨_, _, _, _, _, _, _, rfl, vexIdentified_iff_checks.mpr ⟨hpre, hmap, _, hc⟩, hc, hill, by simpa using hrep,
    Decidable.not_not.mp hvvvv, hext, h67, hrm, rfl⟩

/-- The EVEX class answers an instruction only for the bytes of an identified form with every reserved bit right behind
admitted prefixes, and this one. -/
theorem decodeEvex_instr {m : Mode} {p : Prefixes} {rex : Option Byte} {bs : List Byte} {i : Instr}
    (h : decodeEvex m p rex bs = .instr i) :
    ∃ p0 p1 p2 op c l rest reg src, bs = p0 :: p1 :: p2 :: op :: rest ∧ evexIdentified m p0 p1 op ∧
      Conv.ofOp op = some c ∧ ¬ (p.illegal = true ∨ p.n66 ≠ 0 ∨ rex.isSome = true) ∧ p.repeated = false ∧
      evexReserved m c p0 p1 p2 = false ∧ EvexLen.ofLL (p2.extractLsb' 5 2) = some l ∧
      ¬ (m = .prot32 ∧ evexExtended p0 p2 = true) ∧ ¬ (m = .prot32 ∧ p.adr67 = true) ∧
      decodeRM (!p0.getLsbD 6) (!p0.getLsbD 5)
        (fun rm => BitVec.ofBool (!p0.getLsbD 6) ++ regNo (!p0.getLsbD 5) rm) rest = some (reg, src) ∧
      i = evexForm l c ⟨p.adr67, p.seg, BitVec.ofBool (!p0.getLsbD 4) ++ regNo (!p0.getLsbD 7) reg, src,
        p2.extractLsb' 0 3, p2.getLsbD 7⟩ := by
  unfold decodeEvex at h
  split at h
  case h_2 => cases h
  split at h
  · cases h
  next hpre =>
  split at h
  · cases h
  next hmap =>
  split at h
  · cases h
  next hc =>
  split at h
  · cases h
  next hill =>
  split at h
  · cases h
  next hrep =>
  split at h
  · cases h
  next hres =>
  split at h
  · cases h
  next hll =>
  split at h
  · cases h
  next hext =>
  split at h
  · cases h
  next h67 =>
  split at h
  · cases h
  next hrm =>
  cases h
  exact ⟨_, _, _, _, _, _, _, _, _, rfl, evexIdentified_iff_checks.mpr ⟨hpre, hmap, _, hc⟩, hc, hill,
    by simpa using hrep, by simpa using hres, hll, hext, h67, hrm, rfl⟩

/-- An instruction is answered by one of the three classes, told by its first byte (rule R61). -/
theorem decodeClass_instr {m : Mode} {p : Prefixes} {rex : Option Byte} {bs : List Byte} {i : Instr}
    (h : decodeClass m p rex bs = .instr i) :
    ∃ b rest, bs = b :: rest ∧
      ((b = 0x0F#8 ∧ decodeLegacy m p rex rest = .instr i) ∨ (b = 0xC4#8 ∧ decodeVex m p rex rest = .instr i) ∨
        (b = 0x62#8 ∧ decodeEvex m p rex rest = .instr i)) := by
  cases bs with
  | nil => cases h
  | cons b rest =>
    refine ⟨b, rest, rfl, ?_⟩
    simp only [decodeClass] at h
    split at h
    · exact .inl ⟨by assumption, h⟩
    split at h
    · exact .inr (.inl ⟨by assumption, h⟩)
    split at h
    · exact .inr (.inr ⟨by assumption, h⟩)
    · cases h

/-! ## The destination in `Prot32` (rules R21, R63, R82) -/

/-- Without a REX byte a legacy form's destination is one of the low eight registers. -/
theorem destOf_lt_of_decodeLegacy {m : Mode} {p : Prefixes} {bs : List Byte} {i : Instr}
    (h : decodeLegacy m p none bs = .instr i) : (destOf i).toNat < 8 := by
  obtain ⟨_, _, _, reg, _, _, _, _, _, _, _, _, rfl⟩ := decodeLegacy_instr h
  rw [destOf_legacyForm, toNat_setWidth_five]
  exact regNo_false_toNat_lt reg

/-- In `Prot32` bit 7 of `V1` is 1, so a VEX form's destination is one of the low eight registers. -/
theorem destOf_lt_of_decodeVex {p : Prefixes} {rex : Option Byte} {bs : List Byte} {i : Instr}
    (h : decodeVex .prot32 p rex bs = .instr i) : (destOf i).toNat < 8 := by
  obtain ⟨v1, _, _, _, _, reg, _, _, ⟨htop, _⟩, _, _, _, _, _, _, _, rfl⟩ := decodeVex_instr h
  rw [destOf_vexForm, toNat_setWidth_five, bit7_of_topBits (htop rfl)]
  exact regNo_false_toNat_lt reg

/-- In `Prot32` bits 7 and 4 of `P0` are 1, so an EVEX form's destination is one of the low eight registers. -/
theorem destOf_lt_of_decodeEvex {p : Prefixes} {rex : Option Byte} {bs : List Byte} {i : Instr}
    (h : decodeEvex .prot32 p rex bs = .instr i) : (destOf i).toNat < 8 := by
  obtain ⟨p0, _, p2, _, _, _, _, reg, _, _, ⟨htop, _⟩, _, _, _, _, _, hext, _, _, rfl⟩ := decodeEvex_instr h
  have hbit4 : p0.getLsbD 4 = true := by
    simp only [true_and, evexExtended, Bool.or_eq_true, Bool.not_eq_true', not_or, Bool.not_eq_false] at hext
    exact hext.1.2
  rw [destOf_evexForm, bit7_of_topBits (htop rfl), hbit4]
  exact wideNo_false_toNat_lt reg

/-- In `Prot32` every decoded form's destination is one of the low eight registers (rule R21). -/
theorem destOf_lt_of_decode_prot32 {bs : List Byte} {i : Instr} (h : decode .prot32 bs = .instr i) :
    (destOf i).toNat < 8 := by
  have hrex : ∀ l, takeRex .prot32 l = (none, l) := by
    intro l
    cases l <;> simp [takeRex]
  unfold decode at h
  simp only [hrex] at h
  obtain ⟨_, _, _, ⟨_, hl⟩ | ⟨_, hv⟩ | ⟨_, he⟩⟩ := decodeClass_instr h
  · exact destOf_lt_of_decodeLegacy hl
  · exact destOf_lt_of_decodeVex hv
  · exact destOf_lt_of_decodeEvex he

/-! ## The registers that exist (rules R5, R6, R20, R21) -/

/-- In `Long64` at least 16 vector registers exist, and 32 of them when they are 512 bits wide. -/
theorem nvec_long64 {s : State} (h : s.params.mode = .long64) : s.nvec = if s.maxvl = 512 then 32 else 16 := by
  simp [State.nvec, h]

/-- In `Prot32` eight vector registers exist. -/
theorem nvec_prot32 {s : State} (h : s.params.mode = .prot32) : s.nvec = 8 := by
  simp [State.nvec, h]

/-- An enabled EVEX form comes with 512-bit vector registers (rules R5, R173). -/
theorem maxvl_of_enabled_evex {i : Instr} {o : EvexOps} {s : State} (ho : i.operands = .evex o)
    (he : enabledFor i s = true) : s.maxvl = 512 := by
  have hfeat : (if convOf i = .bw then s.hasAvx512bw else s.hasAvx512f) = true := by
    simp only [enabledFor, ho, Bool.and_eq_true] at he
    exact he.1.1
  have hany : s.anyAvx512 = true := by
    unfold State.anyAvx512
    split at hfeat <;> simp [hfeat]
  simp [State.maxvl, hany]

/-- In `Long64` the destination that an enabled form names exists: its number has four bits in the legacy and VEX classes,
and in the EVEX class all 32 registers are there. -/
theorem destOf_lt_nvec_long64 {i : Instr} {s : State} (hm : s.params.mode = .long64) (he : enabledFor i s = true) :
    (destOf i).toNat < s.nvec := by
  rw [nvec_long64 hm]
  have h16 : ∀ d : BitVec 4, (d.setWidth 5).toNat < if s.maxvl = 512 then 32 else 16 := by
    intro d
    have hd := d.isLt
    rw [toNat_setWidth_five]
    split <;> omega
  cases ho : i.operands with
  | legacy o => simpa only [destOf, ho] using h16 o.d
  | vex o => simpa only [destOf, ho] using h16 o.d
  | evex o =>
    rw [if_pos (maxvl_of_enabled_evex ho he)]
    exact (destOf i).isLt

/-- The destination that an enabled decoded form names exists. -/
theorem destOf_lt_nvec {i : Instr} {s : State} {bs : List Byte} (hd : decode s.params.mode bs = .instr i)
    (he : enabledFor i s = true) : (destOf i).toNat < s.nvec := by
  cases hm : s.params.mode with
  | long64 => exact destOf_lt_nvec_long64 hm he
  | prot32 =>
    rw [nvec_prot32 hm]
    exact destOf_lt_of_decode_prot32 (hm ▸ hd)

/-! ## The invariant -/

/-- When a form completes, it was allowed to, and this is the state it leaves (rule R109). -/
theorem exec_next {i : Instr} {s t : State} (h : exec i s = .next t) :
    enabledFor i s = true ∧ s.crTs = false ∧
      ∃ v, formSource i s = .ok v ∧ t = (s.zmmWrite (destOf i) (formResult i s v)).advance i.len :=
  runForm_next (exec_eq i s ▸ h)

/-- Writing a vector register that exists keeps the invariant. -/
theorem State.Inv.zmmWrite {s : State} (hs : s.Inv) {d : BitVec 5} (hd : d.toNat < s.nvec) (v : Vec) :
    (s.zmmWrite d v).Inv where
  memory := hs.memory
  width r := by
    rw [zmmWrite_maxvl]
    by_cases hr : r = d
    · rw [hr, zmmWrite_get_self, lowBits_lowBits]
    · rw [zmmWrite_get_ne s v hr, hs.width r]
  absent r hr := by
    rw [nvec_congr (zmmWrite_params s d v)] at hr
    have hne : r ≠ d := by
      rintro rfl
      omega
    rw [zmmWrite_get_ne s v hne, hs.absent r hr]
  rip32 := hs.rip32

/-- Advancing the program counter keeps the invariant: it wraps at the mode's width (rule R24). -/
theorem State.Inv.advance {s : State} (hs : s.Inv) (n : Nat) : (s.advance n).Inv where
  memory := hs.memory
  width := hs.width
  absent := hs.absent
  rip32 hm := by
    have hm' : s.params.mode = .prot32 := hm
    rw [advance_rip, nextRip_toNat, hm']
    exact Nat.mod_lt _ (by decide)

/-- Settles O19: a completed step writes the destination of an enabled decoded form, which exists, and advances the program
counter; both keep the invariant. -/
theorem stepKeepsInvariant : Obligations.StepKeepsInvariant := by
  intro s t hs hstep
  obtain ⟨i, hdec, hexec⟩ := step_next hstep
  obtain ⟨hen, _, v, _, rfl⟩ := exec_next hexec
  exact (hs.zmmWrite (destOf_lt_nvec hdec hen) _).advance _

/-! ## Completion -/

/-- Settles O24: the shared step of rule R109 completes exactly behind its three checks, and has no refusal. -/
theorem formsCompleteExactlyWhenAllowed : Obligations.FormsCompleteExactlyWhenAllowed := by
  intro i s
  refine ⟨⟨?_, ?_⟩, ?_⟩
  · rintro ⟨t, ht⟩
    obtain ⟨hen, hts, v, hv, _⟩ := exec_next ht
    exact ⟨hen, hts, (formSource_ok_iff i s).mp ⟨v, hv⟩⟩
  · rintro ⟨hen, hts, hread⟩
    obtain ⟨v, hv⟩ := (formSource_ok_iff i s).mpr hread
    exact ⟨_, by rw [exec_eq, hen]; exact runForm_ok hts hv _ _ _⟩
  · intro r
    rw [exec_eq]
    exact runForm_not_refused _ _ _ _ _ _ r

/-! ## The step, by what decoding answers (rules R9, R85, R204) -/

/-- No bytes are no instruction: they end before it does. -/
theorem decode_nil (m : Mode) : decode m [] = .reject .truncated := rfl

/-- Where there is no program byte, nothing is fetched. -/
theorem fetchBytes_eq_nil {s : State} (h : s.progRemaining = 0) : s.fetchBytes = [] := by
  simp [State.fetchBytes, h]

/-- Where decoding does not just run out of bytes, a program byte is there. -/
theorem progRemaining_ne_zero_of_decode {s : State} (h : decode s.params.mode s.fetchBytes ≠ .reject .truncated) :
    s.progRemaining ≠ 0 := by
  intro h0
  rw [fetchBytes_eq_nil h0] at h
  exact h (decode_nil _)

/-- Where there is no program byte the step is refused, at the program's end or outside it. -/
theorem step_of_progRemaining_eq_zero {s : State} (h : s.progRemaining = 0) :
    step s = .refused (if s.atEnd then .endOfProgram else .outsideProgram) := by
  simp [step, h]

/-- The step raises #UD where the decoder answers it. -/
theorem step_of_decode_ud {s : State} (h : decode s.params.mode s.fetchBytes = .ud) : step s = .fault .ud := by
  have hp : s.progRemaining ≠ 0 := progRemaining_ne_zero_of_decode (by rw [h]; nofun)
  simp [step, hp, h, raise]

/-- The step refuses program bytes that the decoder refuses, for the same reason. -/
theorem step_of_decode_reject {s : State} {r : Reject} (hp : s.progRemaining ≠ 0)
    (h : decode s.params.mode s.fetchBytes = .reject r) : step s = .refused (.undecoded r) := by
  simp [step, hp, h]

/-- Settles O15, one equation of the step per clause. -/
theorem stepStopsWhereDecodingStops : Obligations.StepStopsWhereDecodingStops :=
  ⟨fun _ => step_of_decode_ud, fun _ _ => step_of_decode_reject, fun _ => step_of_progRemaining_eq_zero⟩

/-! ## Bytes of no form (rules R61, R64, R66, R85 (2), (3)) -/

/-- Decoding after the legacy prefixes and an optional REX byte: the class is told by the next byte, which without a REX
byte before it is itself not one of the prefixes. -/
theorem decode_append_optionalRex {m : Mode} {pre rex : List Byte} (hpre : ∀ b ∈ pre, isLegacyPrefix b)
    (hrex : optionalRex m rex) {b : Byte}
    (hb : rex ≠ [] ∨ (¬ isLegacyPrefix b ∧ (m = .long64 → b.extractLsb' 4 4 ≠ 4#4))) (bs : List Byte) :
    decode m (pre ++ rex ++ b :: bs) = decodeClass m (prefixesFrom pre) rex.head? (b :: bs) := by
  rcases hrex with rfl | ⟨rfl, r, hr, rfl⟩
  · obtain ⟨hnot, hnorex⟩ := hb.resolve_left (by simp)
    rw [List.append_nil, decode_append hpre hnot hnorex]
    rfl
  · rw [List.append_assoc, List.singleton_append, decode_append_rex hpre hr]
    rfl

/-- The bytes that begin a class are not among the legacy prefixes or the REX bytes. -/
theorem classByte_not_prefix {b : Byte} (h : b ∈ [0x0F#8, 0xC4#8, 0x62#8]) :
    ¬ isLegacyPrefix b ∧ b.extractLsb' 4 4 ≠ 4#4 := by
  unfold isLegacyPrefix
  revert b
  decide

/-- Bytes that their class refuses as another opcode whatever stood before them are refused by the step as that. -/
theorem step_of_decodeClass_reject_opcode {s : State} {pre rex bs rest : List Byte} {b : Byte}
    (hpre : ∀ b ∈ pre, isLegacyPrefix b) (hrex : optionalRex s.params.mode rex)
    (hb : rex ≠ [] ∨ (¬ isLegacyPrefix b ∧ (s.params.mode = .long64 → b.extractLsb' 4 4 ≠ 4#4)))
    (hf : s.fetchBytes = pre ++ rex ++ (b :: bs) ++ rest)
    (h : ∀ p r, decodeClass s.params.mode p r (b :: (bs ++ rest)) = .reject .opcode) :
    step s = .refused (.undecoded .opcode) := by
  have hd : decode s.params.mode s.fetchBytes = .reject .opcode := by
    rw [hf, List.append_assoc, List.cons_append, decode_append_optionalRex hpre hrex hb, h]
  exact step_of_decode_reject (progRemaining_ne_zero_of_decode (by rw [hd]; nofun)) hd

/-- The same for bytes that begin a class: they are never read as one of the prefixes. -/
theorem step_of_classByte_reject_opcode {s : State} {pre rex bs rest : List Byte} {b : Byte}
    (hpre : ∀ b ∈ pre, isLegacyPrefix b) (hrex : optionalRex s.params.mode rex) (hb : b ∈ [0x0F#8, 0xC4#8, 0x62#8])
    (hf : s.fetchBytes = pre ++ rex ++ (b :: bs) ++ rest)
    (h : ∀ p r, decodeClass s.params.mode p r (b :: (bs ++ rest)) = .reject .opcode) :
    step s = .refused (.undecoded .opcode) :=
  have ⟨hnot, hnorex⟩ := classByte_not_prefix hb
  step_of_decodeClass_reject_opcode hpre hrex (.inr ⟨hnot, fun _ => hnorex⟩) hf h

/-- A byte that begins no class is refused as another opcode (rule R61). -/
theorem decodeClass_noClass {b : Byte} (h0F : b ≠ 0x0F#8) (hC4 : b ≠ 0xC4#8) (h62 : b ≠ 0x62#8) (m : Mode) (p : Prefixes)
    (rex : Option Byte) (bs : List Byte) : decodeClass m p rex (b :: bs) = .reject .opcode := by
  simp [decodeClass, h0F, hC4, h62]

/-- After 0F, a byte other than 38 or an opcode outside 30 to 35 is refused as another opcode. -/
theorem decodeLegacy_noForm {e op : Byte} (h : e ≠ 0x38#8 ∨ ¬ (0x30#8 ≤ op ∧ op ≤ 0x35#8)) (m : Mode) (p : Prefixes)
    (rex : Option Byte) (bs : List Byte) : decodeLegacy m p rex (e :: op :: bs) = .reject .opcode := by
  by_cases he : e = 0x38#8
  · have hop := (ofOp_eq_none_iff op).mpr (h.resolve_left (not_not.mpr he))
    simp [decodeLegacy, he, hop]
  · simp [decodeLegacy, he]

/-- VEX bytes and an opcode that identify no form are refused as another opcode (rules R64, R82). -/
theorem decodeVex_noForm {m : Mode} {v1 v2 op : Byte} (h : ¬ vexIdentified m v1 v2 op) (p : Prefixes) (rex : Option Byte)
    (bs : List Byte) : decodeVex m p rex (v1 :: v2 :: op :: bs) = .reject .opcode := by
  simp only [decodeVex]
  split
  · rfl
  next hpre =>
  split
  · rfl
  next hmap =>
  split
  · rfl
  next hc =>
  exact absurd (vexIdentified_iff_checks.mpr ⟨hpre, hmap, _, hc⟩) h

/-- EVEX bytes and an opcode that identify no form are refused as another opcode (rules R66, R82). -/
theorem decodeEvex_noForm {m : Mode} {p0 p1 op : Byte} (h : ¬ evexIdentified m p0 p1 op) (p2 : Byte) (p : Prefixes)
    (rex : Option Byte) (bs : List Byte) : decodeEvex m p rex (p0 :: p1 :: p2 :: op :: bs) = .reject .opcode := by
  simp only [decodeEvex]
  split
  · rfl
  next hpre =>
  split
  · rfl
  next hmap =>
  split
  · rfl
  next hc =>
  exact absurd (evexIdentified_iff_checks.mpr ⟨hpre, hmap, _, hc⟩) h

/-- Settles O50: behind the prefixes each class refuses the bytes that identify none of its forms. -/
theorem bytesOfNoFormAreRefused : Obligations.BytesOfNoFormAreRefused := by
  refine ⟨?noClass, ?legacy, ?vex, ?evex⟩
  case noClass =>
    intro s pre rex rest b hpre hrex hb h0F hC4 h62 hf
    exact step_of_decodeClass_reject_opcode hpre hrex hb hf fun _ _ => decodeClass_noClass h0F hC4 h62 _ _ _ _
  case legacy =>
    intro s pre rex rest e op hpre hrex hno hf
    exact step_of_classByte_reject_opcode hpre hrex (by simp) hf fun _ _ => decodeLegacy_noForm hno _ _ _ _
  case vex =>
    intro s pre rex rest v1 v2 op hpre hrex hno hf
    exact step_of_classByte_reject_opcode hpre hrex (by simp) hf fun _ _ => decodeVex_noForm hno _ _ _
  case evex =>
    intro s pre rex rest p0 p1 p2 op hpre hrex hno hf
    exact step_of_classByte_reject_opcode hpre hrex (by simp) hf fun _ _ => decodeEvex_noForm hno _ _ _ _

end Sys2Proof.Machine
end

section
/-! PROOFS. The family spec/10_state.md: which registers a decoded form names, what a completed step writes and how far it
moves the program counter, what a form does not read, the segment bases, and the reset state.

The decoder's facts come first: how many bytes it has read when it answers an instruction. -/

namespace Sys2Proof.Machine

/-! ## How many bytes an answer has read (rules R62, R71, R75, R78, R85) -/

/-- A four-byte displacement is read from at least four bytes. -/
theorem four_le_length_of_takeD32 {bs : List Byte} {w : BitVec 32} (h : takeD32 bs = some w) : 4 ≤ bs.length := by
  unfold takeD32 at h
  split at h
  · simp
  · cases h

/-- A displacement is read from at least as many bytes as it is long. -/
theorem len_le_of_takeDisp {md : BitVec 2} {bs : List Byte} {d : Disp} (h : takeDisp md bs = some d) :
    d.len ≤ bs.length := by
  unfold takeDisp at h
  split at h
  · cases h
    exact Nat.zero_le _
  split at h
  · split at h
    · cases h
    · cases h
      simp [Disp.len]
  · obtain ⟨w, hw, rfl⟩ := Option.map_eq_some_iff.mp h
    exact four_le_length_of_takeD32 hw

/-- A memory operand is read from at least as many bytes as its SIB byte and displacement take. -/
theorem len_le_of_decodeMem {x b : Bool} {md : BitVec 2} {rm : BitVec 3} {bs : List Byte} {m : MemOp}
    (h : decodeMem x b md rm bs = some m) : m.len ≤ bs.length := by
  unfold decodeMem at h
  split at h
  · split at h
    · cases h
    split at h
    · obtain ⟨w, hw, rfl⟩ := Option.map_eq_some_iff.mp h
      have := four_le_length_of_takeD32 hw
      simp only [MemOp.len, List.length_cons]
      omega
    · obtain ⟨d, hd, rfl⟩ := Option.map_eq_some_iff.mp h
      have := len_le_of_takeDisp hd
      simp only [MemOp.len, List.length_cons]
      omega
  split at h
  · obtain ⟨w, hw, rfl⟩ := Option.map_eq_some_iff.mp h
    exact four_le_length_of_takeD32 hw
  · obtain ⟨d, hd, rfl⟩ := Option.map_eq_some_iff.mp h
    exact len_le_of_takeDisp hd

/-- The two kinds of source that ModRM names (rule R69): a register by `rm`, or memory from the bytes behind ModRM. -/
theorem decodeRM_some {n : Nat} {x b : Bool} {wide : BitVec 3 → BitVec n} {bs : List Byte} {reg : BitVec 3} {src : Src n}
    (h : decodeRM x b wide bs = some (reg, src)) :
    ∃ modrm rest, bs = modrm :: rest ∧ reg = modrm.extractLsb' 3 3 ∧
      (src = .reg (wide (modrm.extractLsb' 0 3)) ∨
        ∃ m, decodeMem x b (modrm.extractLsb' 6 2) (modrm.extractLsb' 0 3) rest = some m ∧ src = .mem m) := by
  unfold decodeRM at h
  split at h
  · cases h
  split at h
  · cases h
    exact ⟨_, _, rfl, rfl, .inl rfl⟩
  · obtain ⟨m, hm, he⟩ := Option.map_eq_some_iff.mp h
    cases he
    exact ⟨_, _, rfl, rfl, .inr ⟨m, hm, rfl⟩⟩

/-- A source operand is read from at least as many bytes as it is long, ModRM among them. -/
theorem len_le_of_decodeRM {n : Nat} {x b : Bool} {wide : BitVec 3 → BitVec n} {bs : List Byte} {reg : BitVec 3}
    {src : Src n} (h : decodeRM x b wide bs = some (reg, src)) : src.len ≤ bs.length := by
  obtain ⟨modrm, rest, rfl, _, rfl | ⟨m, hm, rfl⟩⟩ := decodeRM_some h
  · simp [Src.len]
  · have := len_le_of_decodeMem hm
    simp only [Src.len, List.length_cons]
    omega

/-- How many legacy prefixes have been noted. -/
def prefixCount (p : Prefixes) : Nat := p.n66 + p.n67 + p.lock + p.nF2 + p.nF3 + p.segs.length

/-- Noting one more counts one more. -/
theorem prefixCount_note {p p' : Prefixes} {b : Byte} (h : p.note b = some p') : prefixCount p' = prefixCount p + 1 := by
  have hb : isLegacyPrefix b := by
    by_contra hb
    rw [note_eq_none hb] at h
    cases h
  rw [note_of_isLegacyPrefix hb, Option.some.injEq] at h
  subst h
  simp only [isLegacyPrefix, List.mem_cons, List.not_mem_nil, or_false] at hb
  simp only [prefixCount, List.length_append]
  rcases hb with h | h | h | h | h | h | h | h | h | h | h <;> subst h <;> simp [segOfPrefix] <;> omega

/-- Scanning splits the bytes into the prefixes it notes and the bytes it leaves. -/
theorem scanPrefixes_prefixCount (p : Prefixes) (bs : List Byte) :
    prefixCount (scanPrefixes p bs).1 + (scanPrefixes p bs).2.length = prefixCount p + bs.length := by
  induction bs generalizing p with
  | nil => rfl
  | cons b bs ih =>
    cases hn : p.note b with
    | none => rw [scanPrefixes_stop hn]
    | some p' =>
      rw [scanPrefixes_step hn, ih p', prefixCount_note hn, List.length_cons]
      omega

/-- The prefixes 67 and segment override that an instruction keeps, and 66 where it was read, were noted. -/
theorem prefixLen_le_prefixCount (p : Prefixes) : prefixLen p.adr67 p.seg + p.n66 ≤ prefixCount p := by
  have h67 : p.adr67.toNat ≤ p.n67 := by
    cases hn : p.n67 <;> simp [Prefixes.adr67, hn]
  have hseg : p.seg.isSome.toNat ≤ p.segs.length := by
    cases hs : p.segs <;> simp [Prefixes.seg, hs]
  unfold prefixLen prefixCount
  omega

/-- Taking an optional REX byte splits the bytes into it and the bytes it leaves. -/
theorem takeRex_length (m : Mode) (bs : List Byte) :
    (takeRex m bs).1.isSome.toNat + (takeRex m bs).2.length = bs.length := by
  cases bs with
  | nil => rfl
  | cons b bs =>
    by_cases h : m = .long64 ∧ b.extractLsb' 4 4 = 4#4
    · simp [takeRex, h, Nat.add_comm]
    · simp [takeRex, h]

/-- In `Prot32` there is no REX byte (rule R63). -/
theorem takeRex_prot32 (bs : List Byte) : (takeRex .prot32 bs).1 = none := by
  cases bs <;> simp [takeRex]

/-- A decoded form is one class's answer, behind prefixes and an optional REX byte that together with the class's first
byte and the bytes handed to it are all the bytes (rules R61, R85). -/
theorem decode_instr {m : Mode} {bs : List Byte} {i : Instr} (h : decode m bs = .instr i) :
    ∃ (p : Prefixes) (rex : Option Byte) (rest : List Byte), (m = .prot32 → rex = none) ∧
      prefixCount p + rex.isSome.toNat + 1 + rest.length = bs.length ∧
      (decodeLegacy m p rex rest = .instr i ∨ decodeVex m p rex rest = .instr i ∨ decodeEvex m p rex rest = .instr i) := by
  unfold decode at h
  have hscan := scanPrefixes_prefixCount .empty bs
  have hrex := takeRex_length m (scanPrefixes .empty bs).2
  obtain ⟨b, rest, hbs, hclass⟩ := decodeClass_instr h
  rw [hbs, List.length_cons] at hrex
  refine ⟨(scanPrefixes .empty bs).1, (takeRex m (scanPrefixes .empty bs).2).1, rest, ?_, ?_, ?_⟩
  · rintro rfl
    exact takeRex_prot32 _
  · have hempty : prefixCount .empty = 0 := rfl
    omega
  · exact hclass.imp And.right (Or.imp And.right And.right)

/-- A decoded form's bytes were all there: its length is within the bytes decoded (rules R78, R85 (8)). -/
theorem len_le_of_decode {m : Mode} {bs : List Byte} {i : Instr} (h : decode m bs = .instr i) : i.len ≤ bs.length := by
  obtain ⟨p, rex, rest, _, hlen, hl | hv | he⟩ := decode_instr h
  all_goals have hpre := prefixLen_le_prefixCount p
  · obtain ⟨_, _, _, _, _, rfl, _, h66, hill, _, _, hrm, rfl⟩ := decodeLegacy_instr hl
    have hsrc := len_le_of_decodeRM hrm
    have hn66 : p.n66 ≠ 0 := by
      simp only [Prefixes.illegal, Bool.or_eq_false_iff, bne_eq_false_iff_eq] at hill
      omega
    simp only [List.length_cons] at hlen
    simp only [Instr.len, operands_legacyForm, Operands.len, LegacyOps.len]
    omega
  · obtain ⟨_, _, _, _, _, _, _, rfl, _, _, _, _, _, _, _, hrm, rfl⟩ := decodeVex_instr hv
    have hsrc := len_le_of_decodeRM hrm
    simp only [List.length_cons] at hlen
    simp only [Instr.len, operands_vexForm, Operands.len, VexOps.len]
    omega
  · obtain ⟨_, _, _, _, _, _, _, _, _, rfl, _, _, _, _, _, _, _, _, hrm, rfl⟩ := decodeEvex_instr he
    have hsrc := len_le_of_decodeRM hrm
    simp only [List.length_cons] at hlen
    simp only [Instr.len, operands_evexForm, Operands.len, EvexOps.len]
    omega

/-! ## Where a completed step ran and where it goes on (rules R24, R40, R106, R204) -/

/-- The claims and the machine count the same number of addresses in a mode. -/
theorem modulusOf_eq_addressTop (m : Mode) : modulusOf m = addressTop m := by
  cases m <;> rfl

/-- The next program counter as a number, in the terms of the claims (rules R24, R106). -/
theorem nextRip_toNat_modulusOf (s : State) (n : Nat) :
    (s.nextRip n).toNat = (s.rip.toNat + n) % modulusOf s.params.mode := by
  rw [nextRip_toNat]
  cases s.params.mode <;> rfl

/-- As many bytes are fetched as the program has left. -/
@[simp] theorem length_fetchBytes (s : State) : s.fetchBytes.length = s.progRemaining := by
  simp [State.fetchBytes]

/-- A decoded instruction lies where bytes can be fetched: before the program counter has wrapped, in the program, and below
the top of both spaces. -/
theorem fetched_instr_bounds {s : State} {i : Instr} (h : decode s.params.mode s.fetchBytes = .instr i) :
    s.wrapped = false ∧ s.params.progBase.toNat ≤ s.rip.toNat ∧
    s.rip.toNat + i.len ≤ s.params.progBase.toNat + s.params.progLen ∧
    s.rip.toNat + i.len ≤ addressTop s.params.mode ∧
    (s.linear .cs s.rip).toNat + i.len ≤ addressTop s.params.mode := by
  have hne : s.progRemaining ≠ 0 := progRemaining_ne_zero_of_decode (by rw [h]; nofun)
  have hlen : i.len ≤ s.progRemaining := length_fetchBytes s ▸ len_le_of_decode h
  obtain ⟨hw, hbase, hend, htop, hlin⟩ := progRemaining_bounds hne
  exact ⟨hw, hbase, by omega, by omega, by omega⟩

/-- Settles O51: a completed step ran a decoded instruction, which is no longer than what could be fetched. -/
theorem noInstructionCrossesTheEndOrTheTop : Obligations.NoInstructionCrossesTheEndOrTheTop := by
  intro s t hstep
  obtain ⟨i, hdec, _⟩ := step_next hstep
  obtain ⟨_, hbounds⟩ := fetched_instr_bounds hdec
  exact ⟨i, hdec, modulusOf_eq_addressTop _ ▸ hbounds⟩

/-- Settles O47: a completed step advances past an instruction that crosses no top, so the count of the program counter grows
by just its length. -/
theorem stepAdvancesByInstructionLength : Obligations.StepAdvancesByInstructionLength := by
  intro s t hstep
  obtain ⟨i, hdec, hexec⟩ := step_next hstep
  obtain ⟨hw, _, _, htop, _⟩ := fetched_instr_bounds hdec
  obtain ⟨_, _, v, _, rfl⟩ := exec_next hexec
  exact ⟨i, hdec, nextRip_toNat_modulusOf s i.len, advance_pcCount hw htop⟩

/-! ## What a completed form changes (rules R22, R23, R25, R26, R28, R30) -/

/-- A write of one vector register and an advance of the program counter change nothing else. -/
theorem onlyWrites_zmmWrite_advance (s : State) (d : BitVec 5) (v : Vec) (n : Nat) :
    OnlyWrites d s ((s.zmmWrite d v).advance n) where
  rest := rfl
  others _ hr := zmmWrite_get_ne s v hr
  memory _ := rfl

/-- A completed form changes its destination register and the program counter only. -/
theorem onlyWrites_of_exec {i : Instr} {s t : State} (h : exec i s = .next t) : OnlyWrites (destOf i) s t := by
  obtain ⟨_, _, v, _, rfl⟩ := exec_next h
  exact onlyWrites_zmmWrite_advance s _ _ _

/-- Settles O31: a completed step is a decoded form's. -/
theorem stepChangesOneVectorRegisterAndPc : Obligations.StepChangesOneVectorRegisterAndPc := by
  intro s t hstep
  obtain ⟨i, hdec, hexec⟩ := step_next hstep
  exact ⟨i, hdec, onlyWrites_of_exec hexec⟩

/-! ## The registers that a decoded form names (rules R21, R63, R70, R82) -/

/-- A register source's number is made of `rm` (rule R70). -/
theorem reg_of_decodeRM {n : Nat} {x b : Bool} {wide : BitVec 3 → BitVec n} {bs : List Byte} {reg : BitVec 3} {r : BitVec n}
    (h : decodeRM x b wide bs = some (reg, .reg r)) : ∃ rm, r = wide rm := by
  obtain ⟨modrm, _, _, _, he | ⟨m, _, he⟩⟩ := decodeRM_some h
  · cases he
    exact ⟨_, rfl⟩
  · cases he

/-- A source widened to five bits is a register only when it is a register of that number. -/
theorem widenSrc_eq_reg {src : Src 4} {n : BitVec 5} (h : widenSrc src = .reg n) :
    ∃ r, src = .reg r ∧ n.toNat = r.toNat := by
  cases src with
  | reg r =>
    cases h
    exact ⟨r, rfl, toNat_setWidth_five r⟩
  | mem m => cases h

@[simp] theorem srcOf_legacyForm (c : Conv) (o : LegacyOps) : srcOf (legacyForm c o) = widenSrc o.src := by
  simp [srcOf]

@[simp] theorem srcOf_vexForm (l : Bool) (c : Conv) (o : VexOps) : srcOf (vexForm l c o) = widenSrc o.src := by
  simp [srcOf]

@[simp] theorem srcOf_evexForm (l : EvexLen) (c : Conv) (o : EvexOps) : srcOf (evexForm l c o) = o.src := by
  simp [srcOf]

/-- Without a REX byte a legacy form's register source is one of the low eight registers. -/
theorem srcReg_lt_of_decodeLegacy {m : Mode} {p : Prefixes} {bs : List Byte} {i : Instr} {n : BitVec 5}
    (h : decodeLegacy m p none bs = .instr i) (hn : srcOf i = .reg n) : n.toNat < 8 := by
  obtain ⟨_, _, _, _, src, _, _, _, _, _, _, hrm, rfl⟩ := decodeLegacy_instr h
  rw [srcOf_legacyForm] at hn
  obtain ⟨r, rfl, hnr⟩ := widenSrc_eq_reg hn
  obtain ⟨rm, rfl⟩ := reg_of_decodeRM hrm
  exact hnr ▸ regNo_false_toNat_lt rm

/-- In `Prot32` bit 5 of `V1` is 1, so a VEX form's register source is one of the low eight registers. -/
theorem srcReg_lt_of_decodeVex {p : Prefixes} {rex : Option Byte} {bs : List Byte} {i : Instr} {n : BitVec 5}
    (h : decodeVex .prot32 p rex bs = .instr i) (hn : srcOf i = .reg n) : n.toNat < 8 := by
  obtain ⟨v1, _, _, _, _, _, src, _, _, _, _, _, _, hext, _, hrm, rfl⟩ := decodeVex_instr h
  have hbit5 : v1.getLsbD 5 = true := by simpa using hext
  rw [srcOf_vexForm] at hn
  obtain ⟨r, rfl, hnr⟩ := widenSrc_eq_reg hn
  obtain ⟨rm, rfl⟩ := reg_of_decodeRM hrm
  rw [hnr, hbit5]
  exact regNo_false_toNat_lt rm

/-- Bits 7:6 both set, as single bits. -/
theorem bit6_of_topBits {b : Byte} (h : b.extractLsb' 6 2 = 3#2) : b.getLsbD 6 = true := by
  revert b
  decide

/-- In `Prot32` bits 6 and 5 of `P0` are 1, so an EVEX form's register source is one of the low eight registers. -/
theorem srcReg_lt_of_decodeEvex {p : Prefixes} {rex : Option Byte} {bs : List Byte} {i : Instr} {n : BitVec 5}
    (h : decodeEvex .prot32 p rex bs = .instr i) (hn : srcOf i = .reg n) : n.toNat < 8 := by
  obtain ⟨p0, _, p2, _, _, _, _, _, src, _, ⟨htop, _⟩, _, _, _, _, _, hext, _, hrm, rfl⟩ := decodeEvex_instr h
  obtain ⟨⟨hbit5, _⟩, _⟩ : (p0.getLsbD 5 = true ∧ p0.getLsbD 4 = true) ∧ p2.getLsbD 3 = true := by
    simpa [evexExtended] using hext
  rw [srcOf_evexForm] at hn
  subst hn
  obtain ⟨rm, rfl⟩ := reg_of_decodeRM hrm
  rw [bit6_of_topBits (htop rfl), hbit5]
  exact wideNo_false_toNat_lt rm

/-- In `Prot32` every decoded form's register source is one of the low eight registers (rule R21). -/
theorem srcReg_lt_of_decode_prot32 {bs : List Byte} {i : Instr} {n : BitVec 5} (h : decode .prot32 bs = .instr i)
    (hn : srcOf i = .reg n) : n.toNat < 8 := by
  obtain ⟨p, rex, rest, hrex, _, hl | hv | he⟩ := decode_instr h
  · exact srcReg_lt_of_decodeLegacy (hrex rfl ▸ hl) hn
  · exact srcReg_lt_of_decodeVex hv hn
  · exact srcReg_lt_of_decodeEvex he hn

/-- The form names vector register `n`, as destination or as source. -/
def namesReg (i : Instr) (n : BitVec 5) : Prop := n = destOf i ∨ srcOf i = .reg n

/-- In `Prot32` a decoded form names the low eight registers only (rule R21). -/
theorem namesReg_lt_of_decode_prot32 {bs : List Byte} {i : Instr} {n : BitVec 5} (h : decode .prot32 bs = .instr i)
    (hn : namesReg i n) : n.toNat < 8 := by
  obtain rfl | hn := hn
  · exact destOf_lt_of_decode_prot32 h
  · exact srcReg_lt_of_decode_prot32 h hn

/-- The legacy class answers legacy forms, and notes in them whether there was a REX byte. -/
theorem operands_of_decodeLegacy {m : Mode} {p : Prefixes} {rex : Option Byte} {bs : List Byte} {i : Instr}
    (h : decodeLegacy m p rex bs = .instr i) : ∃ o, i.operands = .legacy o ∧ o.rex = rex.isSome := by
  obtain ⟨_, _, _, _, _, _, _, _, _, _, _, _, rfl⟩ := decodeLegacy_instr h
  exact ⟨_, operands_legacyForm _ _, rfl⟩

/-- The VEX class answers VEX forms. -/
theorem operands_of_decodeVex {m : Mode} {p : Prefixes} {rex : Option Byte} {bs : List Byte} {i : Instr}
    (h : decodeVex m p rex bs = .instr i) : ∃ o, i.operands = .vex o := by
  obtain ⟨_, _, _, _, _, _, _, _, _, _, _, _, _, _, _, _, rfl⟩ := decodeVex_instr h
  exact ⟨_, operands_vexForm _ _ _⟩

/-- The EVEX class answers EVEX forms. -/
theorem operands_of_decodeEvex {m : Mode} {p : Prefixes} {rex : Option Byte} {bs : List Byte} {i : Instr}
    (h : decodeEvex m p rex bs = .instr i) : ∃ o, i.operands = .evex o := by
  obtain ⟨_, _, _, _, _, _, _, _, _, _, _, _, _, _, _, _, _, _, _, rfl⟩ := decodeEvex_instr h
  exact ⟨_, operands_evexForm _ _ _⟩

/-- A decoded legacy form names registers 8 to 15 with a REX byte only (rule R63). -/
theorem rex_of_namesReg {m : Mode} {bs : List Byte} {i : Instr} {o : LegacyOps} {n : BitVec 5}
    (h : decode m bs = .instr i) (ho : i.operands = .legacy o) (hn : namesReg i n) (h8 : 8 ≤ n.toNat) : o.rex = true := by
  obtain ⟨p, rex, rest, _, _, hl | hv | he⟩ := decode_instr h
  · obtain ⟨o', ho', hrex⟩ := operands_of_decodeLegacy hl
    obtain rfl : o' = o := Operands.legacy.inj (ho'.symm.trans ho)
    cases rex with
    | some r => exact hrex
    | none =>
      have hlow : n.toNat < 8 := by
        obtain rfl | hn := hn
        · exact destOf_lt_of_decodeLegacy hl
        · exact srcReg_lt_of_decodeLegacy hl hn
      omega
  · obtain ⟨_, hv'⟩ := operands_of_decodeVex hv
    exact nomatch ho.symm.trans hv'
  · obtain ⟨_, he'⟩ := operands_of_decodeEvex he
    exact nomatch ho.symm.trans he'

/-- Operands of four-bit numbers are registers 0 to 15 (rule R70). -/
theorem lt_sixteen_of_widened {d : BitVec 4} {src : Src 4} {n : BitVec 5} (hn : n = d.setWidth 5 ∨ widenSrc src = .reg n) :
    n.toNat < 16 := by
  obtain rfl | hn := hn
  · exact toNat_setWidth_five d ▸ d.isLt
  · obtain ⟨r, _, hnr⟩ := widenSrc_eq_reg hn
    exact hnr ▸ r.isLt

/-- A form that is not of the EVEX class names registers 0 to 15 only. -/
theorem namesReg_lt_sixteen {i : Instr} {n : BitVec 5} (hi : ∀ o, i.operands ≠ .evex o) (hn : namesReg i n) :
    n.toNat < 16 := by
  unfold namesReg at hn
  obtain ⟨c, o, rfl⟩ | ⟨l, c, o, rfl⟩ | ⟨l, c, o, rfl⟩ := instr_cases i
  · rw [destOf_legacyForm, srcOf_legacyForm] at hn
    exact lt_sixteen_of_widened hn
  · rw [destOf_vexForm, srcOf_vexForm] at hn
    exact lt_sixteen_of_widened hn
  · exact absurd (operands_evexForm l c o) (hi o)

/-- Every register that an enabled decoded form names exists: 8 do in `Prot32`, 16 at least in `Long64`, and 32 there when
an EVEX form is enabled (rules R5, R6, R21). -/
theorem namesReg_lt_nvec {s : State} {bs : List Byte} {i : Instr} {n : BitVec 5}
    (h : decode s.params.mode bs = .instr i) (he : enabledFor i s = true) (hn : namesReg i n) : n.toNat < s.nvec := by
  cases hm : s.params.mode with
  | prot32 =>
    rw [nvec_prot32 hm]
    exact namesReg_lt_of_decode_prot32 (hm ▸ h) hn
  | long64 =>
    rw [nvec_long64 hm]
    by_cases hi : ∃ o, i.operands = .evex o
    · obtain ⟨o, ho⟩ := hi
      rw [if_pos (maxvl_of_enabled_evex ho he)]
      exact n.isLt
    · have := namesReg_lt_sixteen (not_exists.mp hi) hn
      split <;> omega

/-- Settles O20: by class for the first part, by the number of registers that exist for the second. -/
theorem decodedFormsNameExistingRegisters : Obligations.DecodedFormsNameExistingRegisters := by
  refine ⟨?_, fun s i n h he hn => namesReg_lt_nvec h he hn⟩
  intro m bs i n h hn
  refine ⟨fun hm => namesReg_lt_of_decode_prot32 (hm ▸ h) hn, ?_⟩
  cases ho : i.operands with
  | legacy o => exact ⟨namesReg_lt_sixteen (by simp [ho]) hn, rex_of_namesReg h ho hn⟩
  | vex o => exact namesReg_lt_sixteen (by simp [ho]) hn
  | evex o => exact n.isLt

/-! ## What a form does not read (rules R22, R26, R30, R42, R80, R183) -/

/-- A change of the state that a form's checks, source and result do not see, and that commutes with the form's two writes,
does not change what the form does: it completes with the changed state, or raises the same fault. -/
theorem exec_of_unread {g : State → State} {i : Instr} {s : State} (hen : enabledFor i (g s) = enabledFor i s)
    (hts : (g s).crTs = s.crTs) (hsrc : formSource i (g s) = formSource i s)
    (hres : formResult i (g s) = formResult i s)
    (hg : ∀ v, ((g s).zmmWrite (destOf i) v).advance i.len = g ((s.zmmWrite (destOf i) v).advance i.len)) :
    (∀ t, exec i s = .next t → exec i (g s) = .next (g t)) ∧
      ∀ f, exec i s = .fault f → exec i (g s) = .fault f := by
  simp only [exec_eq, State.runForm, hen, hts, hsrc, hres, hg]
  split
  · split
    · exact ⟨nofun, fun _ => id⟩
    split
    · exact ⟨nofun, fun _ => id⟩
    · refine ⟨fun t ht => ?_, nofun⟩
      cases ht
      rfl
  · exact ⟨nofun, fun _ => id⟩

/-- A register source is the register's low bytes. -/
theorem formSource_reg {i : Instr} {r : BitVec 5} (h : srcOf i = .reg r) (s : State) :
    formSource i s = .ok (lowBits (8 * nbytesOf i) (s.zmmRead r)) := by
  rw [formSource, h, source_reg, BitVec.setWidth_eq]

/-- Settles O34: a register source, the enables and the result see none of the parts that are changed. -/
theorem registerFormsReadOnlyTheirOperands : Obligations.RegisterFormsReadOnlyTheirOperands := by
  intro i s r x sb fl mx pl me hr
  refine exec_of_unread (g := fun s => { s with x := x, segBase := sb, rflags := fl, mxcsr := mx, cpl := pl, mem := me })
    rfl rfl ?_ rfl fun _ => rfl
  rw [formSource_reg hr, formSource_reg hr]
  rfl

/-- Two opmask files agree in the low `kl` bits of every register (rule R22). -/
def agreeBelow (kl : Nat) (k k' : Vector Word 8) : Prop :=
  ∀ (a : BitVec 3) (j : Nat), j < kl → (k.get a.toFin).getLsbD j = (k'.get a.toFin).getLsbD j

/-- Whether an element is written depends on its own bit of the opmask only (rule R104). -/
theorem active_of_agreeBelow {kl : Nat} {s : State} {k : Vector Word 8} (h : agreeBelow kl k s.k) (aaa : BitVec 3) {j : Nat}
    (hj : j < kl) : State.active { s with k := k } aaa j = s.active aaa j := by
  rw [State.active, State.active, State.kRead, State.kRead, h aaa j hj]

/-- Packing depends on the elements packed only. -/
theorem packElems_congr {w n : Nat} {f g : Nat → Word} (h : ∀ j < n, f j = g j) : packElems w f n = packElems w g n := by
  induction n with
  | zero => rfl
  | succ n ih => rw [packElems, packElems, ih fun j hj => h j (by omega), h n (by omega)]

/-- An EVEX write-back depends on the writemask of its own elements only (rule R104). -/
theorem evexWriteBack_congr {sh : Shape} {a b : Nat → Bool} (h : ∀ j < sh.kl, a j = b j) (z : Bool) (old t : Vec) :
    evexWriteBack sh a z old t = evexWriteBack sh b z old t :=
  packElems_congr fun j hj => by rw [h j hj]

/-- The element that a source byte belongs to is one of the form's. -/
theorem div_lt_klOf {i : Instr} {b : Nat} (h : b < nbytesOf i) : b / (srcWidth (convOf i) / 8) < klOf i := by
  obtain ⟨hsw, _, hpos, _, _, _, hnb, _⟩ := form_numbers i
  rw [Nat.div_lt_iff_lt_mul (by omega), hnb]
  exact h

/-- Opmask bits at or above the number of elements exempt no byte (rule R177). -/
theorem formNeed_of_agreeBelow {i : Instr} {s : State} {k : Vector Word 8} (h : agreeBelow (klOf i) k s.k) :
    formNeed i { s with k := k } = formNeed i s := by
  unfold formNeed
  cases i.operands with
  | legacy o => rfl
  | vex o => rfl
  | evex o =>
    have hfilter : ∀ b ∈ List.range (formShape i).nbytes,
        State.active { s with k := k } o.aaa (b / ((formShape i).sw / 8)) = s.active o.aaa (b / ((formShape i).sw / 8)) :=
      fun b hb => active_of_agreeBelow h o.aaa (div_lt_klOf (List.mem_range.mp hb))
    simp only [State.evexNeed, List.filter_congr hfilter]

/-- The opmasks reach a source through the bytes that must be admitted only. -/
theorem source_with_k {n : Nat} (s : State) (k : Vector Word 8) (a : Bool) (g : Option Seg) (len sc nbytes : Nat)
    (need : List Nat) (src : Src n) :
    State.source { s with k := k } a g len sc nbytes need src = s.source a g len sc nbytes need src := by
  cases src <;> rfl

/-- Opmask bits at or above the number of elements do not change the result (rule R104). -/
theorem formResult_of_agreeBelow {i : Instr} {s : State} {k : Vector Word 8} (h : agreeBelow (klOf i) k s.k) :
    formResult i { s with k := k } = formResult i s := by
  funext v
  unfold formResult
  cases i.operands with
  | legacy o => rfl
  | vex o => rfl
  | evex o =>
    exact evexWriteBack_congr (sh := formShape i) (fun j hj => active_of_agreeBelow h o.aaa hj) o.z _ _

/-- Settles O37: an opmask is read bit by bit, for an element that is written or a source byte of one. -/
theorem maskBitsAboveElementsIgnored : Obligations.MaskBitsAboveElementsIgnored := by
  intro i s k hk
  refine exec_of_unread (g := fun s => { s with k := k }) rfl rfl ?_ (formResult_of_agreeBelow hk) fun _ => rfl
  rw [formSource, formNeed_of_agreeBelow hk, source_with_k]
  rfl

/-! ## Linear addresses (rules R25, R40, R77) -/

/-- Cutting to the mode's width is the remainder modulo the mode's number of addresses (rules R24, R40). -/
theorem wrapTo_toNat (m : Mode) (a : Word) : (wrapTo m a).toNat = a.toNat % modulusOf m := by
  cases m with
  | long64 => exact (Nat.mod_eq_of_lt a.isLt).symm
  | prot32 =>
    have := a.isLt
    simp only [wrapTo, modulusOf, BitVec.toNat_setWidth]
    omega

/-- The number of addresses of a mode divides that of 64-bit words. -/
theorem modulusOf_dvd (m : Mode) : modulusOf m ∣ 2 ^ 64 := by
  cases m <;> decide

/-- The linear address as a number (rule R40). -/
theorem linear_toNat (s : State) (sg : Seg) (ea : Word) :
    (s.linear sg ea).toNat = ((s.segBaseOf sg).toNat + ea.toNat) % modulusOf s.params.mode := by
  rw [State.linear, wrapTo_toNat, BitVec.toNat_add, Nat.mod_mod_of_dvd _ (modulusOf_dvd _)]

/-- In `Long64` the linear address is the segment's base plus the effective address. -/
theorem linear_long64 {s : State} (h : s.params.mode = .long64) (sg : Seg) (ea : Word) :
    s.linear sg ea = s.segBaseOf sg + ea := by
  rw [State.linear, h, wrapTo]

/-- In `Long64` only FS and GS have a base other than 0 (rule R25). -/
theorem segBaseOf_long64 {s : State} (h : s.params.mode = .long64) (sg : Seg) :
    s.segBaseOf sg = if sg = .fs then s.segBase.fs else if sg = .gs then s.segBase.gs else 0#64 := by
  cases sg <;> simp [State.segBaseOf, h]

/-- The default segment is SS or DS (rule R77). -/
theorem defaultSeg_cases (m : MemOp) : defaultSeg m = .ss ∨ defaultSeg m = .ds := by
  unfold defaultSeg
  split
  · exact ite_eq_or_eq _ _ _
  · exact .inr rfl
  · exact ite_eq_or_eq _ _ _
  · exact .inr rfl

/-- Without an override to FS or GS an operand goes through neither. -/
theorem segOf_ne_fs_gs {g : Option Seg} (hfs : g ≠ some .fs) (hgs : g ≠ some .gs) (m : MemOp) :
    segOf g m ≠ .fs ∧ segOf g m ≠ .gs := by
  cases g with
  | none => obtain h | h := defaultSeg_cases m <;> simp [segOf, h]
  | some sg => exact ⟨fun h => hfs (congrArg some h), fun h => hgs (congrArg some h)⟩

/-- Settles O45: the sum as a number, and in `Long64` by the segment's base. -/
theorem linearAddressAddsTheSegmentBase : Obligations.LinearAddressAddsTheSegmentBase := by
  refine ⟨linear_toNat, ?_, ?_⟩
  · intro s a g len n m hm hfs hgs
    obtain ⟨hf, hg⟩ := segOf_ne_fs_gs hfs hgs m
    rw [State.memAddr, linear_long64 hm, segBaseOf_long64 hm, if_neg hf, if_neg hg, BitVec.zero_add]
  · intro s a len n m hm
    constructor <;> rw [State.memAddr, linear_long64 hm, segBaseOf_long64 hm] <;> rfl

/-! ## The reset state (rule R29) -/

/-- Every vector register is 0 after reset. -/
@[simp] theorem reset_zmm (r : BitVec 5) : State.reset.zmm.get r.toFin = 0#512 := by
  simp [State.reset, Vector.get_eq_getElem]

/-- Every opmask register is 0 after reset. -/
@[simp] theorem reset_k (a : BitVec 3) : State.reset.k.get a.toFin = 0#64 := by
  simp [State.reset, Vector.get_eq_getElem]

/-- Every general register is 0 after reset. -/
@[simp] theorem reset_x (r : BitVec 4) : State.reset.x.get r.toFin = 0#64 := by
  simp [State.reset, Vector.get_eq_getElem]

/-- Every segment base is 0 after reset. -/
@[simp] theorem reset_segBaseOf (sg : Seg) : State.reset.segBaseOf sg = 0#64 := by
  cases sg <;> rfl

@[simp] theorem reset_osSse : State.reset.osSse = false := by decide
@[simp] theorem reset_osAvx : State.reset.osAvx = false := by decide
@[simp] theorem reset_osAvx512 : State.reset.osAvx512 = false := by decide

/-- Settles O16, register file by register file. -/
theorem resetHoldsTheDocumentedValues : Obligations.ResetHoldsTheDocumentedValues :=
  ⟨reset_zmm, reset_k, reset_x, rfl, rfl, rfl, rfl, rfl, rfl, rfl, rfl, reset_segBaseOf, fun _ => rfl, reset_osSse,
    reset_osAvx, reset_osAvx512⟩

/-- No class is enabled after reset. -/
theorem reset_not_enabled (i : Instr) : enabledFor i State.reset = false := by
  unfold enabledFor
  cases i.operands <;> simp

/-- A form that is not enabled raises #UD (rule R173). -/
theorem exec_of_not_enabled {i : Instr} {s : State} (h : enabledFor i s = false) : exec i s = .fault .ud := by
  simp [exec_eq, State.runForm, h, raise]

/-- Settles O17: no class is enabled after reset. -/
theorem everyFormRaisesInvalidOpcodeAfterReset : Obligations.EveryFormRaisesInvalidOpcodeAfterReset :=
  fun i => exec_of_not_enabled (reset_not_enabled i)

/-- Settles O18: memory is empty, every vector register is 0, and the mode is `Long64`. -/
theorem resetSatisfiesInvariant : Obligations.ResetSatisfiesInvariant where
  memory := Memory.wf_reset
  width r := by rw [reset_zmm, lowBits_zero]
  absent r _ := reset_zmm r
  rip32 := nofun

end Sys2Proof.Machine
end

section
/-! PROOFS. The family spec/20_memory.md: a read byte by byte and element by element, which bytes of memory a form reads,
that no form writes one, when alignment matters, and what each kind of memory fault is caused by.

What a memory source answers comes first: which fault a read raises, and what a form's fault was. -/

namespace Sys2Proof.Machine

/-! ## The fault of a read (rules R43, R175, R178) -/

/-- All the faults of a read: a needed byte that the segment does not reach, a needed byte on no readable page, or a
misaligned address under `AlignCheck`. -/
theorem memFault_some_cases {s : State} {sg : Seg} {la : Word} {n : Nat} {need : List Nat} {f : Fault}
    (h : s.memFault sg la n need = some f) :
    (f = (if sg = .ss then .ss else .gp) ∧ ∃ k ∈ need, s.segReaches sg (s.byteAddr la k) = false) ∨
    (∃ k ∈ need, s.pageReadable (s.byteAddr la k) = false ∧
      f = .pf (s.pfCode (s.byteAddr la k)) (s.byteAddr la k)) ∨
    (f = .ac ∧ s.alignCheck = true ∧ la.toNat % n ≠ 0) := by
  unfold State.memFault at h
  split at h
  next hseg =>
    cases h
    exact .inl ⟨rfl, by simpa only [List.any_eq_true, Bool.not_eq_true'] using hseg⟩
  split at h
  next k hk =>
    cases h
    exact .inr (.inl ⟨k, List.mem_of_find?_eq_some hk, by simpa using List.find?_some hk, rfl⟩)
  split at h
  next hac =>
    cases h
    simp only [Bool.and_eq_true, bne_iff_ne] at hac
    obtain ⟨⟨halign, _⟩, hmod⟩ := hac
    exact .inr (.inr ⟨rfl, halign, hmod⟩)
  next => cases h

/-- Bit `b` of the page-fault error code: 0 is present, 2 user mode, and every other bit is 0 (log entry 11). -/
theorem pfCode_getLsbD (s : State) (a : Word) (b : Nat) :
    (s.pfCode a).getLsbD b = if b = 0 then s.pagePresent a else if b = 2 then s.cpl == 3#2 else false := by
  rw [State.pfCode, BitVec.getLsbD_setWidth, BitVec.getLsbD_append, BitVec.getLsbD_append]
  rcases b with _ | _ | _ | b <;> simp

/-! ## The fault of a form (rules R109, R173 to R176) -/

/-- The source faults exactly when it is memory whose read faults, with that fault. -/
theorem formSource_error_iff (i : Instr) (s : State) (f : Fault) :
    formSource i s = .error f ↔ ∃ m, srcOf i = .mem m ∧
      s.memFault (segOf (overrideOf i) m) (addrOf i s m) (nbytesOf i) (formNeed i s) = some f := by
  rw [formSource]
  cases hm : srcOf i with
  | reg r => simp
  | mem m =>
    cases hf : s.memFault (segOf (overrideOf i) m) (addrOf i s m) (nbytesOf i) (formNeed i s) with
    | none => simp [source_mem_ok hf, hf]
    | some f' => simp [source_mem_error hf, hf]

/-- When a form raises a fault, this is the check that raised it. -/
theorem exec_fault_cases {i : Instr} {s : State} {f : Fault} (h : exec i s = .fault f) :
    (enabledFor i s = false ∧ f = .ud) ∨ (enabledFor i s = true ∧ s.crTs = true ∧ f = .nm) ∨
      (enabledFor i s = true ∧ s.crTs = false ∧ formSource i s = .error f) := by
  rw [exec_eq] at h
  obtain ⟨hen, e⟩ | ⟨hen, hts, e⟩ | ⟨f', hen, hts, hsrc, e⟩ | ⟨v, _, _, _, e⟩ :=
    runForm_cases s (enabledFor i s) (formSource i s) (destOf i) (formResult i s) i.len <;> cases e.symm.trans h
  · exact .inl ⟨hen, rfl⟩
  · exact .inr (.inl ⟨hen, hts, rfl⟩)
  · exact .inr (.inr ⟨hen, hts, hsrc⟩)

/-- An enabled form with CR0.TS = 0 raises its source's fault. -/
theorem exec_of_source_error {i : Instr} {s : State} {f : Fault} (hen : enabledFor i s = true) (hts : s.crTs = false)
    (hf : formSource i s = .error f) : exec i s = .fault f := by
  simp [exec_eq, State.runForm, hen, hts, hf, raise]

/-- A memory fault of a form is the fault of its memory source's read. -/
theorem exec_memory_fault {i : Instr} {s : State} {f : Fault} (h : exec i s = .fault f) (hf : f.isMemory = true) :
    ∃ m, srcOf i = .mem m ∧
      s.memFault (segOf (overrideOf i) m) (addrOf i s m) (nbytesOf i) (formNeed i s) = some f := by
  obtain ⟨_, rfl⟩ | ⟨_, _, rfl⟩ | ⟨_, _, hsrc⟩ := exec_fault_cases h
  · cases hf
  · cases hf
  · exact (formSource_error_iff i s f).mp hsrc

/-- Settles O28: the fault of the source's read, kind by kind. -/
theorem memoryFaultKindsHaveTheirCause : Obligations.MemoryFaultKindsHaveTheirCause := by
  intro i s f hexec hmemory
  obtain ⟨m, hm, hfault⟩ := exec_memory_fault hexec hmemory
  have hunreadable : readableFor i s = false := by
    rw [← Bool.not_eq_true, ← memFault_none_iff hm, hfault]
    nofun
  refine ⟨m, hm, hunreadable, ?_⟩
  obtain ⟨hf, k, hk, hreach⟩ | ⟨k, hk, hpage, rfl⟩ | ⟨rfl, halign, hmod⟩ := memFault_some_cases hfault
  · rw [mem_formNeed] at hk
    split at hf <;> subst hf
    next hss => exact ⟨hss, k, hk, hss ▸ hreach⟩
    next hss => exact ⟨hss, k, hk, hreach⟩
  · rw [mem_formNeed] at hk
    exact ⟨⟨k, hk, rfl⟩, hpage, pfCode_getLsbD s _ 0, pfCode_getLsbD s _ 1, pfCode_getLsbD s _ 2, pfCode_getLsbD s _ 4⟩
  · exact ⟨halign, hmod⟩

/-! ## Alignment (rule R43) -/

/-- When the reads that must be admitted are, every needed byte is reached and on a readable page. -/
theorem needed_admitted {i : Instr} {s : State} {m : MemOp} (h : readAdmitted i s m = true) {k : Nat}
    (hk : k ∈ formNeed i s) :
    s.segReaches (segOf (overrideOf i) m) (s.byteAddr (addrOf i s m) k) = true ∧
      s.pageReadable (s.byteAddr (addrOf i s m) k) = true := by
  obtain ⟨hlt, hwritten⟩ := (mem_formNeed i s k).mp hk
  unfold readAdmitted at h
  split at h
  next hsup =>
    obtain ⟨hsw, _, hpos, _⟩ := form_numbers i
    have helem := List.all_eq_true.mp h _ (List.mem_range.mpr (div_lt_klOf hlt))
    rw [hwritten hsup, Bool.not_true, Bool.false_or, admits_iff] at helem
    have hbyte := helem (k % (srcWidth (convOf i) / 8)) (Nat.mod_lt _ (by omega))
    rwa [byteAddr_add, Nat.div_add_mod'] at hbyte
  next => exact (admits_iff ..).mp h k hlt

/-- A read whose bytes are admitted is refused for its alignment only. -/
theorem memFault_of_admitted {i : Instr} {s : State} {m : MemOp} {f : Fault} (h : readAdmitted i s m = true)
    (hf : s.memFault (segOf (overrideOf i) m) (addrOf i s m) (nbytesOf i) (formNeed i s) = some f) : f = .ac := by
  obtain ⟨_, k, hk, hreach⟩ | ⟨k, hk, hpage, _⟩ | ⟨rfl, _⟩ := memFault_some_cases hf
  · exact absurd (needed_admitted h hk).1 (by simp [hreach])
  · exact absurd (needed_admitted h hk).2 (by simp [hpage])
  · rfl

/-- Settles O29: an admitted source is readable without `AlignCheck`; a misaligned one with it is not, and the read's fault
can then only be #AC. -/
theorem misalignedReadRaisesAlignmentCheck : Obligations.MisalignedReadRaisesAlignmentCheck := by
  constructor
  · intro i s m hm hen hts hadm halign
    have hread : readableFor i s = true := by simp [readableFor, hm, hadm, halign]
    exact (formsCompleteExactlyWhenAllowed i s).1.mpr ⟨hen, hts, hread⟩
  · intro i s m hm hen hts hadm ham hac hcpl hsome hmod
    have halign : s.alignCheck = true := by simp [State.alignCheck, State.crAm, State.flagAc, ham, hac, hcpl]
    have hread : readableFor i s ≠ true := by simp [readableFor, hm, halign, hsome, hmod]
    obtain ⟨f, hf⟩ := Option.ne_none_iff_exists'.mp (mt (memFault_none_iff hm).mp hread)
    obtain rfl := memFault_of_admitted hadm hf
    exact exec_of_source_error hen hts ((formSource_error_iff i s _).mpr ⟨m, hm, hf⟩)

/-! ## Memory is never written (rule R45) -/

/-- Settles O32: one form by its frame, a run by induction on the number of steps. -/
theorem noFormWritesMemory : Obligations.NoFormWritesMemory := by
  have hexec : ∀ (i : Instr) (s t : State) (a : Word), exec i s = .next t → t.mem.read a = s.mem.read a :=
    fun _ _ _ a h => (onlyWrites_of_exec h).memory a
  refine ⟨hexec, fun n => ?_⟩
  induction n with
  | zero =>
    intro s t a h
    rw [run_zero_next h]
  | succ n ih =>
    intro s t a h
    obtain ⟨u, hstep, hrun⟩ := run_succ_next h
    obtain ⟨i, _, hi⟩ := step_next hstep
    rw [ih u t a hrun, hexec i s u a hi]

/-! ## Which bytes of memory a form reads (rules R42, R46) -/

/-- A read of `n` bytes depends on those bytes of memory only. -/
theorem memRead_congr {s : State} {me : Memory} {la : Word} {n : Nat}
    (h : ∀ k < n, me.read (s.byteAddr la k) = s.mem.read (s.byteAddr la k)) :
    State.memRead { s with mem := me } la n = s.memRead la n :=
  packElems_congr fun k hk => congrArg (BitVec.setWidth 64) (h k hk)

/-- Memory reaches a form's source through the bytes of the operand only; its fault is decided without memory. -/
theorem formSource_with_mem {i : Instr} {s : State} {m : MemOp} {me : Memory} (hm : srcOf i = .mem m)
    (h : ∀ k < nbytesOf i, me.read (s.byteAddr (addrOf i s m) k) = s.mem.read (s.byteAddr (addrOf i s m) k)) :
    formSource i { s with mem := me } = formSource i s := by
  rw [formSource, formSource, hm]
  cases hf : s.memFault (segOf (overrideOf i) m) (addrOf i s m) (nbytesOf i) (formNeed i s) with
  | some f => exact (source_mem_error (s := { s with mem := me }) hf).trans (source_mem_error hf).symm
  | none =>
    calc State.source { s with mem := me } _ _ _ _ _ _ _
        = .ok (State.memRead { s with mem := me } (addrOf i s m) (nbytesOf i)) :=
          source_mem_ok (s := { s with mem := me }) hf
      _ = .ok (s.memRead (addrOf i s m) (nbytesOf i)) := by rw [memRead_congr h]
      _ = _ := (source_mem_ok hf).symm

/-- Settles O36: the enables and the result do not see memory, and the source sees its operand's bytes. -/
theorem memoryOutsideOperandIgnored : Obligations.MemoryOutsideOperandIgnored := by
  intro i s m me hm hagree
  exact exec_of_unread (g := fun s => { s with mem := me }) rfl rfl (formSource_with_mem hm hagree) rfl fun _ => rfl

/-! ## Byte order (rule R41) -/

/-- Byte `i` of a read is the byte `i` above its address. -/
theorem memRead_byte (s : State) (la : Word) {n i : Nat} (hn : n ≤ 64) (hi : i < n) :
    (s.memRead la n).extractLsb' (8 * i) 8 = s.readByte la i := by
  apply BitVec.eq_of_getLsbD_eq
  intro b hb
  have hdiv : (8 * i + b) / 8 = i := by omega
  have hmod : (8 * i + b) % 8 = b := by omega
  have hlt : 8 * i + b < 512 := by omega
  rw [BitVec.getLsbD_extractLsb', memRead_getLsbD, hdiv, hmod]
  simp [hlt, hi, hb]

/-- A read of `n` bytes has nothing above its last byte. -/
theorem memRead_toNat_lt (s : State) (la : Word) (n : Nat) : (s.memRead la n).toNat < 2 ^ (8 * n) :=
  Nat.lt_pow_two_of_testBit _ fun b hb => packElems_above (by decide) _ (by omega)

/-- Element `j` of a read, of `c` bytes, is the read of those bytes at the element's own address. -/
theorem elem_memRead (s : State) (la : Word) {c n j : Nat} (hn : n ≤ 64) (hj : (j + 1) * c ≤ n) :
    elem (8 * c) j (s.memRead la n) = elem (8 * c) 0 (s.memRead (la + BitVec.ofNat 64 (j * c)) c) := by
  apply BitVec.eq_of_getLsbD_eq
  intro b hb
  rw [elem_getLsbD, elem_getLsbD, memRead_getLsbD, memRead_getLsbD, State.readByte, State.readByte, byteAddr_add]
  by_cases hbc : b < 8 * c
  · have hpos : j * (8 * c) + b = 8 * (j * c) + b := by ring
    have hnext : j * c + c ≤ n := by rwa [Nat.succ_mul] at hj
    have hdiv : (j * (8 * c) + b) / 8 = j * c + b / 8 := by omega
    have hmod : (j * (8 * c) + b) % 8 = b % 8 := by omega
    have hlt : j * (8 * c) + b < 512 := by omega
    have hin : j * c + b / 8 < n := by omega
    have hin' : b / 8 < c := by omega
    have hlt' : b < 512 := by omega
    simp [hdiv, hmod, hlt, hin, hin', hlt']
  · simp [hbc]

/-- Settles O42: the bytes, their addresses as numbers, the elements, and the bytes of a displacement. -/
theorem memoryReadIsLittleEndian : Obligations.MemoryReadIsLittleEndian := by
  refine ⟨?bytes, ?long64, ?prot32, ?elements, takeD32_bytes32⟩
  case bytes => exact fun s la n hn => ⟨fun _ hi => memRead_byte s la hn hi, memRead_toNat_lt s la n⟩
  case long64 => exact fun s la i hm => by rw [byteAddr_toNat, hm, addressTop]
  case prot32 => exact fun s la i hm => by rw [byteAddr_toNat, hm, addressTop]
  case elements =>
    intro s la sw n j hsw hn hj
    have hbytes : 8 * (sw / 8) = sw := by
      simp only [List.mem_cons, List.not_mem_nil, or_false] at hsw
      omega
    have := elem_memRead s la (by omega) hj
    rwa [hbytes] at this

end Sys2Proof.Machine
end

section
/-! PROOFS. The family spec/30_encoding.md: decoding the encoding of an instruction gives it back, what the decoder answers is
well-formed and read from just its length, the windows of the opcode table, which prefixes and reserved bits raise #UD or
are refused, which bits are ignored, effective addresses as numbers, and the two encodings of one spelling.

The encoder's bytes come first: their fields, and how the decoder reads them back. -/

namespace Sys2Proof.Machine

/-! ## ModRM and what follows it, read back from the encoder's bytes (rules R69 to R75) -/

/-- A memory operand that can be encoded is read back from its bytes, whatever follows. -/
theorem decodeRM_mem_bytes {n : Nat} {m : MemOp} (h : m.wf = true) (wide : BitVec 3 → BitVec n) (reg : BitVec 3)
    (rest : List Byte) :
    decodeRM m.xBit m.bBit wide ((Src.mem m : Src n).bytes reg ++ rest) = some (reg, .mem m) := by
  cases m with
  | base b d =>
    obtain ⟨h4, h5⟩ : low3 b ≠ 4#3 ∧ ¬ (low3 b = 5#3 ∧ d.mod = 0#2) := by
      simp only [MemOp.wf, Bool.and_eq_true, Bool.or_eq_true, bne_iff_ne] at h
      rw [Disp.mod_eq_zero]
      exact ⟨h.1, fun hd => h.2.elim (absurd hd.1) (absurd hd.2)⟩
    simp [-BitVec.getLsbD_eq_getElem, Src.bytes, decodeRM, decodeMem, d.mod_ne, h4, h5, takeDisp_bytes, MemOp.bBit]
  | rip d => simp [Src.bytes, decodeRM, decodeMem, takeD32_bytes32]
  | sib b i ss d =>
    obtain ⟨h5, hi⟩ : ¬ (low3 b = 5#3 ∧ d.mod = 0#2) ∧ i ≠ some 4#4 := by
      simp only [MemOp.wf, Bool.and_eq_true, Bool.or_eq_true, bne_iff_ne] at h
      rw [Disp.mod_eq_zero]
      exact ⟨fun hd => h.1.elim (absurd hd.1) (absurd hd.2), h.2⟩
    simp [-BitVec.getLsbD_eq_getElem, Src.bytes, decodeRM, decodeMem, d.mod_ne, h5, takeDisp_bytes, MemOp.xBit,
      MemOp.bBit, sibIndex_roundTrip i hi]
  | sibNoBase i ss d =>
    have hi : i ≠ some 4#4 := by simpa [MemOp.wf] using h
    simp [-BitVec.getLsbD_eq_getElem, Src.bytes, decodeRM, decodeMem, takeD32_bytes32, MemOp.xBit, sibIndex_roundTrip i hi]

/-- A source operand that can be encoded is read back from its bytes, whatever follows, where `wide` makes register numbers of
the extension bits and `rm` (rules R69, R70). -/
theorem decodeRM_bytes {n : Nat} {src : Src n} (h : src.wf = true) {wide : BitVec 3 → BitVec n}
    (hwide : ∀ r, src = .reg r → wide (low3 r) = r) (reg : BitVec 3) (rest : List Byte) :
    decodeRM src.xBit src.bBit wide (src.bytes reg ++ rest) = some (reg, src) := by
  cases src with
  | reg r => simp [Src.bytes, decodeRM, hwide r rfl]
  | mem m => exact decodeRM_mem_bytes h wide reg rest

/-- In the legacy and VEX classes B and `rm` make a register source's number. -/
theorem decodeRM_bytes_regNo {src : Src 4} (h : src.wf = true) (reg : BitVec 3) (rest : List Byte) :
    decodeRM src.xBit src.bBit (regNo src.bBit) (src.bytes reg ++ rest) = some (reg, src) :=
  decodeRM_bytes h (by rintro r rfl; exact regNo_low3 r) reg rest

/-- In the EVEX class X, B and `rm` make a register source's number. -/
theorem decodeRM_bytes_wideNo {src : Src 5} (h : src.wf = true) (reg : BitVec 3) (rest : List Byte) :
    decodeRM src.xBit src.bBit (fun rm => BitVec.ofBool src.xBit ++ regNo src.bBit rm) (src.bytes reg ++ rest) =
      some (reg, src) :=
  decodeRM_bytes h (by rintro r rfl; exact wideNo_low3 r) reg rest

/-! ## The encoder's prefixes (rules R62, R63) -/

/-- The prefixes noted hold this 67 and this segment override, none of them twice, and no LOCK, F2 or F3 (rule R62). -/
structure NotesOnly (p : Prefixes) (a : Bool) (g : Option Seg) : Prop where
  adr67 : p.adr67 = a
  seg : p.seg = g
  illegal : p.illegal = false
  repeated : p.repeated = false

/-- The encoder's 67 and segment override are noted as that. -/
theorem notesOnly_prefixBytes (a : Bool) (g : Option Seg) :
    NotesOnly (prefixesFrom (prefixBytes a g)) a g ∧ (prefixesFrom (prefixBytes a g)).n66 = 0 := by
  cases a <;> rcases g with _ | _ | _ | _ | _ | _ | _ <;> exact ⟨⟨rfl, rfl, rfl, rfl⟩, rfl⟩

/-- The mandatory 66 behind them is counted beside them. -/
theorem notesOnly_prefixBytes_66 (a : Bool) (g : Option Seg) :
    NotesOnly (prefixesFrom (prefixBytes a g ++ [0x66#8])) a g ∧ (prefixesFrom (prefixBytes a g ++ [0x66#8])).n66 = 1 := by
  cases a <;> rcases g with _ | _ | _ | _ | _ | _ | _ <;> exact ⟨⟨rfl, rfl, rfl, rfl⟩, rfl⟩

/-! ## The three encodings decoded (rules R62 to R66, R85) -/

/-- The REX byte that the encoder writes, W = 0 (rule R63). -/
def rexByte (d : BitVec 4) (src : Src 4) : Byte :=
  4#4 ++ BitVec.ofBool false ++ BitVec.ofBool (d.getLsbD 3) ++ BitVec.ofBool src.xBit ++ BitVec.ofBool src.bBit

/-- The REX byte is one, and holds R, X and B. -/
theorem rexByte_fields (d : BitVec 4) (src : Src 4) :
    (rexByte d src).extractLsb' 4 4 = 4#4 ∧ (rexByte d src).getLsbD 2 = d.getLsbD 3 ∧
      (rexByte d src).getLsbD 1 = src.xBit ∧ (rexByte d src).getLsbD 0 = src.bBit := by
  unfold rexByte
  generalize d.getLsbD 3 = r, src.xBit = x, src.bBit = b
  revert r x b
  decide

/-- The extension bits that a well-formed legacy form needs are those of its REX byte, or 0 without one (rule R63). -/
theorem rexBits_of_wf {m : Mode} {o : LegacyOps} (h : o.wf m = true) {rex : Option Byte}
    (hrex : rex = if o.rex then some (rexByte o.d o.src) else none) :
    (rex.getD 0#8).getLsbD 2 = o.d.getLsbD 3 ∧ (rex.getD 0#8).getLsbD 1 = o.src.xBit ∧
      (rex.getD 0#8).getLsbD 0 = o.src.bBit := by
  subst hrex
  cases hr : o.rex with
  | true => exact (rexByte_fields o.d o.src).2
  | false =>
    simp only [LegacyOps.wf, Src.narrow, hr, Bool.false_or, Bool.and_eq_true, Bool.not_eq_true'] at h
    obtain ⟨⟨_, hd, hx, hb⟩, _⟩ := h
    simp [-BitVec.getLsbD_eq_getElem, hd, hx, hb]

/-- Conversely to `decodeLegacy_instr`: these checks passed, the legacy class answers this instruction. -/
theorem decodeLegacy_of_checks {m : Mode} {p : Prefixes} {rex : Option Byte} {op : Byte} {c : Conv} {rest : List Byte}
    {reg : BitVec 3} {src : Src 4} (hc : Conv.ofOp op = some c) (h66 : ¬ (p.n66 = 0 ∧ p.nF2 = 0 ∧ p.nF3 = 0))
    (hill : p.illegal = false) (hrep : p.repeated = false) (h67 : ¬ (m = .prot32 ∧ p.adr67 = true))
    (hrm : decodeRM ((rex.getD 0#8).getLsbD 1) ((rex.getD 0#8).getLsbD 0) (regNo ((rex.getD 0#8).getLsbD 0)) rest =
      some (reg, src)) :
    decodeLegacy m p rex (0x38#8 :: op :: rest) =
      .instr (legacyForm c ⟨p.adr67, p.seg, rex.isSome, regNo ((rex.getD 0#8).getLsbD 2) reg, src⟩) := by
  simp only [decodeLegacy, hc, h66, hill, hrep, h67, hrm, ne_eq, not_true_eq_false, if_false, Bool.false_eq_true]

/-- Conversely to `decodeVex_instr`. -/
theorem decodeVex_of_checks {m : Mode} {p : Prefixes} {rex : Option Byte} {v1 v2 op : Byte} {c : Conv} {rest : List Byte}
    {reg : BitVec 3} {src : Src 4} (hid : vexIdentified m v1 v2 op) (hc : Conv.ofOp op = some c)
    (hill : ¬ (p.illegal = true ∨ p.n66 ≠ 0 ∨ rex.isSome = true)) (hrep : p.repeated = false)
    (hvvvv : v2.extractLsb' 3 4 = 15#4) (hext : ¬ (m = .prot32 ∧ v1.getLsbD 5 = false))
    (h67 : ¬ (m = .prot32 ∧ p.adr67 = true))
    (hrm : decodeRM (!v1.getLsbD 6) (!v1.getLsbD 5) (regNo (!v1.getLsbD 5)) rest = some (reg, src)) :
    decodeVex m p rex (v1 :: v2 :: op :: rest) =
      .instr (vexForm (v2.getLsbD 2) c ⟨p.adr67, p.seg, regNo (!v1.getLsbD 7) reg, src⟩) := by
  obtain ⟨hpre, hmap, _⟩ := vexIdentified_iff_checks.mp hid
  simp only [decodeVex, hpre, hmap, hc, hill, hrep, hvvvv, hext, h67, hrm, ne_eq, not_true_eq_false, if_false,
    Bool.false_eq_true]

/-- Conversely to `decodeEvex_instr`. -/
theorem decodeEvex_of_checks {m : Mode} {p : Prefixes} {rex : Option Byte} {p0 p1 p2 op : Byte} {c : Conv} {l : EvexLen}
    {rest : List Byte} {reg : BitVec 3} {src : Src 5} (hid : evexIdentified m p0 p1 op) (hc : Conv.ofOp op = some c)
    (hill : ¬ (p.illegal = true ∨ p.n66 ≠ 0 ∨ rex.isSome = true)) (hrep : p.repeated = false)
    (hres : evexReserved m c p0 p1 p2 = false) (hll : EvexLen.ofLL (p2.extractLsb' 5 2) = some l)
    (hext : ¬ (m = .prot32 ∧ evexExtended p0 p2 = true)) (h67 : ¬ (m = .prot32 ∧ p.adr67 = true))
    (hrm : decodeRM (!p0.getLsbD 6) (!p0.getLsbD 5)
      (fun rm => BitVec.ofBool (!p0.getLsbD 6) ++ regNo (!p0.getLsbD 5) rm) rest = some (reg, src)) :
    decodeEvex m p rex (p0 :: p1 :: p2 :: op :: rest) =
      .instr (evexForm l c ⟨p.adr67, p.seg, BitVec.ofBool (!p0.getLsbD 4) ++ regNo (!p0.getLsbD 7) reg, src,
        p2.extractLsb' 0 3, p2.getLsbD 7⟩) := by
  obtain ⟨hpre, hmap, _⟩ := evexIdentified_iff_checks.mp hid
  simp only [decodeEvex, hpre, hmap, hc, hill, hrep, hres, hll, hext, h67, hrm, if_false, Bool.false_eq_true]

/-- The legacy class reads a well-formed form back from the bytes behind 0F. -/
theorem decodeLegacy_encode {m : Mode} {p : Prefixes} {o : LegacyOps} (h : o.wf m = true)
    (hp : NotesOnly p o.adr67 o.seg) (h66 : p.n66 = 1) (c : Conv) {rex : Option Byte}
    (hrex : rex = if o.rex then some (rexByte o.d o.src) else none) (rest : List Byte) :
    decodeLegacy m p rex (0x38#8 :: c.op :: (o.src.bytes (low3 o.d) ++ rest)) = .instr (legacyForm c o) := by
  obtain ⟨hR, hX, hB⟩ := rexBits_of_wf h hrex
  simp only [LegacyOps.wf, Bool.and_eq_true] at h
  obtain ⟨⟨hsrc, _⟩, hmode⟩ := h
  have hsome : rex.isSome = o.rex := by
    rw [hrex]
    cases o.rex <;> rfl
  have h67 : ¬ (m = .prot32 ∧ p.adr67 = true) := by
    rintro ⟨rfl, ha⟩
    simp [← hp.adr67, ha] at hmode
  have hrm := decodeRM_bytes_regNo hsrc (low3 o.d) rest
  rw [← hX, ← hB] at hrm
  rw [decodeLegacy_of_checks (ofOp_op c) (by simp [h66]) hp.illegal hp.repeated h67 hrm, hp.adr67, hp.seg, hR, hsome,
    regNo_low3]

/-- The byte `V1` that the encoder writes (rule R64). -/
def vexByte1 (d : BitVec 4) (src : Src 4) : Byte :=
  BitVec.ofBool (!d.getLsbD 3) ++ BitVec.ofBool (!src.xBit) ++ BitVec.ofBool (!src.bBit) ++ 2#5

/-- The byte `V2` that the encoder writes, W = 0 (rule R64). -/
def vexByte2 (l : Bool) : Byte := BitVec.ofBool false ++ 15#4 ++ BitVec.ofBool l ++ 1#2

/-- The fields of `V1` that the encoder writes: R, X and B complemented, and the map. -/
theorem vexByte1_fields (d : BitVec 4) (src : Src 4) :
    (vexByte1 d src).getLsbD 7 = !d.getLsbD 3 ∧ (vexByte1 d src).getLsbD 6 = !src.xBit ∧
      (vexByte1 d src).getLsbD 5 = !src.bBit ∧ (vexByte1 d src).extractLsb' 0 5 = 2#5 := by
  unfold vexByte1
  generalize d.getLsbD 3 = r, src.xBit = x, src.bBit = b
  revert r x b
  decide

/-- The fields of `V2` that the encoder writes: `vvvv`, `L` and `pp`. -/
theorem vexByte2_fields (l : Bool) :
    (vexByte2 l).extractLsb' 3 4 = 15#4 ∧ (vexByte2 l).getLsbD 2 = l ∧ (vexByte2 l).extractLsb' 0 2 = 1#2 := by
  revert l
  decide

/-- Two bits of a byte as one field. -/
theorem topBits_eq_three_iff (b : Byte) : b.extractLsb' 6 2 = 3#2 ↔ b.getLsbD 7 = true ∧ b.getLsbD 6 = true := by
  revert b
  decide

/-- The opcode byte of a conversion is one of 30 to 35. -/
theorem op_bounds (c : Conv) : 0x30#8 ≤ c.op ∧ c.op ≤ 0x35#8 := by
  cases c <;> decide

/-- The VEX class reads a well-formed form back from the bytes behind C4. -/
theorem decodeVex_encode {m : Mode} {p : Prefixes} {o : VexOps} (h : o.wf m = true) (hp : NotesOnly p o.adr67 o.seg)
    (h66 : p.n66 = 0) (l : Bool) (c : Conv) (rest : List Byte) :
    decodeVex m p none ((vexByte1 o.d o.src) :: (vexByte2 l) :: c.op ::
      (o.src.bytes (low3 o.d) ++ rest)) = .instr (vexForm l c o) := by
  obtain ⟨hR, hX, hB, hmap⟩ := vexByte1_fields o.d o.src
  obtain ⟨hvvvv, hL, hpp⟩ := vexByte2_fields l
  simp only [VexOps.wf, Bool.and_eq_true] at h
  obtain ⟨hsrc, hmode⟩ := h
  have hnarrow : m = .prot32 → o.d.getLsbD 3 = false ∧ o.src.xBit = false ∧ o.src.bBit = false ∧ o.adr67 = false := by
    rintro rfl
    simpa [-BitVec.getLsbD_eq_getElem, Src.narrow, and_assoc] using hmode
  have hid : vexIdentified m (vexByte1 o.d o.src) (vexByte2 l) c.op := by
    refine ⟨fun hm => ?_, hmap, hpp, op_bounds c⟩
    obtain ⟨hd, hx, _⟩ := hnarrow hm
    rw [topBits_eq_three_iff, hR, hX, hd, hx]
    exact ⟨rfl, rfl⟩
  have hext : ¬ (m = .prot32 ∧ (vexByte1 o.d o.src).getLsbD 5 = false) := by
    rintro ⟨hm, h5⟩
    obtain ⟨_, _, hb, _⟩ := hnarrow hm
    rw [hB, hb] at h5
    cases h5
  have h67 : ¬ (m = .prot32 ∧ p.adr67 = true) := by
    rintro ⟨hm, ha⟩
    obtain ⟨_, _, _, ha'⟩ := hnarrow hm
    rw [hp.adr67, ha'] at ha
    cases ha
  have hrm := decodeRM_bytes_regNo hsrc (low3 o.d) rest
  rw [← Bool.not_not o.src.xBit, ← Bool.not_not o.src.bBit, ← hX, ← hB] at hrm
  rw [decodeVex_of_checks hid (ofOp_op c) (by simp [hp.illegal, h66]) hp.repeated hvvvv hext h67 hrm, hp.adr67, hp.seg, hR,
    hL, Bool.not_not, regNo_low3]

/-- The byte `P0` that the encoder writes (rule R66). -/
def evexByte0 (d : BitVec 5) (src : Src 5) : Byte :=
  BitVec.ofBool (!d.getLsbD 3) ++ BitVec.ofBool (!src.xBit) ++ BitVec.ofBool (!src.bBit) ++
    BitVec.ofBool (!d.getLsbD 4) ++ 0#2 ++ 2#2

/-- The byte `P2` that the encoder writes (rule R66). -/
def evexByte2 (l : EvexLen) (aaa : BitVec 3) (z : Bool) : Byte :=
  BitVec.ofBool z ++ l.ll ++ BitVec.ofBool false ++ BitVec.ofBool true ++ aaa

/-- The fields of `P0` that the encoder writes: R, X, B and R' complemented, the reserved bits 3:2, and the map. -/
theorem evexByte0_fields (d : BitVec 5) (src : Src 5) :
    (evexByte0 d src).getLsbD 7 = !d.getLsbD 3 ∧ (evexByte0 d src).getLsbD 6 = !src.xBit ∧
      (evexByte0 d src).getLsbD 5 = !src.bBit ∧ (evexByte0 d src).getLsbD 4 = !d.getLsbD 4 ∧
      (evexByte0 d src).extractLsb' 2 2 = 0#2 ∧ (evexByte0 d src).extractLsb' 0 2 = 2#2 := by
  unfold evexByte0
  generalize d.getLsbD 3 = r, src.xBit = x, src.bBit = b, d.getLsbD 4 = r'
  revert r x b r'
  decide

/-- The fields of `P2` that the encoder writes: `z`, `LL`, `b`, `Vpbar` and `aaa`. -/
theorem evexByte2_fields (l : EvexLen) (aaa : BitVec 3) (z : Bool) :
    (evexByte2 l aaa z).getLsbD 7 = z ∧ (evexByte2 l aaa z).extractLsb' 5 2 = l.ll ∧
      (evexByte2 l aaa z).getLsbD 4 = false ∧ (evexByte2 l aaa z).getLsbD 3 = true ∧
      (evexByte2 l aaa z).extractLsb' 0 3 = aaa := by
  unfold evexByte2
  generalize l.ll = ll
  revert ll aaa z
  decide

/-- The EVEX class reads a well-formed form back from the bytes behind 62. -/
theorem decodeEvex_encode {m : Mode} {p : Prefixes} {o : EvexOps} (h : o.wf m = true) (hp : NotesOnly p o.adr67 o.seg)
    (h66 : p.n66 = 0) (l : EvexLen) (c : Conv) (rest : List Byte) :
    decodeEvex m p none (evexByte0 o.d o.src :: 0x7D#8 :: evexByte2 l o.aaa o.z :: c.op ::
      (o.src.bytes (low3 o.d) ++ rest)) = .instr (evexForm l c o) := by
  obtain ⟨hR, hX, hB, hR', hzero, hmap⟩ := evexByte0_fields o.d o.src
  obtain ⟨hz, hLL, hb, hV', haaa⟩ := evexByte2_fields l o.aaa o.z
  simp only [EvexOps.wf, Bool.and_eq_true, Bool.not_eq_true'] at h
  obtain ⟨⟨hsrc, hmask⟩, hmode⟩ := h
  have hnarrow : m = .prot32 → o.d.getLsbD 4 = false ∧ o.d.getLsbD 3 = false ∧ o.src.xBit = false ∧
      o.src.bBit = false ∧ o.adr67 = false := by
    rintro rfl
    simpa [-BitVec.getLsbD_eq_getElem, Src.narrow, and_assoc] using hmode
  have hid : evexIdentified m (evexByte0 o.d o.src) 0x7D#8 c.op := by
    refine ⟨fun hm => ?_, hmap, by decide, op_bounds c⟩
    obtain ⟨_, hd, hx, _⟩ := hnarrow hm
    rw [topBits_eq_three_iff, hR, hX, hd, hx]
    exact ⟨rfl, rfl⟩
  have hres : evexReserved m c (evexByte0 o.d o.src) 0x7D#8 (evexByte2 l o.aaa o.z) = false := by
    simp only [evexReserved, hV', hb, hz, haaa, hzero, hmask]
    simp
  have hext : ¬ (m = .prot32 ∧ evexExtended (evexByte0 o.d o.src) (evexByte2 l o.aaa o.z) = true) := by
    rintro ⟨hm, he⟩
    obtain ⟨hd4, _, _, hb, _⟩ := hnarrow hm
    rw [evexExtended, hB, hR', hV', hb, hd4] at he
    cases he
  have h67 : ¬ (m = .prot32 ∧ p.adr67 = true) := by
    rintro ⟨hm, ha⟩
    obtain ⟨_, _, _, _, ha'⟩ := hnarrow hm
    rw [hp.adr67, ha'] at ha
    cases ha
  have hrm := decodeRM_bytes_wideNo hsrc (low3 o.d) rest
  rw [← Bool.not_not o.src.xBit, ← Bool.not_not o.src.bBit, ← hX, ← hB] at hrm
  rw [decodeEvex_of_checks hid (ofOp_op c) (by simp [hp.illegal, h66]) hp.repeated hres (hLL ▸ ofLL_ll l) hext h67 hrm,
    hp.adr67, hp.seg, hR, hR', Bool.not_not, Bool.not_not, wideNo_low3, haaa, hz]

/-- The bytes that begin a class end the prefixes, and the class decodes what is behind them (rules R61, R85). -/
theorem decode_classByte {m : Mode} {pre rex : List Byte} (hpre : ∀ b ∈ pre, isLegacyPrefix b) (hrex : optionalRex m rex)
    {b : Byte} (hb : b ∈ [0x0F#8, 0xC4#8, 0x62#8]) (bs : List Byte) :
    decode m (pre ++ rex ++ b :: bs) = decodeClass m (prefixesFrom pre) rex.head? (b :: bs) :=
  have ⟨hnot, hnorex⟩ := classByte_not_prefix hb
  decode_append_optionalRex hpre hrex (.inr ⟨hnot, fun _ => hnorex⟩) bs

/-- The REX byte that the encoder writes, if any, is one that the decoder takes: `Prot32` has none. -/
theorem optionalRex_of_wf {m : Mode} {o : LegacyOps} (h : o.wf m = true) :
    optionalRex m (if o.rex then [rexByte o.d o.src] else []) := by
  cases hr : o.rex with
  | false => exact .inl rfl
  | true =>
    cases m with
    | long64 => exact .inr ⟨rfl, _, (rexByte_fields o.d o.src).1, rfl⟩
    | prot32 => simp [LegacyOps.wf, hr] at h

/-- A well-formed legacy form is decoded from its encoding. -/
theorem decode_encodeLegacy {m : Mode} {o : LegacyOps} (h : o.wf m = true) (c : Conv) (rest : List Byte) :
    decode m (encodeLegacy c o ++ rest) = .instr (legacyForm c o) := by
  have hpre : ∀ b ∈ prefixBytes o.adr67 o.seg ++ [0x66#8], isLegacyPrefix b := by
    intro b hb
    obtain hb | hb := List.mem_append.mp hb
    · exact isLegacyPrefix_of_prefixBytes hb
    · simp [List.mem_singleton.mp hb, isLegacyPrefix]
  obtain ⟨hp, h66⟩ := notesOnly_prefixBytes_66 o.adr67 o.seg
  have hbytes : encodeLegacy c o ++ rest = prefixBytes o.adr67 o.seg ++ [0x66#8] ++
      (if o.rex then [rexByte o.d o.src] else []) ++
      0x0F#8 :: 0x38#8 :: c.op :: (o.src.bytes (low3 o.d) ++ rest) := by
    simp [encodeLegacy, rexByte]
  rw [hbytes, decode_classByte hpre (optionalRex_of_wf h) (by simp)]
  refine decodeLegacy_encode h hp h66 c ?_ rest
  cases o.rex <;> rfl

/-- A well-formed VEX form is decoded from its encoding. -/
theorem decode_encodeVex {m : Mode} {o : VexOps} (h : o.wf m = true) (l : Bool) (c : Conv) (rest : List Byte) :
    decode m (encodeVex l c o ++ rest) = .instr (vexForm l c o) := by
  obtain ⟨hp, h66⟩ := notesOnly_prefixBytes o.adr67 o.seg
  have hbytes : encodeVex l c o ++ rest = prefixBytes o.adr67 o.seg ++ [] ++
      0xC4#8 :: vexByte1 o.d o.src :: vexByte2 l :: c.op :: (o.src.bytes (low3 o.d) ++ rest) := by
    simp [encodeVex, vexByte1, vexByte2]
  rw [hbytes, decode_classByte (fun _ => isLegacyPrefix_of_prefixBytes) (.inl rfl) (by simp)]
  exact decodeVex_encode h hp h66 l c rest

/-- A well-formed EVEX form is decoded from its encoding. -/
theorem decode_encodeEvex {m : Mode} {o : EvexOps} (h : o.wf m = true) (l : EvexLen) (c : Conv) (rest : List Byte) :
    decode m (encodeEvex l c o ++ rest) = .instr (evexForm l c o) := by
  obtain ⟨hp, h66⟩ := notesOnly_prefixBytes o.adr67 o.seg
  have hbytes : encodeEvex l c o ++ rest = prefixBytes o.adr67 o.seg ++ [] ++
      0x62#8 :: evexByte0 o.d o.src :: 0x7D#8 :: evexByte2 l o.aaa o.z :: c.op :: (o.src.bytes (low3 o.d) ++ rest) := by
    simp [encodeEvex, evexByte0, evexByte2]
  rw [hbytes, decode_classByte (fun _ => isLegacyPrefix_of_prefixBytes) (.inl rfl) (by simp)]
  exact decodeEvex_encode h hp h66 l c rest

/-- Settles O1, class by class. -/
theorem decodeOfEncodeGivesInstruction : Obligations.DecodeOfEncodeGivesInstruction := by
  intro m i rest h
  obtain ⟨c, o, rfl⟩ | ⟨l, c, o, rfl⟩ | ⟨l, c, o, rfl⟩ := instr_cases i
  · rw [Instr.wf, operands_legacyForm] at h
    rw [encode_legacyForm, decode_encodeLegacy h]
  · rw [Instr.wf, operands_vexForm] at h
    rw [encode_vexForm, decode_encodeVex h]
  · rw [Instr.wf, operands_evexForm] at h
    rw [encode_evexForm, decode_encodeEvex h]

/-! ## What is decoded is well-formed (rules R63, R71, R74, R80, R82) -/

/-- The four kinds of memory operand that `mod`, `rm` and a SIB byte name (rules R71, R72). -/
theorem decodeMem_some {x b : Bool} {md : BitVec 2} {rm : BitVec 3} {bs : List Byte} {m : MemOp}
    (h : decodeMem x b md rm bs = some m) :
    (∃ sib rest w, rm = 4#3 ∧ bs = sib :: rest ∧ (sib.extractLsb' 0 3 = 5#3 ∧ md = 0#2) ∧ takeD32 rest = some w ∧
      m = .sibNoBase (sibIndex x (sib.extractLsb' 3 3)) (sib.extractLsb' 6 2) w) ∨
    (∃ sib rest d, rm = 4#3 ∧ bs = sib :: rest ∧ ¬ (sib.extractLsb' 0 3 = 5#3 ∧ md = 0#2) ∧ takeDisp md rest = some d ∧
      m = .sib (regNo b (sib.extractLsb' 0 3)) (sibIndex x (sib.extractLsb' 3 3)) (sib.extractLsb' 6 2) d) ∨
    (∃ w, (rm = 5#3 ∧ md = 0#2) ∧ takeD32 bs = some w ∧ m = .rip w) ∨
    (∃ d, rm ≠ 4#3 ∧ ¬ (rm = 5#3 ∧ md = 0#2) ∧ takeDisp md bs = some d ∧ m = .base (regNo b rm) d) := by
  unfold decodeMem at h
  split at h
  next hrm =>
    split at h
    · cases h
    split at h
    next hsib =>
      obtain ⟨w, hw, rfl⟩ := Option.map_eq_some_iff.mp h
      exact .inl ⟨_, _, w, hrm, rfl, hsib, hw, rfl⟩
    next hsib =>
      obtain ⟨d, hd, rfl⟩ := Option.map_eq_some_iff.mp h
      exact .inr (.inl ⟨_, _, d, hrm, rfl, hsib, hd, rfl⟩)
  next hrm =>
    split at h
    next hrip =>
      obtain ⟨w, hw, rfl⟩ := Option.map_eq_some_iff.mp h
      exact .inr (.inr (.inl ⟨w, hrip, hw, rfl⟩))
    next hrip =>
      obtain ⟨d, hd, rfl⟩ := Option.map_eq_some_iff.mp h
      exact .inr (.inr (.inr ⟨d, hrm, hrip, hd, rfl⟩))

/-- Only `mod` = 00b asks for no displacement. -/
theorem ne_none_of_takeDisp {md : BitVec 2} {bs : List Byte} {d : Disp} (h : takeDisp md bs = some d) (hmd : md ≠ 0#2) :
    d ≠ .none := by
  rintro rfl
  unfold takeDisp at h
  rw [if_neg hmd] at h
  split at h
  · split at h <;> cases h
  · obtain ⟨w, _, hw⟩ := Option.map_eq_some_iff.mp h
    cases hw

/-- Register 4 is never an index, and without X no index is above 7 (rule R71). -/
theorem sibIndex_facts (x : Bool) (f : BitVec 3) :
    sibIndex x f ≠ some 4#4 ∧ (x = false → ((sibIndex x f).getD 4#4).getLsbD 3 = false) := by
  revert x f
  decide

/-- A decoded memory operand can be encoded. -/
theorem wf_of_decodeMem {x b : Bool} {md : BitVec 2} {rm : BitVec 3} {bs : List Byte} {m : MemOp}
    (h : decodeMem x b md rm bs = some m) : m.wf = true := by
  obtain ⟨sib, _, w, _, _, _, _, rfl⟩ | ⟨sib, _, d, _, _, h5, hd, rfl⟩ | ⟨w, _, _, rfl⟩ | ⟨d, h4, h5, hd, rfl⟩ :=
    decodeMem_some h
  · simp [MemOp.wf, (sibIndex_facts x _).1]
  · have hdisp := fun hs => ne_none_of_takeDisp hd (not_and.mp h5 hs)
    simpa [MemOp.wf, (sibIndex_facts x _).1, or_iff_not_imp_left] using hdisp
  · rfl
  · have hdisp := fun hr => ne_none_of_takeDisp hd (not_and.mp h5 hr)
    simpa [MemOp.wf, h4, or_iff_not_imp_left] using hdisp

/-- A memory operand decoded with X = B = 0 needs neither. -/
theorem narrow_of_decodeMem {md : BitVec 2} {rm : BitVec 3} {bs : List Byte} {m : MemOp}
    (h : decodeMem false false md rm bs = some m) : m.xBit = false ∧ m.bBit = false := by
  obtain ⟨sib, _, w, _, _, _, _, rfl⟩ | ⟨sib, _, d, _, _, _, _, rfl⟩ | ⟨w, _, _, rfl⟩ | ⟨d, _, _, _, rfl⟩ :=
    decodeMem_some h
  · exact ⟨(sibIndex_facts _ _).2 rfl, rfl⟩
  · exact ⟨(sibIndex_facts _ _).2 rfl, regNo_bit3 _ _⟩
  · exact ⟨rfl, rfl⟩
  · exact ⟨rfl, regNo_bit3 _ _⟩

/-- A decoded source can be encoded. -/
theorem wf_of_decodeRM {n : Nat} {x b : Bool} {wide : BitVec 3 → BitVec n} {bs : List Byte} {reg : BitVec 3} {src : Src n}
    (h : decodeRM x b wide bs = some (reg, src)) : src.wf = true := by
  obtain ⟨_, _, _, _, rfl | ⟨m, hm, rfl⟩⟩ := decodeRM_some h
  · rfl
  · exact wf_of_decodeMem hm

/-- A source decoded with X = B = 0 needs neither, when a register source's number has neither bit. -/
theorem narrow_of_decodeRM {n : Nat} {x b : Bool} (hx : x = false) (hb : b = false) {wide : BitVec 3 → BitVec n}
    (hwide : ∀ f, (wide f).getLsbD 4 = false ∧ (wide f).getLsbD 3 = false) {bs : List Byte} {reg : BitVec 3} {src : Src n}
    (h : decodeRM x b wide bs = some (reg, src)) : src.narrow = true := by
  subst hx hb
  obtain ⟨_, _, _, _, rfl | ⟨m, hm, rfl⟩⟩ := decodeRM_some h
  · simp [-BitVec.getLsbD_eq_getElem, Src.narrow, Src.xBit, Src.bBit, hwide]
  · obtain ⟨hx, hb⟩ := narrow_of_decodeMem hm
    simp [Src.narrow, Src.xBit, Src.bBit, hx, hb]

/-- A register number made without extension bits has none. -/
theorem wideNo_false_bits (f : BitVec 3) : (BitVec.ofBool false ++ regNo false f).getLsbD 4 = false ∧
    (BitVec.ofBool false ++ regNo false f).getLsbD 3 = false := by
  revert f
  decide

/-- The legacy class answers well-formed forms, where there is a REX byte in `Long64` only. -/
theorem wf_of_decodeLegacy {m : Mode} {p : Prefixes} {rex : Option Byte} {bs : List Byte} {i : Instr}
    (hrex : m = .prot32 → rex = none) (h : decodeLegacy m p rex bs = .instr i) : i.wf m = true := by
  obtain ⟨_, c, rest, reg, src, _, _, _, _, _, h67, hrm, rfl⟩ := decodeLegacy_instr h
  have hsrc := wf_of_decodeRM hrm
  have hext : rex.isSome = true ∨ (regNo ((rex.getD 0#8).getLsbD 2) reg).getLsbD 3 = false ∧ src.narrow = true := by
    cases rex with
    | some r => exact .inl rfl
    | none =>
      exact .inr ⟨regNo_bit3 _ _,
        narrow_of_decodeRM rfl rfl (fun f => ⟨BitVec.getLsbD_of_ge _ _ (by decide), regNo_bit3 _ _⟩) hrm⟩
  have hmode : m = .long64 ∨ rex.isSome = false ∧ p.adr67 = false := by
    cases m with
    | long64 => exact .inl rfl
    | prot32 => exact .inr ⟨by rw [hrex rfl]; rfl, by simpa using h67⟩
  simpa [-BitVec.getLsbD_eq_getElem, -regNo_bit3, Instr.wf, Operands.wf, LegacyOps.wf, hsrc] using And.intro hext hmode

/-- The VEX class answers well-formed forms: in `Prot32` bits 7 to 5 of `V1` are 1. -/
theorem wf_of_decodeVex {m : Mode} {p : Prefixes} {rex : Option Byte} {bs : List Byte} {i : Instr}
    (h : decodeVex m p rex bs = .instr i) : i.wf m = true := by
  obtain ⟨v1, _, _, _, _, reg, src, _, ⟨htop, _⟩, _, _, _, _, hext, h67, hrm, rfl⟩ := decodeVex_instr h
  have hsrc := wf_of_decodeRM hrm
  have hmode : m = .long64 ∨ ((regNo (!v1.getLsbD 7) reg).getLsbD 3 = false ∧ src.narrow = true) ∧ p.adr67 = false := by
    cases m with
    | long64 => exact .inl rfl
    | prot32 =>
      obtain ⟨h7, h6⟩ := (topBits_eq_three_iff v1).mp (htop rfl)
      have h5 : v1.getLsbD 5 = true := by simpa using hext
      rw [h6, h5] at hrm
      exact .inr ⟨⟨by rw [h7]; exact regNo_bit3 _ _,
        narrow_of_decodeRM rfl rfl (fun f => ⟨BitVec.getLsbD_of_ge _ _ (by decide), regNo_bit3 _ _⟩) hrm⟩, by simpa using h67⟩
  simpa [-BitVec.getLsbD_eq_getElem, -regNo_bit3, Instr.wf, Operands.wf, VexOps.wf, hsrc] using hmode

/-- The EVEX class answers well-formed forms: in `Prot32` bits 7 to 4 of `P0` are 1. -/
theorem wf_of_decodeEvex {m : Mode} {p : Prefixes} {rex : Option Byte} {bs : List Byte} {i : Instr}
    (h : decodeEvex m p rex bs = .instr i) : i.wf m = true := by
  obtain ⟨p0, p1, p2, _, _, _, _, reg, src, _, ⟨htop, _⟩, _, _, _, hres, _, hext, h67, hrm, rfl⟩ := decodeEvex_instr h
  have hsrc := wf_of_decodeRM hrm
  have hmask : (p2.getLsbD 7 && p2.extractLsb' 0 3 == 0#3) = false := by
    simp only [evexReserved, Bool.or_eq_false_iff] at hres
    exact hres.1.1.1.2
  have hmode : m = .long64 ∨
      (((BitVec.ofBool (!p0.getLsbD 4) ++ regNo (!p0.getLsbD 7) reg).getLsbD 4 = false ∧
        (BitVec.ofBool (!p0.getLsbD 4) ++ regNo (!p0.getLsbD 7) reg).getLsbD 3 = false) ∧ src.narrow = true) ∧
      p.adr67 = false := by
    cases m with
    | long64 => exact .inl rfl
    | prot32 =>
      obtain ⟨h7, h6⟩ := (topBits_eq_three_iff p0).mp (htop rfl)
      obtain ⟨⟨h5, h4⟩, _⟩ : (p0.getLsbD 5 = true ∧ p0.getLsbD 4 = true) ∧ p2.getLsbD 3 = true := by
        simpa [evexExtended] using hext
      rw [h6, h5] at hrm
      exact .inr ⟨⟨by rw [h7, h4]; exact wideNo_false_bits _, narrow_of_decodeRM rfl rfl wideNo_false_bits hrm⟩,
        by simpa using h67⟩
  simp only [Instr.wf, operands_evexForm, Operands.wf, EvexOps.wf, hsrc, hmask, Bool.not_false, Bool.true_and]
  simpa [-BitVec.getLsbD_eq_getElem] using hmode

/-- Settles O2, by the class that answered. -/
theorem decodedInstructionIsWellFormed : Obligations.DecodedInstructionIsWellFormed := by
  intro m bs i h
  obtain ⟨p, rex, rest, hrex, _, hl | hv | he⟩ := decode_instr h
  · exact wf_of_decodeLegacy hrex hl
  · exact wf_of_decodeVex hv
  · exact wf_of_decodeEvex he

/-! ## Decoding reads just the length (rules R78, R85) -/

/-- `f` reads just the first `n` of the bytes: they are there, and whatever is put behind them gives the same answer. -/
def ReadsExactly {α : Type} (f : List Byte → α) (n : Nat) (bs : List Byte) : Prop :=
  n ≤ bs.length ∧ ∀ rest, f (bs.take n ++ rest) = f bs

/-- A reader that takes one byte and hands on the others reads one byte more. -/
theorem ReadsExactly.cons {α : Type} {f g : List Byte → α} {b : Byte} (hf : ∀ bs, f (b :: bs) = g bs) {n : Nat}
    {bs : List Byte} (h : ReadsExactly g n bs) : ReadsExactly f (n + 1) (b :: bs) :=
  ⟨Nat.succ_le_succ h.1, fun rest => by rw [List.take_succ_cons, List.cons_append, hf, hf, h.2]⟩

/-- What is made of an answer does not change how much is read for it. -/
theorem ReadsExactly.map {α β : Type} {f : List Byte → Option α} {n : Nat} {bs : List Byte} (h : ReadsExactly f n bs)
    (g : α → β) : ReadsExactly (fun bs => (f bs).map g) n bs :=
  ⟨h.1, fun rest => congrArg (Option.map g) (h.2 rest)⟩

/-- A four-byte displacement is read from four bytes. -/
theorem readsExactly_takeD32 {bs : List Byte} {w : BitVec 32} (h : takeD32 bs = some w) : ReadsExactly takeD32 4 bs := by
  unfold takeD32 at h
  split at h
  · exact ⟨by simp, fun _ => rfl⟩
  · cases h

/-- A displacement is read from as many bytes as it is long. -/
theorem readsExactly_takeDisp {md : BitVec 2} {bs : List Byte} {d : Disp} (h : takeDisp md bs = some d) :
    ReadsExactly (takeDisp md) d.len bs := by
  by_cases h0 : md = 0#2
  · have hf : ∀ bs, takeDisp md bs = some .none := fun bs => by simp [takeDisp, h0]
    obtain rfl := Option.some.inj ((hf bs).symm.trans h)
    exact ⟨Nat.zero_le _, fun rest => by rw [hf, hf]⟩
  by_cases h1 : md = 1#2
  · cases bs with
    | nil => simp [takeDisp, h1] at h
    | cons b bs =>
      have hf : ∀ bs, takeDisp md (b :: bs) = some (.d8 b) := fun bs => by simp [takeDisp, h1]
      obtain rfl := Option.some.inj ((hf bs).symm.trans h)
      exact ⟨by simp [Disp.len], fun rest => by simp [Disp.len, hf]⟩
  · have hf : takeDisp md = fun bs => (takeD32 bs).map .d32 := funext fun bs => by simp [takeDisp, h0, h1]
    rw [hf] at h ⊢
    obtain ⟨w, hw, rfl⟩ := Option.map_eq_some_iff.mp h
    exact (readsExactly_takeD32 hw).map _

/-- A memory operand is read from its SIB byte and displacement. -/
theorem readsExactly_decodeMem {x b : Bool} {md : BitVec 2} {rm : BitVec 3} {bs : List Byte} {m : MemOp}
    (h : decodeMem x b md rm bs = some m) : ReadsExactly (decodeMem x b md rm) m.len bs := by
  obtain ⟨sib, rest, w, rfl, rfl, hsib, hw, rfl⟩ | ⟨sib, rest, d, rfl, rfl, hsib, hd, rfl⟩ | ⟨w, ⟨rfl, rfl⟩, hw, rfl⟩ |
    ⟨d, hrm, hrip, hd, rfl⟩ := decodeMem_some h
  · have hf : ∀ bs, decodeMem x b md 4#3 (sib :: bs) =
        (takeD32 bs).map (.sibNoBase (sibIndex x (sib.extractLsb' 3 3)) (sib.extractLsb' 6 2)) := fun bs => by
      simp [decodeMem, hsib]
    exact ((readsExactly_takeD32 hw).map _).cons hf
  · have hf : ∀ bs, decodeMem x b md 4#3 (sib :: bs) = (takeDisp md bs).map
        (.sib (regNo b (sib.extractLsb' 0 3)) (sibIndex x (sib.extractLsb' 3 3)) (sib.extractLsb' 6 2)) := fun bs => by
      simp [decodeMem, hsib]
    rw [MemOp.len, Nat.add_comm]
    exact ((readsExactly_takeDisp hd).map _).cons hf
  · have hf : decodeMem x b 0#2 5#3 = fun bs => (takeD32 bs).map .rip := funext fun bs => by simp [decodeMem]
    rw [hf]
    exact (readsExactly_takeD32 hw).map _
  · have hf : decodeMem x b md rm = fun bs => (takeDisp md bs).map (.base (regNo b rm)) := funext fun bs => by
      simp [decodeMem, hrm, hrip]
    rw [hf]
    exact (readsExactly_takeDisp hd).map _

/-- A source is read from ModRM and what follows it. -/
theorem readsExactly_decodeRM {n : Nat} {x b : Bool} {wide : BitVec 3 → BitVec n} {bs : List Byte} {reg : BitVec 3}
    {src : Src n} (h : decodeRM x b wide bs = some (reg, src)) : ReadsExactly (decodeRM x b wide) src.len bs := by
  cases bs with
  | nil => cases h
  | cons modrm rest =>
    by_cases hreg : modrm.extractLsb' 6 2 = 3#2
    · have hf : ∀ bs, decodeRM x b wide (modrm :: bs) = some (modrm.extractLsb' 3 3, .reg (wide (modrm.extractLsb' 0 3))) :=
        fun bs => by simp [decodeRM, hreg]
      obtain ⟨_, rfl⟩ := Prod.mk.inj (Option.some.inj ((hf rest).symm.trans h))
      exact ⟨by simp [Src.len], fun rest => by simp [Src.len, hf]⟩
    · have hf : ∀ bs, decodeRM x b wide (modrm :: bs) =
          (decodeMem x b (modrm.extractLsb' 6 2) (modrm.extractLsb' 0 3) bs).map
            fun m => (modrm.extractLsb' 3 3, .mem m) := fun bs => by simp [decodeRM, hreg]
      rw [hf] at h
      obtain ⟨m, hm, he⟩ := Option.map_eq_some_iff.mp h
      obtain ⟨_, rfl⟩ := Prod.mk.inj he
      rw [Src.len, Nat.add_comm]
      exact ((readsExactly_decodeMem hm).map _).cons hf

/-! ### The bytes in front of a class -/

/-- As many prefixes are noted as stand there. -/
theorem prefixCount_prefixesFrom {pre : List Byte} (h : ∀ b ∈ pre, isLegacyPrefix b) :
    prefixCount (prefixesFrom pre) = pre.length := by
  have hcount := scanPrefixes_prefixCount .empty (pre ++ [])
  rw [scanPrefixes_append h] at hcount
  simpa [scanPrefixes, prefixCount, Prefixes.empty, prefixesFrom] using hcount

/-- Where none is illegal and none repeated, the prefixes are the 67 and segment override that an instruction keeps, and
66. -/
theorem prefixLen_eq_prefixCount {p : Prefixes} (hill : p.illegal = false) (hrep : p.repeated = false) :
    prefixLen p.adr67 p.seg + p.n66 = prefixCount p ∧ p.n66 ≤ 1 := by
  simp only [Prefixes.illegal, Bool.or_eq_false_iff, bne_eq_false_iff_eq] at hill
  simp only [Prefixes.repeated, Bool.or_eq_false_iff, decide_eq_false_iff_not, not_lt] at hrep
  obtain ⟨⟨hlock, hF2⟩, hF3⟩ := hill
  obtain ⟨⟨h66, h67⟩, hseg⟩ := hrep
  have h67' : p.adr67.toNat = p.n67 := by
    obtain h0 | h1 : p.n67 = 0 ∨ p.n67 = 1 := by omega
    · simp [Prefixes.adr67, h0]
    · simp [Prefixes.adr67, h1]
  have hseg' : p.seg.isSome.toNat = p.segs.length := by
    match hs : p.segs with
    | [] => simp [Prefixes.seg, hs]
    | [g] => simp [Prefixes.seg, hs]
    | _ :: _ :: _ => simp [hs] at hseg
  exact ⟨by unfold prefixLen prefixCount; omega, h66⟩

/-- Every byte string is legacy prefixes and then nothing or a byte that is none. -/
theorem exists_prefixes (bs : List Byte) :
    ∃ pre rest, bs = pre ++ rest ∧ (∀ b ∈ pre, isLegacyPrefix b) ∧ ∀ b ∈ rest.head?, ¬ isLegacyPrefix b := by
  induction bs with
  | nil => exact ⟨[], [], rfl, by simp, by simp⟩
  | cons b bs ih =>
    by_cases hb : isLegacyPrefix b
    · obtain ⟨pre, rest, rfl, hpre, hrest⟩ := ih
      exact ⟨b :: pre, rest, rfl, by simpa [hb] using hpre, hrest⟩
    · exact ⟨[], b :: bs, rfl, by simp, by simpa using hb⟩

/-- What is behind the legacy prefixes is an optional REX byte and what it leaves. -/
theorem takeRex_split (m : Mode) (bs : List Byte) :
    bs = (takeRex m bs).1.toList ++ (takeRex m bs).2 ∧ optionalRex m (takeRex m bs).1.toList := by
  cases bs with
  | nil => exact ⟨rfl, .inl rfl⟩
  | cons b bs =>
    by_cases h : m = .long64 ∧ b.extractLsb' 4 4 = 4#4
    · simp only [takeRex, if_pos h]
      exact ⟨rfl, .inr ⟨h.1, b, h.2, rfl⟩⟩
    · simp only [takeRex, if_neg h]
      exact ⟨rfl, .inl rfl⟩

/-- A decoded instruction's bytes are legacy prefixes, an optional REX byte, and the first byte of its class with what the
class read it from (rules R61, R85). -/
theorem decode_instr_split {m : Mode} {bs : List Byte} {i : Instr} (h : decode m bs = .instr i) :
    ∃ (pre : List Byte) (rex : Option Byte) (b : Byte) (rest : List Byte), bs = pre ++ rex.toList ++ b :: rest ∧
      (∀ b ∈ pre, isLegacyPrefix b) ∧ optionalRex m rex.toList ∧
      ((b = 0x0F#8 ∧ decodeLegacy m (prefixesFrom pre) rex rest = .instr i) ∨
        (b = 0xC4#8 ∧ decodeVex m (prefixesFrom pre) rex rest = .instr i) ∨
        (b = 0x62#8 ∧ decodeEvex m (prefixesFrom pre) rex rest = .instr i)) := by
  obtain ⟨pre, tail, rfl, hpre, htail⟩ := exists_prefixes bs
  have hstop : ∀ p, scanPrefixes p tail = (p, tail) := by
    intro p
    cases tail with
    | nil => rfl
    | cons b tail => exact scanPrefixes_stop (note_eq_none (htail b rfl) p) tail
  unfold decode at h
  rw [scanPrefixes_append hpre, hstop] at h
  obtain ⟨hsplit, hrex⟩ := takeRex_split m tail
  obtain ⟨b, rest, hb, hclass⟩ := decodeClass_instr h
  refine ⟨pre, (takeRex m tail).1, b, rest, ?_, hpre, hrex, ?_⟩
  · rw [List.append_assoc, ← hb, ← hsplit]
  · simpa [Prefixes.empty, prefixesFrom] using hclass

/-! ### The three classes -/

/-- Behind prefixes and an optional REX byte, the decoder reads these and what the class reads. -/
theorem readsExactly_decode {m : Mode} {pre : List Byte} {rex : Option Byte} {b : Byte} {rest : List Byte}
    (hpre : ∀ b ∈ pre, isLegacyPrefix b) (hrex : optionalRex m rex.toList) (hb : b ∈ [0x0F#8, 0xC4#8, 0x62#8]) {k : Nat}
    (h : ReadsExactly (fun bs => decodeClass m (prefixesFrom pre) rex (b :: bs)) k rest) :
    ReadsExactly (decode m) (pre.length + rex.toList.length + (k + 1)) (pre ++ rex.toList ++ b :: rest) := by
  have hd : ∀ bs, decode m (pre ++ rex.toList ++ b :: bs) = decodeClass m (prefixesFrom pre) rex (b :: bs) := by
    intro bs
    rw [decode_classByte hpre hrex hb, Option.head?_toList]
  refine ⟨?_, fun tail => ?_⟩
  · have := h.1
    simp only [List.length_append, List.length_cons]
    omega
  · rw [← List.length_append, List.take_length_add_append, List.append_assoc _ _ tail, List.take_succ_cons,
      List.cons_append, hd, hd]
    exact h.2 tail

/-- The legacy class reads the form's bytes behind 0F. -/
theorem readsExactly_decodeLegacy {m : Mode} {p : Prefixes} {rex : Option Byte} {bs : List Byte} {i : Instr}
    (h : decodeLegacy m p rex bs = .instr i) :
    ∃ k, ReadsExactly (decodeLegacy m p rex) k bs ∧ i.len = prefixCount p + rex.toList.length + (k + 1) := by
  obtain ⟨op, c, rest, reg, src, rfl, hc, h66, hill, hrep, h67, hrm, rfl⟩ := decodeLegacy_instr h
  obtain ⟨hlen, htail⟩ := readsExactly_decodeRM hrm
  refine ⟨src.len + 2, ⟨by simpa using hlen, fun tail => ?_⟩, ?_⟩
  · rw [h]
    exact decodeLegacy_of_checks hc h66 hill hrep h67 ((htail tail).trans hrm)
  · obtain ⟨hcount, hle⟩ := prefixLen_eq_prefixCount hill hrep
    have hn66 : p.n66 ≠ 0 := by
      simp only [Prefixes.illegal, Bool.or_eq_false_iff, bne_eq_false_iff_eq] at hill
      omega
    have hr : rex.isSome.toNat = rex.toList.length := by cases rex <;> rfl
    simp only [Instr.len, operands_legacyForm, Operands.len, LegacyOps.len]
    omega

/-- No 66 and no REX byte come before a VEX or EVEX form (rule R81). -/
theorem prefixes_of_not_illegal {p : Prefixes} {rex : Option Byte}
    (h : ¬ (p.illegal = true ∨ p.n66 ≠ 0 ∨ rex.isSome = true)) : p.illegal = false ∧ p.n66 = 0 ∧ rex = none := by
  simpa [not_or] using h

/-- The VEX class reads the form's bytes behind C4. -/
theorem readsExactly_decodeVex {m : Mode} {p : Prefixes} {rex : Option Byte} {bs : List Byte} {i : Instr}
    (h : decodeVex m p rex bs = .instr i) :
    ∃ k, ReadsExactly (decodeVex m p rex) k bs ∧ i.len = prefixCount p + rex.toList.length + (k + 1) := by
  obtain ⟨v1, v2, op, c, rest, reg, src, rfl, hid, hc, hill, hrep, hvvvv, hext, h67, hrm, rfl⟩ := decodeVex_instr h
  obtain ⟨hlen, htail⟩ := readsExactly_decodeRM hrm
  refine ⟨src.len + 3, ⟨by simpa using hlen, fun tail => ?_⟩, ?_⟩
  · rw [h]
    exact decodeVex_of_checks hid hc hill hrep hvvvv hext h67 ((htail tail).trans hrm)
  · obtain ⟨hnone, h66, rfl⟩ := prefixes_of_not_illegal hill
    obtain ⟨hcount, _⟩ := prefixLen_eq_prefixCount hnone hrep
    simp only [Instr.len, operands_vexForm, Operands.len, VexOps.len, Option.toList_none, List.length_nil]
    omega

/-- The EVEX class reads the form's bytes behind 62. -/
theorem readsExactly_decodeEvex {m : Mode} {p : Prefixes} {rex : Option Byte} {bs : List Byte} {i : Instr}
    (h : decodeEvex m p rex bs = .instr i) :
    ∃ k, ReadsExactly (decodeEvex m p rex) k bs ∧ i.len = prefixCount p + rex.toList.length + (k + 1) := by
  obtain ⟨p0, p1, p2, op, c, l, rest, reg, src, rfl, hid, hc, hill, hrep, hres, hll, hext, h67, hrm, rfl⟩ :=
    decodeEvex_instr h
  obtain ⟨hlen, htail⟩ := readsExactly_decodeRM hrm
  refine ⟨src.len + 4, ⟨by simpa using hlen, fun tail => ?_⟩, ?_⟩
  · rw [h]
    exact decodeEvex_of_checks hid hc hill hrep hres hll hext h67 ((htail tail).trans hrm)
  · obtain ⟨hnone, h66, rfl⟩ := prefixes_of_not_illegal hill
    obtain ⟨hcount, _⟩ := prefixLen_eq_prefixCount hnone hrep
    simp only [Instr.len, operands_evexForm, Operands.len, EvexOps.len, Option.toList_none, List.length_nil]
    omega

/-- Settles O3: the prefixes, the REX byte and the class's bytes that were read are as many as the length counts. -/
theorem decodeReadsExactlyItsLength : Obligations.DecodeReadsExactlyItsLength := by
  intro m bs i h
  suffices hread : ReadsExactly (decode m) i.len bs from ⟨hread.1, fun rest => (hread.2 rest).trans h⟩
  obtain ⟨pre, rex, b, rest, rfl, hpre, hrex, hclass⟩ := decode_instr_split h
  obtain ⟨k, hk, hlen⟩ : ∃ k, ReadsExactly (fun bs => decodeClass m (prefixesFrom pre) rex (b :: bs)) k rest ∧
      i.len = prefixCount (prefixesFrom pre) + rex.toList.length + (k + 1) := by
    obtain ⟨rfl, hl⟩ | ⟨rfl, hv⟩ | ⟨rfl, he⟩ := hclass
    · exact readsExactly_decodeLegacy hl
    · exact readsExactly_decodeVex hv
    · exact readsExactly_decodeEvex he
  rw [hlen, prefixCount_prefixesFrom hpre]
  refine readsExactly_decode hpre hrex ?_ hk
  obtain ⟨rfl, _⟩ | ⟨rfl, _⟩ | ⟨rfl, _⟩ := hclass <;> simp

/-! ## Lengths (rules R60, R78) -/

/-- ModRM and what follows it are as many bytes as the source's length says. -/
@[simp] theorem length_srcBytes {n : Nat} (reg : BitVec 3) (src : Src n) : (src.bytes reg).length = src.len := by
  rcases src with r | (⟨b, d⟩ | d | ⟨b, i, ss, d⟩ | ⟨i, ss, d⟩) <;>
    simp [Src.bytes, Src.len, MemOp.len, bytes32, Nat.add_comm]

/-- The encoding is as long as rule R78 counts. -/
theorem length_encode (i : Instr) : (encode i).length = i.len := by
  obtain ⟨c, o, rfl⟩ | ⟨l, c, o, rfl⟩ | ⟨l, c, o, rfl⟩ := instr_cases i
  · rw [encode_legacyForm, Instr.len, operands_legacyForm, Operands.len, LegacyOps.len]
    cases hr : o.rex <;> simp [encodeLegacy, hr] <;> omega
  · rw [encode_vexForm, Instr.len, operands_vexForm, Operands.len, VexOps.len]
    simp [encodeVex]
    omega
  · rw [encode_evexForm, Instr.len, operands_evexForm, Operands.len, EvexOps.len]
    simp [encodeEvex]
    omega

/-- Every length is between 5 and 13. -/
theorem len_bounds (i : Instr) : 5 ≤ i.len ∧ i.len ≤ 13 := by
  rw [Instr.len]
  cases i.operands with
  | legacy o => exact o.len_bounds
  | vex o => exact o.len_bounds
  | evex o => exact o.len_bounds

/-- Settles O4; the bounds are attained by PMOVZXBW xmm0, xmm0, by its EVEX form, and by a legacy form with 67, a segment
override, REX, SIB and a four-byte displacement. -/
theorem encodedBytesHaveTheirLength : Obligations.EncodedBytesHaveTheirLength := by
  refine ⟨fun i => ⟨length_encode i, len_bounds i⟩, ?_, ?_, ?_, ?_⟩
  · intro l c o
    have := o.src.len_bounds
    simp only [Instr.len, operands_evexForm, Operands.len, EvexOps.len]
    omega
  · exact ⟨.pmovzxbw ⟨false, none, false, 0#4, .reg 0#4⟩, by decide, by decide⟩
  · exact ⟨.l128, .bw, ⟨false, none, 0#5, .reg 0#5, 0#3, false⟩, by decide, by decide⟩
  · exact ⟨.pmovzxbw ⟨true, some .fs, true, 0#4, .mem (.sib 0#4 none 0#2 (.d32 0#32))⟩, by decide, by decide⟩

/-- Settles O6 by decoding the six words. -/
theorem specWordsDecodeToTheirForms : Obligations.SpecWordsDecodeToTheirForms :=
  ⟨rfl, rfl, rfl, rfl, rfl, rfl⟩

/-! ## The opcode table's windows (rule R86) -/

/-- A big-endian number with one more byte at its end. -/
theorem bigEndian_append_singleton (bs : List Byte) (b : Byte) : bigEndian (bs ++ [b]) = bigEndian bs * 256 + b.toNat := by
  simp [bigEndian]

/-- Masking two numbers of base-256 digits masks their last digits and what is above them. -/
theorem and_mul_256_add (a b : Nat) (x y : Byte) :
    (a * 256 + x.toNat) &&& (b * 256 + y.toNat) = (a &&& b) * 256 + (x &&& y).toNat := by
  apply Nat.eq_of_testBit_eq
  intro k
  have h256 : ∀ n (z : Byte), (n * 256 + z.toNat).testBit k = if k < 8 then z.toNat.testBit k else n.testBit (k - 8) := by
    intro n z
    rw [Nat.mul_comm]
    exact Nat.testBit_two_pow_mul_add n z.isLt k
  rw [Nat.testBit_and, h256, h256, h256, BitVec.toNat_and, Nat.testBit_and, Nat.testBit_and]
  split <;> rfl

/-- Masking big-endian numbers of as many bytes is masking byte by byte. -/
theorem bigEndian_and {bs ms : List Byte} (h : bs.length = ms.length) :
    bigEndian bs &&& bigEndian ms = bigEndian (List.zipWith (· &&& ·) bs ms) := by
  induction bs using List.reverseRecOn generalizing ms with
  | nil =>
    obtain rfl := List.length_eq_zero_iff.mp h.symm
    rfl
  | append_singleton bs b ih =>
    obtain ⟨ms, m, rfl⟩ := List.eq_nil_or_concat' ms |>.resolve_left (by rintro rfl; simp at h)
    have hlen : bs.length = ms.length := by simpa using h
    rw [List.zipWith_append hlen]
    simp only [List.zipWith_cons_cons, List.zipWith_nil_left, bigEndian_append_singleton, and_mul_256_add, ih hlen]

/-- Big-endian numbers of as many bytes are equal only when the bytes are. -/
theorem bigEndian_inj {bs cs : List Byte} (hlen : bs.length = cs.length) (h : bigEndian bs = bigEndian cs) : bs = cs := by
  induction bs using List.reverseRecOn generalizing cs with
  | nil => exact (List.length_eq_zero_iff.mp hlen.symm).symm
  | append_singleton bs b ih =>
    obtain ⟨cs, c, rfl⟩ := List.eq_nil_or_concat' cs |>.resolve_left (by rintro rfl; simp at hlen)
    have hlen' : bs.length = cs.length := by simpa using hlen
    rw [bigEndian_append_singleton, bigEndian_append_singleton] at h
    have hb := b.isLt
    have hc := c.isLt
    rw [ih hlen' (by omega), BitVec.eq_of_toNat_eq (show b.toNat = c.toNat by omega)]

/-- The window of a form's opcode-table row, byte by byte: what must be there. -/
def rowMatch (i : Instr) : List Byte :=
  match i.operands with
  | .legacy _ => [0x66#8, 0x0F#8, 0x38#8, (convOf i).op]
  | .vex _ => [0xC4#8, 0x02#8, if vlOf i = 128 then 0x01#8 else 0x05#8, (convOf i).op]
  | .evex _ =>
    [0x62#8, 0x02#8, 0x01#8, if vlOf i = 128 then 0x00#8 else if vlOf i = 256 then 0x20#8 else 0x40#8, (convOf i).op]

/-- The window of a form's opcode-table row, byte by byte: the bits that are compared. -/
def rowMask (i : Instr) : List Byte :=
  match i.operands with
  | .legacy _ => [0xFF#8, 0xFF#8, 0xFF#8, 0xFF#8]
  | .vex _ => [0xFF#8, 0x1F#8, 0x07#8, 0xFF#8]
  | .evex _ => [0xFF#8, 0x03#8, 0x03#8, 0x60#8, 0xFF#8]

/-- The opcode table's numbers are those bytes, the first most significant. -/
theorem windowOf_eq (i : Instr) : windowOf i = (bigEndian (rowMatch i), bigEndian (rowMask i)) := by
  cases i <;> simp [windowOf, rowMatch, rowMask, bigEndian, convOf, vlOf, Instr.operands, Conv.op]

@[simp] theorem convOf_legacyForm (c : Conv) (o : LegacyOps) : convOf (legacyForm c o) = c := by
  cases c <;> rfl

@[simp] theorem convOf_vexForm (l : Bool) (c : Conv) (o : VexOps) : convOf (vexForm l c o) = c := by
  cases l <;> cases c <;> rfl

@[simp] theorem convOf_evexForm (l : EvexLen) (c : Conv) (o : EvexOps) : convOf (evexForm l c o) = c := by
  cases l <;> cases c <;> rfl

@[simp] theorem vlOf_vexForm (l : Bool) (c : Conv) (o : VexOps) : vlOf (vexForm l c o) = if l then 256 else 128 := by
  cases l <;> cases c <;> rfl

@[simp] theorem vlOf_evexForm (l : EvexLen) (c : Conv) (o : EvexOps) :
    vlOf (evexForm l c o) = match l with | .l128 => 128 | .l256 => 256 | .l512 => 512 := by
  cases l <;> cases c <;> rfl

/-- The window of a legacy form: 66 and, behind a REX byte, 0F 38 and the opcode. -/
theorem windowBytes_legacyForm (c : Conv) (o : LegacyOps) :
    windowBytes (legacyForm c o) = [0x66#8, 0x0F#8, 0x38#8, c.op] := by
  have hrex : ∀ r : Byte, (prefixBytes o.adr67 o.seg ++ [0x66#8] ++ if o.rex then [r] else []).length =
      prefixLen o.adr67 o.seg + 1 + o.rex.toNat := by
    intro r
    cases o.rex <;> simp
  simp only [windowBytes, operands_legacyForm, encode_legacyForm, encodeLegacy]
  rw [List.append_assoc _ _ (o.src.bytes (low3 o.d)), List.drop_left' (hrex _), List.append_assoc, List.append_assoc,
    List.drop_left' (length_prefixBytes _ _)]
  rfl

/-- The window of a VEX form: C4 `V1` `V2` and the opcode. -/
theorem windowBytes_vexForm (l : Bool) (c : Conv) (o : VexOps) :
    windowBytes (vexForm l c o) = [0xC4#8, vexByte1 o.d o.src, vexByte2 l, c.op] := by
  simp only [windowBytes, operands_vexForm, encode_vexForm, encodeVex]
  rw [← length_prefixBytes, List.append_assoc, List.drop_left]
  rfl

/-- The window of an EVEX form: 62 `P0` `P1` `P2` and the opcode. -/
theorem windowBytes_evexForm (l : EvexLen) (c : Conv) (o : EvexOps) :
    windowBytes (evexForm l c o) = [0x62#8, evexByte0 o.d o.src, 0x7D#8, evexByte2 l o.aaa o.z, c.op] := by
  simp only [windowBytes, operands_evexForm, encode_evexForm, encodeEvex]
  rw [← length_prefixBytes, List.append_assoc, List.drop_left]
  rfl

/-- The bits of `V1` and `V2` that a VEX row compares: the map, `L` and `pp`. -/
theorem vexBytes_masked (l : Bool) (d : BitVec 4) (src : Src 4) :
    vexByte1 d src &&& 0x1F#8 = 0x02#8 ∧ vexByte2 l &&& 0x07#8 = if l then 0x05#8 else 0x01#8 := by
  unfold vexByte1
  generalize d.getLsbD 3 = r, src.xBit = x, src.bBit = b
  revert r x b l
  decide

/-- The bits of `P0` and `P2` that an EVEX row compares: the map and `LL`. -/
theorem evexBytes_masked (l : EvexLen) (d : BitVec 5) (src : Src 5) (aaa : BitVec 3) (z : Bool) :
    evexByte0 d src &&& 0x03#8 = 0x02#8 ∧
      evexByte2 l aaa z &&& 0x60#8 = match l with | .l128 => 0x00#8 | .l256 => 0x20#8 | .l512 => 0x40#8 := by
  constructor
  · unfold evexByte0
    generalize d.getLsbD 3 = r, src.xBit = x, src.bBit = b, d.getLsbD 4 = r'
    revert r x b r'
    decide
  · revert aaa z
    cases l <;> decide

/-- A form's window, masked by its own row byte by byte, is what the row says. -/
theorem windowBytes_masked (i : Instr) : List.zipWith (· &&& ·) (windowBytes i) (rowMask i) = rowMatch i := by
  have hop : ∀ c : Conv, c.op &&& 0xFF#8 = c.op := fun c => BitVec.and_allOnes
  obtain ⟨c, o, rfl⟩ | ⟨l, c, o, rfl⟩ | ⟨l, c, o, rfl⟩ := instr_cases i
  · simp [windowBytes_legacyForm, rowMask, rowMatch, hop]
  · obtain ⟨h1, h2⟩ := vexBytes_masked l o.d o.src
    simp only [windowBytes_vexForm, rowMask, rowMatch, operands_vexForm, convOf_vexForm, vlOf_vexForm, List.zipWith,
      hop, h1, h2]
    cases l <;> rfl
  · obtain ⟨h0, h2⟩ := evexBytes_masked l o.d o.src o.aaa o.z
    simp only [windowBytes_evexForm, rowMask, rowMatch, operands_evexForm, convOf_evexForm, vlOf_evexForm, List.zipWith,
      hop, h0, h2]
    cases l <;> rfl

/-- A window as long as a form's, and matched by its row byte by byte, is of a form of the same class: a legacy and a VEX row
differ in the first byte, and an EVEX window is longer. So the same bits are compared of both. -/
theorem rowMask_eq_of_match {i j : Instr} (hlen : (windowBytes i).length = (windowBytes j).length)
    (h : List.zipWith (· &&& ·) (windowBytes i) (rowMask j) = rowMatch j) : rowMask i = rowMask j := by
  obtain ⟨c, o, rfl⟩ | ⟨l, c, o, rfl⟩ | ⟨l, c, o, rfl⟩ := instr_cases i
  · obtain ⟨c', o', rfl⟩ | ⟨l', c', o', rfl⟩ | ⟨l', c', o', rfl⟩ := instr_cases j
    · simp only [rowMask, operands_legacyForm]
    · simp [windowBytes_legacyForm, rowMask, rowMatch] at h
    · simp [windowBytes_legacyForm, windowBytes_evexForm] at hlen
  · obtain ⟨c', o', rfl⟩ | ⟨l', c', o', rfl⟩ | ⟨l', c', o', rfl⟩ := instr_cases j
    · simp [windowBytes_vexForm, rowMask, rowMatch] at h
    · simp only [rowMask, operands_vexForm]
    · simp [windowBytes_vexForm, windowBytes_evexForm] at hlen
  · obtain ⟨c', o', rfl⟩ | ⟨l', c', o', rfl⟩ | ⟨l', c', o', rfl⟩ := instr_cases j
    · simp [windowBytes_legacyForm, windowBytes_evexForm] at hlen
    · simp [windowBytes_vexForm, windowBytes_evexForm] at hlen
    · simp only [rowMask, operands_evexForm]

/-- A form's window is as long as the rows of its class. -/
theorem length_windowBytes (i : Instr) : (windowBytes i).length = (rowMask i).length := by
  obtain ⟨c, o, rfl⟩ | ⟨l, c, o, rfl⟩ | ⟨l, c, o, rfl⟩ := instr_cases i
  · simp [windowBytes_legacyForm, rowMask]
  · simp [windowBytes_vexForm, rowMask]
  · simp [windowBytes_evexForm, rowMask]

/-- Masking a window by a row of its length, as numbers, is doing so byte by byte. -/
theorem window_matches_iff {i j : Instr} (hlen : (windowBytes i).length = (windowBytes j).length) :
    bigEndian (windowBytes i) &&& (windowOf j).2 = (windowOf j).1 ↔
      List.zipWith (· &&& ·) (windowBytes i) (rowMask j) = rowMatch j := by
  have hmask : (windowBytes i).length = (rowMask j).length := hlen.trans (length_windowBytes j)
  have hmatch : (rowMatch j).length = (rowMask j).length := by
    rw [← windowBytes_masked j, List.length_zipWith, length_windowBytes, Nat.min_self]
  rw [windowOf_eq, bigEndian_and hmask]
  refine ⟨bigEndian_inj ?_, congrArg bigEndian⟩
  rw [List.length_zipWith, hmask, Nat.min_self, hmatch]

/-- Settles O5: every form matches its own row, so where the same bits are compared the rows are the same. -/
theorem encodedFormMatchesItsTableRow : Obligations.EncodedFormMatchesItsTableRow := by
  refine ⟨fun i => (window_matches_iff rfl).mpr (windowBytes_masked i), fun i j hlen h => ?_⟩
  have hj := (window_matches_iff hlen).mp h
  have hmask := rowMask_eq_of_match hlen hj
  rw [windowOf_eq, windowOf_eq, ← windowBytes_masked i, hmask, hj]

/-! ## The prefixes noted, told by the bytes that stand there (rules R62, R81) -/

/-- LOCK, F2 or F3 is noted exactly where one of them stands. -/
theorem prefixesFrom_illegal_iff (pre : List Byte) :
    (prefixesFrom pre).illegal = true ↔ 0xF0#8 ∈ pre ∨ 0xF2#8 ∈ pre ∨ 0xF3#8 ∈ pre := by
  simp [Prefixes.illegal, prefixesFrom, List.count_eq_zero, or_assoc]

/-- 66 is noted exactly where it stands. -/
theorem prefixesFrom_n66_iff (pre : List Byte) : (prefixesFrom pre).n66 ≠ 0 ↔ 0x66#8 ∈ pre := by
  simp [prefixesFrom, List.count_eq_zero]

/-- 67 is noted exactly where it stands. -/
theorem prefixesFrom_adr67_iff (pre : List Byte) : (prefixesFrom pre).adr67 = true ↔ 0x67#8 ∈ pre := by
  simp [Prefixes.adr67, prefixesFrom, List.count_eq_zero]

/-- None of 66, F2 and F3 is noted exactly where none of them stands. -/
theorem prefixesFrom_no66_iff (pre : List Byte) :
    ((prefixesFrom pre).n66 = 0 ∧ (prefixesFrom pre).nF2 = 0 ∧ (prefixesFrom pre).nF3 = 0) ↔
      ¬ (0x66#8 ∈ pre ∨ 0xF2#8 ∈ pre ∨ 0xF3#8 ∈ pre) := by
  simp [prefixesFrom, List.count_eq_zero, not_or]

/-- A repetition is noted exactly where 66, 67 or the segment overrides stand more than once. -/
theorem prefixesFrom_repeated_iff (pre : List Byte) :
    (prefixesFrom pre).repeated = true ↔ 1 < pre.count 0x66#8 ∨ 1 < pre.count 0x67#8 ∨
      1 < (pre.filter fun b => (segOfPrefix b).isSome).length := by
  simp only [Prefixes.repeated, Bool.or_eq_true, decide_eq_true_eq, or_assoc]
  rw [prefixesFrom, List.length_filterMap_eq_countP, List.countP_eq_length_filter]

/-- The prefixes that rule R62 admits before C4 or 62 are legacy prefixes that are noted as a 67 and a segment override and
nothing else. -/
theorem admittedPrefixes_facts {pre : List Byte} (h : admittedPrefixes pre) :
    (∀ b ∈ pre, isLegacyPrefix b) ∧ (prefixesFrom pre).illegal = false ∧ (prefixesFrom pre).n66 = 0 ∧
      (prefixesFrom pre).repeated = false := by
  obtain ⟨a, g, rfl | rfl⟩ := h
  · obtain ⟨hp, h66⟩ := notesOnly_prefixBytes a g
    exact ⟨fun _ => isLegacyPrefix_of_prefixBytes, hp.illegal, h66, hp.repeated⟩
  · refine ⟨fun b hb => isLegacyPrefix_of_prefixBytes (List.mem_reverse.mp hb), ?_⟩
    cases a <;> rcases g with _ | _ | _ | _ | _ | _ | _ <;> exact ⟨rfl, rfl, rfl⟩

/-! ## The step, by what a class answers behind the prefixes -/

section Fetched

variable {s : State} {pre rex bs rest : List Byte} {b : Byte}

/-- The program bytes at the program counter, decoded from the first byte of a class on. -/
theorem decode_fetched (hpre : ∀ b ∈ pre, isLegacyPrefix b) (hrex : optionalRex s.params.mode rex)
    (hb : b ∈ [0x0F#8, 0xC4#8, 0x62#8]) (hf : s.fetchBytes = pre ++ rex ++ (b :: bs) ++ rest) :
    decode s.params.mode s.fetchBytes =
      decodeClass s.params.mode (prefixesFrom pre) rex.head? (b :: (bs ++ rest)) := by
  rw [hf, List.append_assoc, List.cons_append, decode_classByte hpre hrex hb]

/-- Where the class answers #UD, the step raises it. -/
theorem step_of_decodeClass_ud (hpre : ∀ b ∈ pre, isLegacyPrefix b) (hrex : optionalRex s.params.mode rex)
    (hb : b ∈ [0x0F#8, 0xC4#8, 0x62#8]) (hf : s.fetchBytes = pre ++ rex ++ (b :: bs) ++ rest)
    (h : decodeClass s.params.mode (prefixesFrom pre) rex.head? (b :: (bs ++ rest)) = .ud) : step s = .fault .ud :=
  step_of_decode_ud ((decode_fetched hpre hrex hb hf).trans h)

/-- Where the class refuses the bytes, and not as too few, the step refuses them for the same reason. -/
theorem step_of_decodeClass_reject (hpre : ∀ b ∈ pre, isLegacyPrefix b) (hrex : optionalRex s.params.mode rex)
    (hb : b ∈ [0x0F#8, 0xC4#8, 0x62#8]) (hf : s.fetchBytes = pre ++ rex ++ (b :: bs) ++ rest) {r : Reject}
    (hr : r ≠ .truncated)
    (h : decodeClass s.params.mode (prefixesFrom pre) rex.head? (b :: (bs ++ rest)) = .reject r) :
    step s = .refused (.undecoded r) := by
  have hd := (decode_fetched hpre hrex hb hf).trans h
  exact step_of_decode_reject (progRemaining_ne_zero_of_decode (by rw [hd]; simpa using hr)) hd

end Fetched

/-! ## The legacy class, check by check (rules R62, R74, R81, R85) -/

section Legacy

variable {m : Mode} {p : Prefixes} {op : Byte} (hop : 0x30#8 ≤ op ∧ op ≤ 0x35#8) (rex : Option Byte) (bs : List Byte)
include hop

/-- Without 66, F2 and F3 the bytes are another opcode's. -/
theorem decodeLegacy_no66 (h : p.n66 = 0 ∧ p.nF2 = 0 ∧ p.nF3 = 0) :
    decodeLegacy m p rex (0x38#8 :: op :: bs) = .reject .no66 := by
  obtain ⟨c, hc⟩ := (exists_ofOp_iff op).mpr hop
  simp [decodeLegacy, hc, h]

/-- LOCK, F2 or F3 raises #UD. -/
theorem decodeLegacy_illegal (h66 : ¬ (p.n66 = 0 ∧ p.nF2 = 0 ∧ p.nF3 = 0)) (hill : p.illegal = true) :
    decodeLegacy m p rex (0x38#8 :: op :: bs) = .ud := by
  obtain ⟨c, hc⟩ := (exists_ofOp_iff op).mpr hop
  simp only [decodeLegacy, hc, h66, hill, ne_eq, not_true_eq_false, if_false, if_true]

/-- Repeated prefixes are refused. -/
theorem decodeLegacy_repeated (h66 : p.n66 ≠ 0) (hill : p.illegal = false) (hrep : p.repeated = true) :
    decodeLegacy m p rex (0x38#8 :: op :: bs) = .reject .prefixes := by
  obtain ⟨c, hc⟩ := (exists_ofOp_iff op).mpr hop
  simp [decodeLegacy, hc, h66, hill, hrep]

/-- 67 is refused in `Prot32`. -/
theorem decodeLegacy_addr16 (h66 : p.n66 ≠ 0) (hill : p.illegal = false) (hrep : p.repeated = false)
    (h67 : p.adr67 = true) : decodeLegacy .prot32 p rex (0x38#8 :: op :: bs) = .reject .addr16 := by
  obtain ⟨c, hc⟩ := (exists_ofOp_iff op).mpr hop
  simp [decodeLegacy, hc, h66, hill, hrep, h67]

end Legacy

/-! ## The VEX class, check by check (rules R64, R74, R81, R82, R85) -/

section Vex

variable {m : Mode} {p : Prefixes} {rex : Option Byte} {v1 v2 op : Byte} (bs : List Byte)

/-- 66, F2, F3, LOCK or REX raises #UD. -/
theorem decodeVex_illegal (hid : vexIdentified m v1 v2 op) (hill : p.illegal = true ∨ p.n66 ≠ 0 ∨ rex.isSome = true) :
    decodeVex m p rex (v1 :: v2 :: op :: bs) = .ud := by
  obtain ⟨hpre, hmap, c, hc⟩ := vexIdentified_iff_checks.mp hid
  simp only [decodeVex, hpre, hmap, hc, hill, if_true, if_false, Bool.false_eq_true]

/-- Repeated prefixes are refused. -/
theorem decodeVex_repeated (hid : vexIdentified m v1 v2 op) (hill : p.illegal = false) (h66 : p.n66 = 0)
    (hrep : p.repeated = true) : decodeVex m p none (v1 :: v2 :: op :: bs) = .reject .prefixes := by
  obtain ⟨hpre, hmap, c, hc⟩ := vexIdentified_iff_checks.mp hid
  simp [decodeVex, hpre, hmap, hc, hill, h66, hrep]

/-- `Bbar` = 0 is refused in `Prot32`. -/
theorem decodeVex_extensionBit (hid : vexIdentified .prot32 v1 v2 op) (hill : p.illegal = false) (h66 : p.n66 = 0)
    (hrep : p.repeated = false) (hvvvv : v2.extractLsb' 3 4 = 15#4) (h5 : v1.getLsbD 5 = false) :
    decodeVex .prot32 p none (v1 :: v2 :: op :: bs) = .reject .extensionBit := by
  obtain ⟨hpre, hmap, c, hc⟩ := vexIdentified_iff_checks.mp hid
  simp [-BitVec.getLsbD_eq_getElem, decodeVex, hpre, hmap, hc, hill, h66, hrep, hvvvv, h5]

/-- Otherwise 67 is refused in `Prot32`. -/
theorem decodeVex_addr16 (hid : vexIdentified .prot32 v1 v2 op) (hill : p.illegal = false) (h66 : p.n66 = 0)
    (hrep : p.repeated = false) (hvvvv : v2.extractLsb' 3 4 = 15#4) (h5 : v1.getLsbD 5 ≠ false) (h67 : p.adr67 = true) :
    decodeVex .prot32 p none (v1 :: v2 :: op :: bs) = .reject .addr16 := by
  obtain ⟨hpre, hmap, c, hc⟩ := vexIdentified_iff_checks.mp hid
  simp [-BitVec.getLsbD_eq_getElem, decodeVex, hpre, hmap, hc, hill, h66, hrep, hvvvv, h5, h67]

end Vex

/-! ## The EVEX class, check by check (rules R66, R74, R80 to R82, R85) -/

section Evex

variable {m : Mode} {p : Prefixes} {rex : Option Byte} {p0 p1 p2 op : Byte} (bs : List Byte)

/-- 66, F2, F3, LOCK or REX raises #UD. -/
theorem decodeEvex_illegal (hid : evexIdentified m p0 p1 op) (hill : p.illegal = true ∨ p.n66 ≠ 0 ∨ rex.isSome = true) :
    decodeEvex m p rex (p0 :: p1 :: p2 :: op :: bs) = .ud := by
  obtain ⟨hpre, hmap, c, hc⟩ := evexIdentified_iff_checks.mp hid
  simp only [decodeEvex, hpre, hmap, hc, hill, if_true, if_false, Bool.false_eq_true]

/-- Repeated prefixes are refused. -/
theorem decodeEvex_repeated (hid : evexIdentified m p0 p1 op) (hill : p.illegal = false) (h66 : p.n66 = 0)
    (hrep : p.repeated = true) : decodeEvex m p none (p0 :: p1 :: p2 :: op :: bs) = .reject .prefixes := by
  obtain ⟨hpre, hmap, c, hc⟩ := evexIdentified_iff_checks.mp hid
  simp [decodeEvex, hpre, hmap, hc, hill, h66, hrep]

/-- Opcode 35 is the one conversion on which W is checked. -/
theorem eq_dq_iff {c : Conv} (hc : Conv.ofOp op = some c) : (c == .dq) = true ↔ op = 0x35#8 := by
  rw [op_of_ofOp hc]
  cases c <;> decide

/-- The vector length 11b, and only that, is none. -/
theorem ofLL_eq_none_iff (ll : BitVec 2) : EvexLen.ofLL ll = none ↔ ll = 3#2 := by
  revert ll
  decide

/-- The decoder's checks of the bits that have a fixed value are those of rule R80: (a) `vvvv`, and (b) to (g). -/
theorem evexReserved_iff {c : Conv} (hc : Conv.ofOp op = some c) :
    (evexReserved m c p0 p1 p2 = true ∨ EvexLen.ofLL (p2.extractLsb' 5 2) = none) ↔
      p1.extractLsb' 3 4 ≠ 15#4 ∨ evexReservedWrong m p0 p1 p2 op := by
  rw [ofLL_eq_none_iff]
  simp only [evexReserved, evexReservedWrong, Bool.or_eq_true, Bool.and_eq_true, bne_iff_ne, Bool.not_eq_true', beq_iff_eq,
    ← eq_dq_iff hc]
  tauto

/-- A reserved bit that is wrong raises #UD. -/
theorem decodeEvex_reserved (hid : evexIdentified m p0 p1 op) (hill : p.illegal = false) (h66 : p.n66 = 0)
    (hrep : p.repeated = false) (h : evexReservedWrong m p0 p1 p2 op) :
    decodeEvex m p none (p0 :: p1 :: p2 :: op :: bs) = .ud := by
  obtain ⟨hpre, hmap, c, hc⟩ := evexIdentified_iff_checks.mp hid
  obtain hres | hll := (evexReserved_iff hc).mpr (.inr h)
  · simp [decodeEvex, hpre, hmap, hc, hill, h66, hrep, hres]
  · simp [decodeEvex, hpre, hmap, hc, hill, h66, hrep, hll]

/-- With every reserved bit right, the checks of `Prot32` come next: `Bbar`, `Rpbar` or `Vpbar` = 0 is refused. -/
theorem decodeEvex_extensionBit (hid : evexIdentified .prot32 p0 p1 op) (hill : p.illegal = false) (h66 : p.n66 = 0)
    (hrep : p.repeated = false) (hvvvv : p1.extractLsb' 3 4 = 15#4) (hres : ¬ evexReservedWrong .prot32 p0 p1 p2 op)
    (hext : evexExtended p0 p2 = true) :
    decodeEvex .prot32 p none (p0 :: p1 :: p2 :: op :: bs) = .reject .extensionBit := by
  obtain ⟨hpre, hmap, c, hc⟩ := evexIdentified_iff_checks.mp hid
  obtain ⟨hr, hl⟩ := not_or.mp (mt (evexReserved_iff hc).mp (not_or.mpr ⟨not_not.mpr hvvvv, hres⟩))
  obtain ⟨l, hl⟩ := Option.ne_none_iff_exists'.mp hl
  simp [decodeEvex, hpre, hmap, hc, hill, h66, hrep, hr, hl, hext]

/-- Otherwise 67 is refused in `Prot32`. -/
theorem decodeEvex_addr16 (hid : evexIdentified .prot32 p0 p1 op) (hill : p.illegal = false) (h66 : p.n66 = 0)
    (hrep : p.repeated = false) (hvvvv : p1.extractLsb' 3 4 = 15#4) (hres : ¬ evexReservedWrong .prot32 p0 p1 p2 op)
    (hext : ¬ evexExtended p0 p2 = true) (h67 : p.adr67 = true) :
    decodeEvex .prot32 p none (p0 :: p1 :: p2 :: op :: bs) = .reject .addr16 := by
  obtain ⟨hpre, hmap, c, hc⟩ := evexIdentified_iff_checks.mp hid
  obtain ⟨hr, hl⟩ := not_or.mp (mt (evexReserved_iff hc).mp (not_or.mpr ⟨not_not.mpr hvvvv, hres⟩))
  obtain ⟨l, hl⟩ := Option.ne_none_iff_exists'.mp hl
  simp [decodeEvex, hpre, hmap, hc, hill, h66, hrep, hr, hl, hext, h67]

end Evex

/-! ## Reserved bits, illegal and repeated prefixes, and what `Prot32` refuses -/

/-- Settles O8: behind admitted prefixes the reserved bits are the next check. -/
theorem evexReservedBitsRaiseInvalidOpcode : Obligations.EvexReservedBitsRaiseInvalidOpcode := by
  intro s pre rest p0 p1 p2 op hadm hid hwrong hf
  obtain ⟨hpre, hill, h66, hrep⟩ := admittedPrefixes_facts hadm
  rw [← List.append_nil pre] at hf
  exact step_of_decodeClass_ud hpre (.inl rfl) (by simp) hf (decodeEvex_reserved _ hid hill h66 hrep hwrong)

/-- What must not stand before VEX or EVEX, as the decoder notes it. -/
theorem illegal_before_vex {pre rex : List Byte}
    (h : 0x66#8 ∈ pre ∨ 0xF2#8 ∈ pre ∨ 0xF3#8 ∈ pre ∨ 0xF0#8 ∈ pre ∨ rex ≠ []) :
    (prefixesFrom pre).illegal = true ∨ (prefixesFrom pre).n66 ≠ 0 ∨ rex.head?.isSome = true := by
  rw [prefixesFrom_illegal_iff, prefixesFrom_n66_iff, List.isSome_head?]
  tauto

/-- Settles O9, class by class. -/
theorem illegalPrefixesRaiseInvalidOpcode : Obligations.IllegalPrefixesRaiseInvalidOpcode := by
  refine ⟨?legacy, ?vex, ?evex⟩
  case legacy =>
    intro s pre rex rest op hpre hrex hlo hhi hf
    split
    next h66 =>
      have h66' := mt (prefixesFrom_no66_iff pre).mp (not_not.mpr h66)
      intro hill
      exact step_of_decodeClass_ud hpre hrex (by simp) hf
        (decodeLegacy_illegal ⟨hlo, hhi⟩ _ _ h66' ((prefixesFrom_illegal_iff pre).mpr hill))
    next h66 =>
      exact step_of_decodeClass_reject hpre hrex (by simp) hf nofun
        (decodeLegacy_no66 ⟨hlo, hhi⟩ _ _ ((prefixesFrom_no66_iff pre).mpr h66))
  case vex =>
    intro s pre rex rest v1 v2 op hpre hrex hid hill hf
    exact step_of_decodeClass_ud hpre hrex (by simp) hf (decodeVex_illegal _ hid (illegal_before_vex hill))
  case evex =>
    intro s pre rex rest p0 p1 p2 op hpre hrex hid hill hf
    exact step_of_decodeClass_ud hpre hrex (by simp) hf (decodeEvex_illegal _ hid (illegal_before_vex hill))

/-- Without LOCK, F2 and F3 nothing illegal is noted. -/
theorem prefixesFrom_not_illegal {pre : List Byte} (hF0 : 0xF0#8 ∉ pre) (hF2 : 0xF2#8 ∉ pre) (hF3 : 0xF3#8 ∉ pre) :
    (prefixesFrom pre).illegal = false := by
  rw [← Bool.not_eq_true, prefixesFrom_illegal_iff]
  simp [hF0, hF2, hF3]

/-- Settles O10: the repetition is the first check that fails; a byte of no class behind REX is no form's. -/
theorem unlistedPrefixArrangementsRefused : Obligations.UnlistedPrefixArrangementsRefused := by
  refine ⟨?legacy, ?vex, ?evex, ?rex⟩
  case legacy =>
    intro s pre rex rest op hpre hF0 hF2 hF3 h66 hrex hrep hlo hhi hf
    exact step_of_decodeClass_reject hpre hrex (by simp) hf nofun
      (decodeLegacy_repeated ⟨hlo, hhi⟩ _ _ ((prefixesFrom_n66_iff pre).mpr h66) (prefixesFrom_not_illegal hF0 hF2 hF3)
        ((prefixesFrom_repeated_iff pre).mpr hrep))
  case vex =>
    intro s pre rest v1 v2 op hpre hF0 hF2 hF3 h66 hrep hid hf
    rw [← List.append_nil pre] at hf
    exact step_of_decodeClass_reject hpre (.inl rfl) (by simp) hf nofun
      (decodeVex_repeated _ hid (prefixesFrom_not_illegal hF0 hF2 hF3)
        (not_not.mp (mt (prefixesFrom_n66_iff pre).mp h66)) ((prefixesFrom_repeated_iff pre).mpr (.inr hrep)))
  case evex =>
    intro s pre rest p0 p1 p2 op hpre hF0 hF2 hF3 h66 hrep hid hf
    rw [← List.append_nil pre] at hf
    exact step_of_decodeClass_reject hpre (.inl rfl) (by simp) hf nofun
      (decodeEvex_repeated _ hid (prefixesFrom_not_illegal hF0 hF2 hF3)
        (not_not.mp (mt (prefixesFrom_n66_iff pre).mp h66)) ((prefixesFrom_repeated_iff pre).mpr (.inr hrep)))
  case rex =>
    intro s pre rest r b hpre hm hr h0F hC4 h62 hf
    obtain ⟨hnoClass, _⟩ := bytesOfNoFormAreRefused
    exact hnoClass s pre [r] rest b hpre (.inr ⟨hm, r, hr, rfl⟩) (.inl (by simp)) h0F hC4 h62 (by simpa using hf)

/-- A byte 40 to 4F is not among the legacy prefixes and begins no class. -/
theorem rexByte_begins_nothing {r : Byte} (h : r.extractLsb' 4 4 = 4#4) :
    ¬ isLegacyPrefix r ∧ r ≠ 0x0F#8 ∧ r ≠ 0xC4#8 ∧ r ≠ 0x62#8 := by
  unfold isLegacyPrefix
  revert r
  decide

/-- `Bbar`, `Rpbar` and `Vpbar`, one of them 0. -/
theorem evexExtended_iff (p0 p2 : Byte) :
    evexExtended p0 p2 = true ↔ p0.getLsbD 5 = false ∨ p0.getLsbD 4 = false ∨ p2.getLsbD 3 = false := by
  simp only [evexExtended, Bool.or_eq_true, Bool.not_eq_true', or_assoc]

/-- Settles O11: bytes of no form by `bytesOfNoFormAreRefused`, the others by their class's last checks. -/
theorem protectedModeEncodingsRefused : Obligations.ProtectedModeEncodingsRefused := by
  obtain ⟨hnoClass, _, hnoVex, hnoEvex⟩ := bytesOfNoFormAreRefused
  refine ⟨?noPrefix, ?vex, ?evex, ?legacy, ?rex⟩
  case noPrefix =>
    intro s pre rest n x y z hm hpre hn hf
    obtain hf | hf := hf
    · exact hnoVex s pre [] rest n x y hpre (.inl rfl) (fun hid => hn (hid.1 hm)) (by simpa using hf)
    · exact hnoEvex s pre [] rest n x y z hpre (.inl rfl) (fun hid => hn (hid.1 hm)) (by simpa using hf)
  case vex =>
    intro s pre rest v1 v2 op hm hadm hid hvvvv hf
    obtain ⟨hpre, hill, h66, hrep⟩ := admittedPrefixes_facts hadm
    rw [← List.append_nil pre] at hf
    split
    next h5 =>
      refine step_of_decodeClass_reject hpre (.inl rfl) (by simp) hf nofun ?_
      rw [hm]
      exact decodeVex_extensionBit _ hid hill h66 hrep hvvvv h5
    next h5 =>
      intro h67
      refine step_of_decodeClass_reject hpre (.inl rfl) (by simp) hf nofun ?_
      rw [hm]
      exact decodeVex_addr16 _ hid hill h66 hrep hvvvv h5 ((prefixesFrom_adr67_iff pre).mpr h67)
  case evex =>
    intro s pre rest p0 p1 p2 op hm hadm hid hvvvv hres hf
    obtain ⟨hpre, hill, h66, hrep⟩ := admittedPrefixes_facts hadm
    rw [← List.append_nil pre] at hf
    split
    next hext =>
      refine step_of_decodeClass_reject hpre (.inl rfl) (by simp) hf nofun ?_
      rw [hm]
      exact decodeEvex_extensionBit _ hid hill h66 hrep hvvvv hres ((evexExtended_iff p0 p2).mpr hext)
    next hext =>
      intro h67
      refine step_of_decodeClass_reject hpre (.inl rfl) (by simp) hf nofun ?_
      rw [hm]
      exact decodeEvex_addr16 _ hid hill h66 hrep hvvvv hres (mt (evexExtended_iff p0 p2).mp hext)
        ((prefixesFrom_adr67_iff pre).mpr h67)
  case legacy =>
    intro s pre rest op hm hpre h66 h67 hF0 hF2 hF3 hseg hlo hhi hf
    have h66' : (prefixesFrom pre).n66 ≠ 0 := by simp [prefixesFrom, h66]
    have h67' : (prefixesFrom pre).adr67 = true := by simp [Prefixes.adr67, prefixesFrom, h67]
    have hrep : (prefixesFrom pre).repeated = false := by
      rw [← Bool.not_eq_true, prefixesFrom_repeated_iff]
      omega
    rw [← List.append_nil pre] at hf
    refine step_of_decodeClass_reject hpre (.inl rfl) (by simp) hf nofun ?_
    rw [hm]
    exact decodeLegacy_addr16 ⟨hlo, hhi⟩ _ _ h66' (prefixesFrom_not_illegal hF0 hF2 hF3) hrep h67'
  case rex =>
    intro s pre rest r hm hpre hr hf
    obtain ⟨hnot, h0F, hC4, h62⟩ := rexByte_begins_nothing hr
    exact hnoClass s pre [] rest r hpre (.inl rfl) (.inr ⟨hnot, by simp [hm]⟩) h0F hC4 h62 (by simpa using hf)

/-! ## Bits that are ignored (rules R63, R68, R70, R80, last paragraph) -/

/-- Bytes that their class reads alike are decoded alike behind the same prefixes. -/
theorem decode_congr {m : Mode} {pre : List Byte} (hpre : ∀ b ∈ pre, isLegacyPrefix b) {b : Byte}
    (hb : b ∈ [0x0F#8, 0xC4#8, 0x62#8]) {bs bs' rest : List Byte}
    (h : ∀ p, decodeClass m p none (b :: (bs ++ rest)) = decodeClass m p none (b :: (bs' ++ rest))) :
    decode m (pre ++ (b :: bs) ++ rest) = decode m (pre ++ (b :: bs') ++ rest) := by
  have hd : ∀ bs, decode m (pre ++ (b :: bs) ++ rest) = decodeClass m (prefixesFrom pre) none (b :: (bs ++ rest)) := by
    intro bs
    rw [List.append_assoc, ← List.append_nil pre, List.cons_append, decode_classByte hpre (.inl rfl) hb, List.append_nil]
    rfl
  rw [hd, hd, h]

/-- Two REX bytes that the class behind them reads alike are decoded alike. -/
theorem decode_congr_rex {pre : List Byte} (hpre : ∀ b ∈ pre, isLegacyPrefix b) {r r' : Byte}
    (hr : r.extractLsb' 4 4 = 4#4) (hr' : r'.extractLsb' 4 4 = 4#4) {bs rest : List Byte}
    (h : ∀ p, decodeClass .long64 p (some r') (bs ++ rest) = decodeClass .long64 p (some r) (bs ++ rest)) :
    decode .long64 (pre ++ (r' :: bs) ++ rest) = decode .long64 (pre ++ (r :: bs) ++ rest) := by
  rw [List.append_assoc, List.append_assoc, List.cons_append, List.cons_append, decode_append_rex hpre hr',
    decode_append_rex hpre hr, h]

/-- Bit 7 of a byte is in none of the fields below it. -/
theorem flip_bit7_fields (b : Byte) : (b ^^^ 0x80#8).extractLsb' 0 2 = b.extractLsb' 0 2 ∧
    (b ^^^ 0x80#8).extractLsb' 3 4 = b.extractLsb' 3 4 ∧ (b ^^^ 0x80#8).getLsbD 2 = b.getLsbD 2 := by
  revert b
  decide

/-- The VEX class does not read W (rule R68). -/
theorem decodeVex_flip_w (m : Mode) (p : Prefixes) (rex : Option Byte) (v1 v2 op : Byte) (bs : List Byte) :
    decodeVex m p rex (v1 :: (v2 ^^^ 0x80#8) :: op :: bs) = decodeVex m p rex (v1 :: v2 :: op :: bs) := by
  obtain ⟨hpp, hvvvv, hL⟩ := flip_bit7_fields v2
  simp only [decodeVex, hpp, hvvvv, hL]

/-- The EVEX class reads W on opcode 35 only (rules R68, R80 (g)). -/
theorem decodeEvex_flip_w {op : Byte} (hop : op ≠ 0x35#8) (m : Mode) (p : Prefixes) (rex : Option Byte) (p0 p1 p2 : Byte)
    (bs : List Byte) :
    decodeEvex m p rex (p0 :: (p1 ^^^ 0x80#8) :: p2 :: op :: bs) = decodeEvex m p rex (p0 :: p1 :: p2 :: op :: bs) := by
  obtain ⟨hpp, hvvvv, h2⟩ := flip_bit7_fields p1
  cases hc : Conv.ofOp op with
  | none => simp only [decodeEvex, hpp, hc]
  | some c =>
    have hdq : (c == .dq) = false := Bool.not_eq_true _ ▸ mt (eq_dq_iff hc).mp hop
    simp only [decodeEvex, evexReserved, hpp, hvvvv, h2, hc, hdq, Bool.false_and]

/-- Settles O12: the decoder reads W in one place. -/
theorem wBitIsIgnoredSaveOnEvexOpcode35 : Obligations.WBitIsIgnoredSaveOnEvexOpcode35 := by
  refine ⟨?vex, ?evex, ?ud⟩
  case vex =>
    intro m pre rest v1 v2 op hpre
    exact decode_congr hpre (by simp) fun p => decodeVex_flip_w m p none v1 v2 op rest
  case evex =>
    intro m pre rest p0 p1 p2 op hpre hop
    exact decode_congr hpre (by simp) fun p => decodeEvex_flip_w hop m p none p0 p1 p2 rest
  case ud =>
    intro s pre rest p0 p1 p2 hadm hid hw hf
    have hwrong : evexReservedWrong s.params.mode p0 p1 p2 0x35#8 := by
      simp [-BitVec.getLsbD_eq_getElem, evexReservedWrong, hw]
    exact evexReservedBitsRaiseInvalidOpcode s pre rest p0 p1 p2 _ hadm hid hwrong hf

/-- REX.W is none of R, X and B. -/
theorem flip_rexW_fields (r : Byte) : (r ^^^ 0x08#8).extractLsb' 4 4 = r.extractLsb' 4 4 ∧
    (r ^^^ 0x08#8).getLsbD 0 = r.getLsbD 0 ∧ (r ^^^ 0x08#8).getLsbD 1 = r.getLsbD 1 ∧
    (r ^^^ 0x08#8).getLsbD 2 = r.getLsbD 2 := by
  revert r
  decide

/-- REX.X is neither R nor B. -/
theorem flip_rexX_fields (r : Byte) : (r ^^^ 0x02#8).extractLsb' 4 4 = r.extractLsb' 4 4 ∧
    (r ^^^ 0x02#8).getLsbD 0 = r.getLsbD 0 ∧ (r ^^^ 0x02#8).getLsbD 2 = r.getLsbD 2 := by
  revert r
  decide

/-- X of VEX and EVEX, bit 6, is none of the other fields of its byte. -/
theorem flip_bit6_fields (b : Byte) : (b ^^^ 0x40#8).extractLsb' 0 5 = b.extractLsb' 0 5 ∧
    (b ^^^ 0x40#8).extractLsb' 0 2 = b.extractLsb' 0 2 ∧ (b ^^^ 0x40#8).extractLsb' 2 2 = b.extractLsb' 2 2 ∧
    (b ^^^ 0x40#8).getLsbD 4 = b.getLsbD 4 ∧ (b ^^^ 0x40#8).getLsbD 5 = b.getLsbD 5 ∧
    (b ^^^ 0x40#8).getLsbD 7 = b.getLsbD 7 := by
  revert b
  decide

/-- Without a SIB byte a memory operand does not read X (rule R70). -/
theorem decodeMem_noSib {rm : BitVec 3} (h : rm ≠ 4#3) (x x' b : Bool) (md : BitVec 2) (bs : List Byte) :
    decodeMem x b md rm bs = decodeMem x' b md rm bs := by
  simp only [decodeMem, if_neg h]

/-- A register source, or memory without a SIB byte, does not read X, but for what it adds to a register's number. -/
theorem decodeRM_noSib {n : Nat} {modrm : Byte} (h : modrm.extractLsb' 6 2 = 3#2 ∨ modrm.extractLsb' 0 3 ≠ 4#3)
    {wide wide' : BitVec 3 → BitVec n} (hwide : modrm.extractLsb' 6 2 = 3#2 → wide = wide') (x x' b : Bool) (bs : List Byte) :
    decodeRM x b wide (modrm :: bs) = decodeRM x' b wide' (modrm :: bs) := by
  by_cases hreg : modrm.extractLsb' 6 2 = 3#2
  · simp only [decodeRM, hreg, hwide hreg, if_true]
  · simp only [decodeRM, hreg, if_false, decodeMem_noSib (h.resolve_left hreg) x x']

/-- The legacy class does not read REX.W. -/
theorem decodeLegacy_flip_w (m : Mode) (p : Prefixes) (r : Byte) (bs : List Byte) :
    decodeLegacy m p (some (r ^^^ 0x08#8)) bs = decodeLegacy m p (some r) bs := by
  obtain ⟨_, h0, h1, h2⟩ := flip_rexW_fields r
  simp only [decodeLegacy, Option.getD_some, Option.isSome_some, h0, h1, h2]

/-- Without a SIB byte the legacy class does not read REX.X. -/
theorem decodeLegacy_flip_x {modrm : Byte} (h : modrm.extractLsb' 6 2 = 3#2 ∨ modrm.extractLsb' 0 3 ≠ 4#3) (m : Mode)
    (p : Prefixes) (r e op : Byte) (bs : List Byte) :
    decodeLegacy m p (some (r ^^^ 0x02#8)) (e :: op :: modrm :: bs) =
      decodeLegacy m p (some r) (e :: op :: modrm :: bs) := by
  obtain ⟨_, h0, h2⟩ := flip_rexX_fields r
  simp only [decodeLegacy, Option.getD_some, Option.isSome_some, h0, h2]
  rw [decodeRM_noSib h (fun _ => rfl) ((r ^^^ 0x02#8).getLsbD 1) (r.getLsbD 1)]

/-- Without a SIB byte the VEX class does not read X in `Long64`. -/
theorem decodeVex_flip_x {modrm : Byte} (h : modrm.extractLsb' 6 2 = 3#2 ∨ modrm.extractLsb' 0 3 ≠ 4#3)
    (p : Prefixes) (rex : Option Byte) (v1 v2 op : Byte) (bs : List Byte) :
    decodeVex .long64 p rex ((v1 ^^^ 0x40#8) :: v2 :: op :: modrm :: bs) =
      decodeVex .long64 p rex (v1 :: v2 :: op :: modrm :: bs) := by
  obtain ⟨hmap, _, _, _, h5, h7⟩ := flip_bit6_fields v1
  have hmode : ∀ b, notPrefixByte .long64 b = false := fun _ => rfl
  simp only [decodeVex, hmode, hmap, h5, h7]
  rw [decodeRM_noSib h (fun _ => rfl) (!(v1 ^^^ 0x40#8).getLsbD 6) (!v1.getLsbD 6)]

/-- With memory and without a SIB byte the EVEX class does not read X in `Long64`. -/
theorem decodeEvex_flip_x {modrm : Byte} (hmem : modrm.extractLsb' 6 2 ≠ 3#2) (h : modrm.extractLsb' 0 3 ≠ 4#3)
    (p : Prefixes) (rex : Option Byte) (p0 p1 p2 op : Byte) (bs : List Byte) :
    decodeEvex .long64 p rex ((p0 ^^^ 0x40#8) :: p1 :: p2 :: op :: modrm :: bs) =
      decodeEvex .long64 p rex (p0 :: p1 :: p2 :: op :: modrm :: bs) := by
  obtain ⟨_, hmap, hzero, h4, h5, h7⟩ := flip_bit6_fields p0
  have hmode : ∀ b, notPrefixByte .long64 b = false := fun _ => rfl
  have hres : ∀ c, evexReserved .long64 c (p0 ^^^ 0x40#8) p1 p2 = evexReserved .long64 c p0 p1 p2 := fun c => by
    simp only [evexReserved, hzero]
  have hext : evexExtended (p0 ^^^ 0x40#8) p2 = evexExtended p0 p2 := by simp only [evexExtended, h4, h5]
  simp only [decodeEvex, hmode, hmap, hres, hext, h4, h5, h7]
  rw [decodeRM_noSib (.inr h) (wide' := fun rm => BitVec.ofBool (!p0.getLsbD 6) ++ regNo (!p0.getLsbD 5) rm)
    (fun hreg => absurd hreg hmem) (!(p0 ^^^ 0x40#8).getLsbD 6) (!p0.getLsbD 6)]

/-- Settles O13, class by class. -/
theorem ignoredBitsDecodeAlike : Obligations.IgnoredBitsDecodeAlike := by
  refine ⟨?rexW, ?rexX, ?vexX, ?evexX⟩
  case rexW =>
    intro pre rest r op hpre hr
    have hr' : (r ^^^ 0x08#8).extractLsb' 4 4 = 4#4 := by rw [(flip_rexW_fields r).1, hr]
    exact decode_congr_rex hpre hr hr' fun p => decodeLegacy_flip_w .long64 p r (0x38#8 :: op :: rest)
  case rexX =>
    intro pre rest r op modrm hpre hr h
    have hr' : (r ^^^ 0x02#8).extractLsb' 4 4 = 4#4 := by rw [(flip_rexX_fields r).1, hr]
    exact decode_congr_rex hpre hr hr' fun p => decodeLegacy_flip_x h .long64 p r 0x38#8 op rest
  case vexX =>
    intro pre rest v1 v2 op modrm hpre h
    exact decode_congr hpre (by simp) fun p => decodeVex_flip_x h p none v1 v2 op rest
  case evexX =>
    intro pre rest p0 p1 p2 op modrm hpre hmem h
    exact decode_congr hpre (by simp) fun p => decodeEvex_flip_x hmem h p none p0 p1 p2 op rest

/-! ## Effective addresses as numbers (rules R71 to R76) -/

/-- A word's number modulo 2^64 for the integer it is made of. -/
theorem toNat_ofInt_modEq (i : Int) : ((BitVec.ofInt 64 i).toNat : Int) ≡ i [ZMOD 2 ^ 64] := by
  rw [BitVec.toNat_ofInt, Int.toNat_of_nonneg (Int.emod_nonneg _ (by decide))]
  exact Int.mod_modEq _ _

/-- The sum of two words is that of their numbers, modulo 2^64. -/
theorem toNat_add_modEq {a b : Word} {i j : Int} (ha : (a.toNat : Int) ≡ i [ZMOD 2 ^ 64])
    (hb : (b.toNat : Int) ≡ j [ZMOD 2 ^ 64]) : ((a + b).toNat : Int) ≡ i + j [ZMOD 2 ^ 64] := by
  rw [BitVec.toNat_add]
  push_cast
  exact (Int.mod_modEq _ _).trans (ha.add hb)

/-- The product of two words is that of their numbers, modulo 2^64. -/
theorem toNat_mul_modEq {a b : Word} {i j : Int} (ha : (a.toNat : Int) ≡ i [ZMOD 2 ^ 64])
    (hb : (b.toNat : Int) ≡ j [ZMOD 2 ^ 64]) : ((a * b).toNat : Int) ≡ i * j [ZMOD 2 ^ 64] := by
  rw [BitVec.toNat_mul]
  push_cast
  exact (Int.mod_modEq _ _).trans (ha.mul hb)

/-- A word of a number is that number, modulo 2^64. -/
theorem toNat_ofNat_modEq (n : Nat) : ((BitVec.ofNat 64 n).toNat : Int) ≡ n [ZMOD 2 ^ 64] := by
  rw [BitVec.toNat_ofNat]
  push_cast
  exact Int.mod_modEq _ _

/-- A displacement adds its signed value, a one-byte one in units of `n` (rule R75). -/
theorem dispValue_modEq (n : Nat) (d : Disp) : ((dispValue n d).toNat : Int) ≡ signedDisp n d [ZMOD 2 ^ 64] := by
  cases d with
  | none => rfl
  | d8 b => exact toNat_mul_modEq (toNat_ofInt_modEq b.toInt) (toNat_ofNat_modEq n)
  | d32 w => exact toNat_ofInt_modEq w.toInt

/-- An index part adds the register's number times the scale (rules R71, R72). -/
theorem indexPart_modEq (s : State) (a : Bool) (ss : BitVec 2) (i : Option (BitVec 4)) :
    ((s.indexPart a ss i).toNat : Int) ≡ indexValue (fun r => (s.gpr a r).toNat) ss i [ZMOD 2 ^ 64] := by
  cases i with
  | none => rfl
  | some r =>
    rw [State.indexPart, BitVec.toNat_shiftLeft, Nat.shiftLeft_eq]
    exact Int.natCast_modEq_iff.mpr (Nat.mod_modEq _ _)

/-- The sum of an address as an integer, registers read by `read`; `origin` is what an operand without base and index is
relative to (rules R72, R73, R76). -/
def addrNumber (read : BitVec 4 → Nat) (origin : Int) (n : Nat) : MemOp → Int
  | .base b d => read b + signedDisp n d
  | .rip d => origin + d.toInt
  | .sib b i ss d => read b + indexValue read ss i + signedDisp n d
  | .sibNoBase i ss d => indexValue read ss i + d.toInt

/-- The machine's sum is that integer, modulo 2^64. -/
theorem addrSum_modEq (s : State) (a : Bool) (len n : Nat) (m : MemOp) :
    ((s.addrSum a len n m).toNat : Int) ≡ addrNumber (fun r => (s.gpr a r).toNat)
      (if s.params.mode = .long64 then (s.rip.toNat : Int) + len else 0) n m [ZMOD 2 ^ 64] := by
  cases m with
  | base b d => exact toNat_add_modEq (.refl _) (dispValue_modEq n d)
  | rip d =>
    cases hm : s.params.mode with
    | long64 =>
      simp only [State.addrSum, addrNumber, hm, if_true]
      exact toNat_add_modEq (toNat_add_modEq (.refl _) (toNat_ofNat_modEq len)) (toNat_ofInt_modEq d.toInt)
    | prot32 =>
      simp only [State.addrSum, addrNumber, hm, reduceCtorEq, if_false, zero_add]
      exact toNat_ofInt_modEq d.toInt
  | sib b i ss d => exact toNat_add_modEq (toNat_add_modEq (.refl _) (indexPart_modEq s a ss i)) (dispValue_modEq n d)
  | sibNoBase i ss d => exact toNat_add_modEq (indexPart_modEq s a ss i) (toNat_ofInt_modEq d.toInt)

/-- With 32-bit addressing a register is read as its low 32 bits (rule R73). -/
theorem gpr_true_toNat (s : State) (r : BitVec 4) : (s.gpr true r).toNat = (s.x.get r.toFin).toNat % 2 ^ 32 := by
  simp only [State.gpr, if_true, BitVec.toNat_setWidth]
  omega

/-- The effective address with 64-bit addressing. -/
theorem effAddr_toNat_64 {s : State} (hm : s.params.mode = .long64) (len n : Nat) (m : MemOp) :
    ((s.effAddr false len n m).toNat : Int) =
      addrNumber (fun r => (s.x.get r.toFin).toNat) ((s.rip.toNat : Int) + len) n m % 2 ^ 64 := by
  have hsum := addrSum_modEq s false len n m
  have hlt := (s.addrSum false len n m).isLt
  rw [if_pos hm] at hsum
  rw [State.effAddr, State.adr32, hm]
  exact (Int.emod_eq_of_lt (by omega) (by exact_mod_cast hlt)).symm.trans hsum

/-- The effective address with 32-bit addressing. -/
theorem effAddr_toNat_32 {s : State} {a : Bool} (h : s.adr32 a = true) (len n : Nat) (m : MemOp) :
    ((s.effAddr a len n m).toNat : Int) = addrNumber (fun r => (s.x.get r.toFin).toNat % 2 ^ 32)
      (if s.params.mode = .long64 then (s.rip.toNat : Int) + len else 0) n m % 2 ^ 32 := by
  have hsum := (addrSum_modEq s true len n m).of_dvd (show (2 ^ 32 : Int) ∣ 2 ^ 64 by decide)
  have hcut : (s.effAddr a len n m).toNat = (s.addrSum true len n m).toNat % 2 ^ 32 := by
    rw [State.effAddr, if_pos h, BitVec.toNat_setWidth, BitVec.toNat_setWidth]
    omega
  simp only [gpr_true_toNat] at hsum
  rw [hcut]
  push_cast
  exact hsum

/-- Settles O43, operand shape by operand shape. -/
theorem effectiveAddressIn64BitMode : Obligations.EffectiveAddressIn64BitMode := by
  intro s len n m hm
  rw [effAddr_toNat_64 hm]
  cases m <;> rfl

/-- Settles O44, operand shape by operand shape. -/
theorem effectiveAddressWith32Bits : Obligations.EffectiveAddressWith32Bits := by
  intro s a len n m h
  have h32 : s.adr32 a = true := by simpa [State.adr32] using h
  rw [effAddr_toNat_32 h32]
  cases m <;> rfl

/-! ## The default segment (rules R40, R71, R77) -/

/-- A base register is number 4 or 5 exactly when its extension bit is 0 and its field is 4 or 5. -/
theorem regNo_stack_iff (b : Bool) (f : BitVec 3) :
    (regNo b f = 4#4 ∨ regNo b f = 5#4) ↔ b = false ∧ (f = 4#3 ∨ f = 5#3) := by
  revert b f
  decide

/-- Settles O52: by the kind of memory operand, and by the segment for the linear address of `Prot32`. -/
theorem defaultSegmentIsStackForStackBases : Obligations.DefaultSegmentIsStackForStackBases := by
  refine ⟨?default, fun _ _ => rfl, ?linear⟩
  case default =>
    intro x b md rm bs m h
    obtain ⟨sib, rest, w, rfl, rfl, ⟨h5, rfl⟩, _, rfl⟩ | ⟨sib, rest, d, rfl, rfl, h5, _, rfl⟩ | ⟨w, ⟨rfl, rfl⟩, _, rfl⟩ |
      ⟨d, h4, h5, _, rfl⟩ := decodeMem_some h
    · simp [segOf, defaultSeg, h5]
    · simp only [segOf, defaultSeg, regNo_stack_iff, Option.getD_none, List.headD_cons]
      have hne : (4#3 : BitVec 3) ≠ 5#3 := by decide
      exact if_congr (by tauto) rfl rfl
    · simp [segOf, defaultSeg]
    · simp only [segOf, defaultSeg, regNo_stack_iff, Option.getD_none]
      exact if_congr (by tauto) rfl rfl
  case linear =>
    intro s a g len n m hm
    rw [State.memAddr, linear_toNat, hm]
    cases hsg : segOf g m <;> simp [State.segBaseOf, hm, modulusOf]

/-! ## Forms with the same parts (rules R75, R84) -/

/-- Two forms read the same source, write the same result to the same register, and are enabled alike. -/
structure SameParts (i j : Instr) (s : State) : Prop where
  enabled : enabledFor i s = enabledFor j s
  source : formSource i s = formSource j s
  dest : destOf i = destOf j
  result : formResult i s = formResult j s

/-- Where one of them completes so does the other, with a state that is equal but for the program counter and its mark. -/
theorem SameParts.next {i j : Instr} {s t : State} (h : SameParts i j s) (ht : exec i s = .next t) :
    ∃ u, exec j s = .next u ∧ u = { t with rip := u.rip, wrapped := u.wrapped } := by
  obtain ⟨hen, hts, v, hv, rfl⟩ := exec_next ht
  rw [h.enabled] at hen
  rw [h.source] at hv
  refine ⟨_, by rw [exec_eq, hen]; exact runForm_ok hts hv _ _ _, ?_⟩
  rw [h.dest, h.result]
  rfl

/-- Each raises the faults that the other raises. -/
theorem SameParts.fault {i j : Instr} {s : State} (h : SameParts i j s) (f : Fault) :
    exec i s = .fault f ↔ exec j s = .fault f := by
  rw [exec_eq, exec_eq, h.enabled, h.source]
  simp only [State.runForm]
  split
  · split
    · rfl
    split
    · rfl
    · simp
  · rfl

/-- In a state that enables both, forms that read and write the same have the same effect. -/
theorem sameEffect_of_parts {i j : Instr} {s : State} (hsource : formSource i s = formSource j s)
    (hdest : destOf i = destOf j) (hresult : formResult i s = formResult j s) : SameEffect i j s := by
  intro hi hj
  have h : SameParts i j s := ⟨hi.trans hj.symm, hsource, hdest, hresult⟩
  refine ⟨fun hts hread => ?_, h.fault⟩
  obtain ⟨t, ht⟩ := (formsCompleteExactlyWhenAllowed i s).1.mpr ⟨hi, hts, hread⟩
  obtain ⟨u, hu, heq⟩ := h.next ht
  exact ⟨t, u, ht, hu, heq⟩

/-! ### The source, by what it is read from -/

/-- Forms whose memory operands name the same bytes of the same segment read the same source, or raise the same memory
fault. -/
theorem formSource_mem_congr {i j : Instr} {s : State} {mi mj : MemOp} (hi : srcOf i = .mem mi) (hj : srcOf j = .mem mj)
    (hseg : segOf (overrideOf i) mi = segOf (overrideOf j) mj) (haddr : addrOf i s mi = addrOf j s mj)
    (hbytes : nbytesOf i = nbytesOf j) (hneed : formNeed i s = formNeed j s) : formSource i s = formSource j s := by
  cases hf : s.memFault (segOf (overrideOf i) mi) (addrOf i s mi) (nbytesOf i) (formNeed i s) with
  | some f =>
    have hfj := hf
    rw [hseg, haddr, hbytes, hneed] at hfj
    exact ((formSource_error_iff i s f).mpr ⟨mi, hi, hf⟩).trans ((formSource_error_iff j s f).mpr ⟨mj, hj, hfj⟩).symm
  | none =>
    have hfj := hf
    rw [hseg, haddr, hbytes, hneed] at hfj
    rw [formSource, formSource, hi, hj]
    calc s.source _ _ _ _ _ _ _ = .ok (s.memRead (addrOf i s mi) (nbytesOf i)) := source_mem_ok hf
      _ = .ok (s.memRead (addrOf j s mj) (nbytesOf j)) := by rw [haddr, hbytes]
      _ = _ := (source_mem_ok hfj).symm

/-- Forms with the same register source read the same, as many bytes as they both take. -/
theorem formSource_reg_congr {i j : Instr} {s : State} {r : BitVec 5} (hi : srcOf i = .reg r) (hj : srcOf j = .reg r)
    (hbytes : nbytesOf i = nbytesOf j) : formSource i s = formSource j s := by
  rw [formSource_reg hi, formSource_reg hj, hbytes]

/-! ## The VEX and EVEX encodings of one spelling (rules R84, R103, R104) -/

/-- Without an opmask every element is written. -/
theorem active_unmasked (s : State) : s.active 0#3 = fun _ => true := rfl

/-- Without an opmask every byte of the operand must be admitted. -/
theorem formNeed_unmasked {i : Instr} {o : EvexOps} (ho : i.operands = .evex o) (haaa : o.aaa = 0#3) (s : State) :
    formNeed i s = List.range (nbytesOf i) := by
  simp only [formNeed, ho, haaa, State.evexNeed, active_unmasked, List.filter_true, ite_self]
  rfl

/-- Without an opmask an EVEX form writes the widened elements, with zeros above the vector length. -/
theorem formResult_unmasked {i : Instr} {o : EvexOps} (ho : i.operands = .evex o) (haaa : o.aaa = 0#3) (s : State) (v : Vec) :
    formResult i s v = pzx (srcWidth (convOf i)) (dstWidth (convOf i)) (klOf i) v := by
  obtain ⟨_, _, hpos, hlt, hle, _⟩ := form_numbers i
  simp only [formResult, ho, haaa, active_unmasked]
  exact evexWriteBack_unmasked (sh := formShape i) (Nat.lt_trans hpos hlt) hle o.z _ v _

section Spelling

variable (l : Bool) (c : Conv) (a : Bool) (g : Option Seg) (d : BitVec 4) (s : State)

/-- The VEX and the EVEX form of one spelling have the same vector length. -/
theorem vlOf_evexLenOf (o : VexOps) (o' : EvexOps) : vlOf (vexForm l c o) = vlOf (evexForm (evexLenOf l) c o') := by
  cases l <;> simp [evexLenOf]

/-- They read as many bytes. -/
theorem nbytesOf_evexLenOf (o : VexOps) (o' : EvexOps) :
    nbytesOf (vexForm l c o) = nbytesOf (evexForm (evexLenOf l) c o') := by
  simp only [nbytesOf, klOf, convOf_vexForm, convOf_evexForm, vlOf_evexLenOf l c o o']

/-- They write the same. -/
theorem formResult_evexLenOf (o : VexOps) {o' : EvexOps} (haaa : o'.aaa = 0#3) :
    formResult (vexForm l c o) s = formResult (evexForm (evexLenOf l) c o') s := by
  funext v
  rw [formResult_unmasked (operands_evexForm _ _ _) haaa]
  simp only [formResult, operands_vexForm, klOf, convOf_vexForm, convOf_evexForm, vlOf_evexLenOf l c o o']

/-- They have the same effect where they read the same source. -/
theorem sameEffect_evexLenOf {src : Src 4} {src' : Src 5}
    (h : formSource (vexForm l c ⟨a, g, d, src⟩) s =
      formSource (evexForm (evexLenOf l) c ⟨a, g, d.setWidth 5, src', 0#3, false⟩) s) :
    SameEffect (vexForm l c ⟨a, g, d, src⟩) (evexForm (evexLenOf l) c ⟨a, g, d.setWidth 5, src', 0#3, false⟩) s :=
  sameEffect_of_parts h (by rw [destOf_vexForm, destOf_evexForm]) (formResult_evexLenOf l c s _ rfl)

/-- They do from memory at the same address, through the same segment. -/
theorem sameEffect_evexLenOf_mem {mv me : MemOp}
    (haddr : addrOf (vexForm l c ⟨a, g, d, .mem mv⟩) s mv =
      addrOf (evexForm (evexLenOf l) c ⟨a, g, d.setWidth 5, .mem me, 0#3, false⟩) s me)
    (hseg : segOf g mv = segOf g me) :
    SameEffect (vexForm l c ⟨a, g, d, .mem mv⟩)
      (evexForm (evexLenOf l) c ⟨a, g, d.setWidth 5, .mem me, 0#3, false⟩) s := by
  have hbytes := nbytesOf_evexLenOf l c ⟨a, g, d, .mem mv⟩ ⟨a, g, d.setWidth 5, .mem me, 0#3, false⟩
  refine sameEffect_evexLenOf l c a g d s
    (formSource_mem_congr (srcOf_vexForm _ _ _) (srcOf_evexForm _ _ _) ?_ haddr hbytes ?_)
  · simpa only [overrideOf, operands_vexForm, operands_evexForm] using hseg
  · rw [formNeed_unmasked (operands_evexForm _ _ _) rfl, ← hbytes]
    simp only [formNeed, operands_vexForm]

end Spelling

/-- A plain address depends neither on the instruction's length nor on the displacement scale (rules R75, R76). -/
theorem addrSum_plain {m : MemOp} (h : addressIsPlain m = true) (s : State) (a : Bool) (len len' n n' : Nat) :
    s.addrSum a len n m = s.addrSum a len' n' m := by
  cases m with
  | base b d =>
    cases d with
    | none => rfl
    | d8 k => cases h
    | d32 w => rfl
  | rip d => cases h
  | sib b i ss d =>
    cases d with
    | none => rfl
    | d8 k => cases h
    | d32 w => rfl
  | sibNoBase i ss d => rfl

/-- Settles O39: register sources are the same register, memory sources the same bytes. -/
theorem vexAndEvexEncodingsAgree : Obligations.VexAndEvexEncodingsAgree := by
  intro l c a g d s
  refine ⟨?reg, fun mv me haddr hseg => sameEffect_evexLenOf_mem l c a g d s haddr hseg, ?plain⟩
  case reg =>
    intro r
    exact sameEffect_evexLenOf l c a g d s
      (formSource_reg_congr (srcOf_vexForm _ _ _) (srcOf_evexForm _ _ _) (nbytesOf_evexLenOf l c _ _))
  case plain =>
    intro m hm
    refine sameEffect_evexLenOf_mem l c a g d s ?_ rfl
    simp only [addrOf, State.memAddr, State.effAddr, adr67Of, overrideOf, operands_vexForm, operands_evexForm]
    rw [addrSum_plain hm, addrSum_plain hm s false]

/-! ## One-byte displacements (rule R75) -/

/-- A one-byte displacement in units of `n` bytes is the four-byte displacement of that many bytes. -/
theorem dispValue_d8 {n : Nat} (hn : n ≤ 64) (k : Byte) (n' : Nat) :
    dispValue n (.d8 k) = dispValue n' (.d32 (BitVec.ofInt 32 (k.toInt * n))) := by
  have hlo : -128 ≤ k.toInt := k.le_toInt
  have hhi : k.toInt < 128 := k.toInt_lt
  have hn' : (n : Int) ≤ 64 := by exact_mod_cast hn
  have hn0 : (0 : Int) ≤ n := Int.natCast_nonneg n
  have hmin : -8192 ≤ k.toInt * n := by nlinarith
  have hmax : k.toInt * n ≤ 8192 := by nlinarith
  have hself : (BitVec.ofInt 32 (k.toInt * n)).toInt = k.toInt * n :=
    BitVec.toInt_ofInt_eq_self (by decide) (by omega) (by omega)
  rw [dispValue, dispValue, BitVec.signExtend, BitVec.signExtend, hself, BitVec.ofInt_mul, BitVec.ofInt_natCast]

/-- What a one-byte displacement counts is at most 32 bytes. -/
theorem dispScaleOf_le (i : Instr) : dispScaleOf i ≤ 32 := by
  have := vlOf_cases i
  unfold dispScaleOf
  cases i.operands with
  | legacy o => exact Nat.le_add_left 1 31
  | vex o => exact Nat.le_add_left 1 31
  | evex o => cases convOf i <;> simp only <;> omega

/-- So it names the same address, with a base register and with a SIB byte, whatever the lengths of the two forms. -/
theorem addrOf_d8 {i j : Instr} (s : State) (hadr : adr67Of i = adr67Of j) (hover : overrideOf i = overrideOf j)
    (b : BitVec 4) {k : Byte} {w : BitVec 32} (hw : w = BitVec.ofInt 32 (k.toInt * dispScaleOf i)) :
    addrOf i s (.base b (.d8 k)) = addrOf j s (.base b (.d32 w)) ∧
      ∀ x ss, addrOf i s (.sib b x ss (.d8 k)) = addrOf j s (.sib b x ss (.d32 w)) := by
  have hle := dispScaleOf_le i
  have hdisp := dispValue_d8 (Nat.le_trans hle (by decide)) k (dispScaleOf j)
  subst hw
  simp only [addrOf, State.memAddr, State.effAddr, State.addrSum, hadr, hover, hdisp]
  exact ⟨rfl, fun _ _ => rfl⟩

/-- In the EVEX class a one-byte displacement counts memory operands (rules R75, R83). -/
theorem dispScaleOf_evexForm (l : EvexLen) (c : Conv) (o o' : EvexOps) :
    dispScaleOf (evexForm l c o) = nbytesOf (evexForm l c o') := by
  simp only [dispScaleOf, nbytesOf, klOf, operands_evexForm, convOf_evexForm, vlOf_evexForm]
  cases l <;> cases c <;> rfl

@[simp] theorem vlOf_legacyForm (c : Conv) (o : LegacyOps) : vlOf (legacyForm c o) = 128 := by
  cases c <;> rfl

section Displacement

variable (s : State) (m m' : MemOp)

/-- Legacy forms that differ in a memory operand that names the same address have the same parts. -/
theorem sameParts_legacyForm (c : Conv) (o : LegacyOps) (hseg : segOf o.seg m = segOf o.seg m')
    (haddr : addrOf (legacyForm c { o with src := .mem m }) s m = addrOf (legacyForm c { o with src := .mem m' }) s m') :
    SameParts (legacyForm c { o with src := .mem m }) (legacyForm c { o with src := .mem m' }) s where
  enabled := by simp only [enabledFor, operands_legacyForm]
  source := formSource_mem_congr (srcOf_legacyForm _ _) (srcOf_legacyForm _ _)
    (by simpa only [overrideOf, operands_legacyForm] using hseg) haddr
    (by simp only [nbytesOf, klOf, convOf_legacyForm, vlOf_legacyForm])
    (by simp only [formNeed, operands_legacyForm, nbytesOf, klOf, convOf_legacyForm, vlOf_legacyForm])
  dest := by simp only [destOf_legacyForm]
  result := by
    funext v
    simp only [formResult, operands_legacyForm, destOf_legacyForm, klOf, convOf_legacyForm, vlOf_legacyForm]

/-- The same for VEX forms. -/
theorem sameParts_vexForm (l : Bool) (c : Conv) (o : VexOps) (hseg : segOf o.seg m = segOf o.seg m')
    (haddr : addrOf (vexForm l c { o with src := .mem m }) s m = addrOf (vexForm l c { o with src := .mem m' }) s m') :
    SameParts (vexForm l c { o with src := .mem m }) (vexForm l c { o with src := .mem m' }) s where
  enabled := by simp only [enabledFor, operands_vexForm, vlOf_vexForm]
  source := formSource_mem_congr (srcOf_vexForm _ _ _) (srcOf_vexForm _ _ _)
    (by simpa only [overrideOf, operands_vexForm] using hseg) haddr
    (by simp only [nbytesOf, klOf, convOf_vexForm, vlOf_vexForm])
    (by simp only [formNeed, operands_vexForm, nbytesOf, klOf, convOf_vexForm, vlOf_vexForm])
  dest := by simp only [destOf_vexForm]
  result := by
    funext v
    simp only [formResult, operands_vexForm, klOf, convOf_vexForm, vlOf_vexForm]

/-- The same for EVEX forms. -/
theorem sameParts_evexForm (l : EvexLen) (c : Conv) (o : EvexOps) (hseg : segOf o.seg m = segOf o.seg m')
    (haddr : addrOf (evexForm l c { o with src := .mem m }) s m = addrOf (evexForm l c { o with src := .mem m' }) s m') :
    SameParts (evexForm l c { o with src := .mem m }) (evexForm l c { o with src := .mem m' }) s where
  enabled := by simp only [enabledFor, operands_evexForm, convOf_evexForm, vlOf_evexForm]
  source := formSource_mem_congr (srcOf_evexForm _ _ _) (srcOf_evexForm _ _ _)
    (by simpa only [overrideOf, operands_evexForm] using hseg) haddr
    (by simp only [nbytesOf, klOf, convOf_evexForm, vlOf_evexForm])
    (by simp only [formNeed, formShape, operands_evexForm, klOf, convOf_evexForm, vlOf_evexForm])
  dest := by simp only [destOf_evexForm]
  result := by
    funext v
    simp only [formResult, formShape, operands_evexForm, destOf_evexForm, klOf, convOf_evexForm, vlOf_evexForm]

end Displacement

/-- Where a form completes, one with the same parts leaves the same vector registers. -/
theorem SameParts.next_zmm {i j : Instr} {s t : State} (h : SameParts i j s) (ht : exec i s = .next t) :
    ∃ u, exec j s = .next u ∧ u.zmm = t.zmm := by
  obtain ⟨u, hu, heq⟩ := h.next ht
  exact ⟨u, hu, by rw [heq]⟩

/-- Settles O46: the four-byte displacement names the same address. -/
theorem oneByteDisplacementIsScaled : Obligations.OneByteDisplacementIsScaled := by
  refine ⟨?legacy, ?vex, ?evexBase, ?evexSib⟩
  case legacy =>
    intro c o s t b k
    refine SameParts.next_zmm (sameParts_legacyForm s _ _ c o rfl ?_)
    refine (addrOf_d8 s ?_ ?_ b ?_).1
    · simp only [adr67Of, operands_legacyForm]
    · simp only [overrideOf, operands_legacyForm]
    · simp [dispScaleOf]
  case vex =>
    intro l c o s t b k
    refine SameParts.next_zmm (sameParts_vexForm s _ _ l c o rfl ?_)
    refine (addrOf_d8 s ?_ ?_ b ?_).1
    · simp only [adr67Of, operands_vexForm]
    · simp only [overrideOf, operands_vexForm]
    · simp [dispScaleOf]
  case evexBase =>
    intro l c o s t b k
    refine SameParts.next_zmm (sameParts_evexForm s _ _ l c o rfl ?_)
    refine (addrOf_d8 s ?_ ?_ b ?_).1
    · simp only [adr67Of, operands_evexForm]
    · simp only [overrideOf, operands_evexForm]
    · rw [dispScaleOf_evexForm l c _ o]
  case evexSib =>
    intro l c o s t b x ss k
    refine SameParts.next_zmm (sameParts_evexForm s _ _ l c o rfl ?_)
    refine (addrOf_d8 s ?_ ?_ b ?_).2 x ss
    · simp only [adr67Of, operands_evexForm]
    · simp only [overrideOf, operands_evexForm]
    · rw [dispScaleOf_evexForm l c _ o]

end Sys2Proof.Machine
end

section
/-! PROOFS. The family spec/40_packed_zero_extend_common.md: packed zero extension element by element, what every completed
form leaves, which bytes of a register source matter, and that the source may be the destination.

Packed zero extension comes first, then one statement about every form, of which the three classes are cases. -/

namespace Sys2Proof.Machine

/-! ## Packed zero extension (rules R100, R108) -/

section Pzx

variable {sw dw kl j : Nat} (s : Vec)

/-- Bit `b` of destination element `j` is bit `b` of source element `j` where there is one, else 0. -/
theorem pzx_getLsbD_elem (hsw : sw ≤ 64) (hfit : kl * dw ≤ 512) (hj : j < kl) {b : Nat} (hb : b < dw) :
    (pzx sw dw kl s).getLsbD (j * dw + b) = (decide (b < sw) && s.getLsbD (j * sw + b)) := by
  have hdw : 0 < dw := by omega
  have hdiv : (j * dw + b) / dw = j := by rw [Nat.mul_comm, Nat.mul_add_div hdw, Nat.div_eq_of_lt hb, Nat.add_zero]
  have hmod : (j * dw + b) % dw = b := by rw [Nat.mul_comm, Nat.mul_add_mod, Nat.mod_eq_of_lt hb]
  have hin : j * dw + b < 512 := by
    have hle : (j + 1) * dw ≤ kl * dw := Nat.mul_le_mul_right dw hj
    rw [Nat.succ_mul] at hle
    omega
  rw [pzx_getLsbD hsw hdw, hdiv, hmod]
  simp [hin, hj]

/-- Destination element `j` is source element `j` widened with zeros. -/
theorem pzx_extractLsb'_elem (hsw : sw ≤ 64) (hfit : kl * dw ≤ 512) (hj : j < kl) :
    (pzx sw dw kl s).extractLsb' (j * dw) dw = (s.extractLsb' (j * sw) sw).setWidth dw := by
  apply BitVec.eq_of_getLsbD_eq
  intro b hb
  rw [BitVec.getLsbD_extractLsb', pzx_getLsbD_elem s hsw hfit hj hb]
  simp [hb]

/-- Its low bits are the source element. -/
theorem pzx_extractLsb'_low (hlt : sw < dw) (hsw : sw ≤ 64) (hfit : kl * dw ≤ 512) (hj : j < kl) :
    (pzx sw dw kl s).extractLsb' (j * dw) sw = s.extractLsb' (j * sw) sw := by
  apply BitVec.eq_of_getLsbD_eq
  intro b hb
  rw [BitVec.getLsbD_extractLsb', pzx_getLsbD_elem s hsw hfit hj (hb.trans hlt)]
  simp [hb]

/-- Its other bits are 0. -/
theorem pzx_extractLsb'_high (hsw : sw ≤ 64) (hfit : kl * dw ≤ 512) (hj : j < kl) :
    (pzx sw dw kl s).extractLsb' (j * dw + sw) (dw - sw) = 0#(dw - sw) := by
  apply BitVec.eq_of_getLsbD_eq
  intro b hb
  rw [BitVec.getLsbD_extractLsb', Nat.add_assoc, pzx_getLsbD_elem s hsw hfit hj (by omega)]
  simp

/-- As unsigned numbers the two elements are equal. -/
theorem pzx_elem_toNat (hlt : sw < dw) (hsw : sw ≤ 64) (hfit : kl * dw ≤ 512) (hj : j < kl) :
    ((pzx sw dw kl s).extractLsb' (j * dw) dw).toNat = (s.extractLsb' (j * sw) sw).toNat := by
  rw [pzx_extractLsb'_elem s hsw hfit hj, BitVec.toNat_setWidth_of_le hlt.le]

/-- There is nothing above the last element. -/
theorem pzx_toNat_lt (hdw : 0 < dw) : (pzx sw dw kl s).toNat < 2 ^ (kl * dw) :=
  Nat.lt_pow_two_of_testBit _ fun _ hb => packElems_above hdw _ hb

end Pzx

/-- A source element's width fits in 64 bits. -/
theorem srcWidth_le_of_mem {sw : Nat} (h : sw ∈ [8, 16, 32]) : sw ≤ 64 := by
  simp only [List.mem_cons, List.not_mem_nil, or_false] at h
  omega

/-- Settles O40, bit by bit. -/
theorem packedZeroExtensionWidensEachElement : Obligations.PackedZeroExtensionWidensEachElement := by
  intro sw dw kl s hsw _ hlt hfit
  have hsw := srcWidth_le_of_mem hsw
  exact ⟨fun j hj => ⟨pzx_extractLsb'_elem s hsw hfit hj, pzx_extractLsb'_low s hlt hsw hfit hj,
    pzx_extractLsb'_high s hsw hfit hj⟩, pzx_toNat_lt s (by omega)⟩

/-- Settles O41: widening with zeros keeps the number. -/
theorem zeroExtensionKeepsUnsignedValue : Obligations.ZeroExtensionKeepsUnsignedValue :=
  fun _ _ _ s hsw _ hlt hfit _ hj => pzx_elem_toNat s hlt (srcWidth_le_of_mem hsw) hfit hj

/-! ## What a completed form leaves (rules R100 to R107) -/

/-- The mark that the program counter has wrapped, after an advance, in the terms of the claims (log entry 10). -/
theorem advance_wrapped_modulusOf (s : State) (n : Nat) :
    (s.advance n).wrapped = (s.wrapped || decide (modulusOf s.params.mode ≤ s.rip.toNat + n)) := by
  rw [advance_wrapped, modulusOf_eq_addressTop]

/-- A form that completes leaves what the rules say. -/
theorem completed_of_exec {i : Instr} {s t : State} (h : exec i s = .next t) : Completed i s t where
  dest n := by
    obtain ⟨hen, _, v, hv, rfl⟩ := exec_next h
    rw [advance_zmmRead, zmmRead_zmmWrite_self, formResult_byte hen hv]
  next := by
    obtain ⟨_, _, v, _, rfl⟩ := exec_next h
    exact nextRip_toNat_modulusOf s i.len
  wrap := by
    obtain ⟨_, _, v, _, rfl⟩ := exec_next h
    exact advance_wrapped_modulusOf s i.len
  frame := onlyWrites_of_exec h

/-- Every form completes when it may, and leaves what the rules say. -/
theorem completesAsStated (i : Instr) (s : State) : CompletesAsStated i s := by
  intro hen hts hread
  obtain ⟨t, ht⟩ := (formsCompleteExactlyWhenAllowed i s).1.mpr ⟨hen, hts, hread⟩
  exact ⟨t, ht, completed_of_exec ht⟩

/-- Settles O21: what holds of every form holds of the six legacy forms. -/
theorem legacyFormsComplete : Obligations.LegacyFormsComplete := by
  intro o s
  and_intros <;> exact completesAsStated _ s

/-- Settles O22: what holds of every form holds of the twelve VEX forms. -/
theorem vexFormsComplete : Obligations.VexFormsComplete := by
  intro o s
  and_intros <;> exact completesAsStated _ s

/-- Settles O23: what holds of every form holds of the eighteen EVEX forms. -/
theorem evexFormsComplete : Obligations.EvexFormsComplete := by
  intro o s
  and_intros <;> exact completesAsStated _ s

/-- Settles O33: the frame of a completed form, and the check that raised a form's fault. -/
theorem noFormWritesFlagsOrRaisesNumericException : Obligations.NoFormWritesFlagsOrRaisesNumericException := by
  refine ⟨fun i s t h => ?flags, fun i s f h => ?fault⟩
  case flags =>
    obtain ⟨hrest, _, _⟩ := onlyWrites_of_exec h
    rw [hrest]
    exact ⟨rfl, rfl⟩
  case fault =>
    obtain ⟨_, hud⟩ | ⟨_, _, hnm⟩ | ⟨_, _, hsrc⟩ := exec_fault_cases h
    · exact .inl hud
    · exact .inr (.inl hnm)
    · obtain ⟨_, _, hmem⟩ := (formSource_error_iff i s f).mp hsrc
      exact .inr (.inr (memFault_isMemory hmem))

/-! ## Which bytes of a register source matter (rule R101) -/

/-- The state with another value in the place of one vector register. -/
def State.withReg (s : State) (r : BitVec 5) (v : Vec) : State := { s with zmm := s.zmm.set r.toFin v }

/-- The place holds the value. -/
theorem withReg_get_self (s : State) (r : BitVec 5) (v : Vec) : (s.withReg r v).zmm.get r.toFin = v := by
  simp [State.withReg, Vector.get_eq_getElem]

/-- Every other place is as before. -/
theorem withReg_get_ne (s : State) {r d : BitVec 5} (v : Vec) (h : r ≠ d) :
    (s.withReg r v).zmm.get d.toFin = s.zmm.get d.toFin := by
  have hne : r.toNat ≠ d.toNat := fun e => h (BitVec.eq_of_toNat_eq e)
  simp [State.withReg, Vector.get_eq_getElem, Vector.getElem_set_ne, hne]

/-- Changing one place and completing a form with another destination commute. -/
theorem withReg_zmmWrite_advance (s : State) {r d : BitVec 5} (v w : Vec) (n : Nat) (h : r ≠ d) :
    ((s.withReg r v).zmmWrite d w).advance n = ((s.zmmWrite d w).advance n).withReg r v := by
  have hne : r.toNat ≠ d.toNat := fun e => h (BitVec.eq_of_toNat_eq e)
  have hcomm : (s.zmm.set r.toFin v).set d.toFin (lowBits s.maxvl w) =
      (s.zmm.set d.toFin (lowBits s.maxvl w)).set r.toFin v := Vector.set_comm _ _ hne
  exact congrArg (fun z => State.advance { s with zmm := z } n) hcomm

/-- Vectors that agree in their low `n` bytes have the same low `8 * n` bits. -/
theorem lowBits_eq_of_vecByte_eq {v w : Vec} {n : Nat} (h : ∀ k < n, vecByte v k = vecByte w k) :
    lowBits (8 * n) v = lowBits (8 * n) w := by
  apply BitVec.eq_of_getLsbD_eq
  intro b _
  rw [lowBits_getLsbD, lowBits_getLsbD]
  by_cases hb : b < 8 * n
  · have hbit := congrArg (·.getLsbD (b % 8)) (h (b / 8) (by omega))
    simp only [vecByte_getLsbD, Nat.div_add_mod, Nat.mod_lt b (show 8 > 0 by decide), decide_true, Bool.true_and] at hbit
    rw [hbit]
  · simp [hb]

/-- Cutting to two widths is the same in either order. -/
theorem lowBits_comm (m n : Nat) (v : Vec) : lowBits m (lowBits n v) = lowBits n (lowBits m v) := by
  apply BitVec.eq_of_getLsbD_eq
  intro b _
  simp only [lowBits_getLsbD, Bool.and_left_comm]

/-- A form's register source stays the same when its new value agrees with the old in the bytes read. -/
theorem formSource_withReg {i : Instr} {s : State} {r : BitVec 5} {v : Vec} (hr : srcOf i = .reg r)
    (h : ∀ n < nbytesOf i, vecByte v n = vecByte (s.zmm.get r.toFin) n) :
    formSource i (s.withReg r v) = formSource i s := by
  have hmaxvl : (s.withReg r v).maxvl = s.maxvl := rfl
  rw [formSource_reg hr, formSource_reg hr, State.zmmRead, State.zmmRead, withReg_get_self, hmaxvl, lowBits_comm,
    lowBits_eq_of_vecByte_eq h, lowBits_comm]

/-- The result of a form depends on no other vector register than its old destination (rules R102 to R104). -/
theorem formResult_withReg {i : Instr} {r : BitVec 5} (h : r ≠ destOf i) (s : State) (v : Vec) :
    formResult i (s.withReg r v) = formResult i s := by
  have hold : (s.withReg r v).zmmRead (destOf i) = s.zmmRead (destOf i) :=
    congrArg (lowBits s.maxvl) (withReg_get_ne s v h)
  have hactive : (s.withReg r v).active = s.active := rfl
  funext w
  simp only [formResult, hold, hactive]

/-- Settles O35: the source and the result do not see the change, and the two writes are of different registers. -/
theorem sourceBytesAboveOperandIgnored : Obligations.SourceBytesAboveOperandIgnored := by
  intro i s t r v hr hne hagree ht
  have hnext := (exec_of_unread (g := fun s => s.withReg r v) rfl rfl (formSource_withReg hr hagree)
    (formResult_withReg hne s v) fun w => withReg_zmmWrite_advance s v w i.len hne).1 t ht
  exact ⟨t.withReg r v, hnext, withReg_get_ne t v hne⟩

/-! ## One register as source and destination (rule R105) -/

/-- Operands of one class that, in the EVEX class, ask for the same masking. -/
inductive SameMasking : Operands → Operands → Prop where
  | legacy (o o' : LegacyOps) : SameMasking (.legacy o) (.legacy o')
  | vex (o o' : VexOps) : SameMasking (.vex o) (.vex o')
  | evex (o o' : EvexOps) (haaa : o.aaa = o'.aaa) (hz : o.z = o'.z) : SameMasking (.evex o) (.evex o')

/-- Forms of one row with the same destination and masking have the same parts where they read the same source. -/
theorem sameParts_of_source {i j : Instr} {s : State} (hconv : convOf i = convOf j) (hvl : vlOf i = vlOf j)
    (hdest : destOf i = destOf j) (hmask : SameMasking i.operands j.operands) (hsource : formSource i s = formSource j s) :
    SameParts i j s := by
  refine ⟨?enabled, hsource, hdest, funext fun v => ?result⟩ <;>
    generalize hi : i.operands = a, hj : j.operands = b at hmask
  case enabled => cases hmask <;> simp only [enabledFor, hi, hj, hconv, hvl]
  case result =>
    cases hmask with
    | legacy => simp only [formResult, klOf, hi, hj, hconv, hvl, hdest]
    | vex => simp only [formResult, klOf, hi, hj, hconv, hvl]
    | evex o o' haaa hz => simp only [formResult, formShape, klOf, hi, hj, hconv, hvl, hdest, haaa, hz]

/-- Where a form with a register source completes, the form of the same row, destination and masking whose source is a
register of the same value leaves the same vector registers. -/
theorem exec_reg_congr {i j : Instr} {s t : State} {r q : BitVec 5} (hconv : convOf i = convOf j) (hvl : vlOf i = vlOf j)
    (hdest : destOf i = destOf j) (hmask : SameMasking i.operands j.operands) (hi : srcOf i = .reg r)
    (hj : srcOf j = .reg q) (hval : s.zmm.get r.toFin = s.zmm.get q.toFin) (ht : exec i s = .next t) :
    ∃ u, exec j s = .next u ∧ u.zmm = t.zmm := by
  have hread : s.zmmRead r = s.zmmRead q := congrArg (lowBits s.maxvl) hval
  have hbytes : nbytesOf i = nbytesOf j := by rw [nbytesOf, nbytesOf, klOf, klOf, hconv, hvl]
  have hsource : formSource i s = formSource j s := by rw [formSource_reg hi, formSource_reg hj, hbytes, hread]
  exact (sameParts_of_source hconv hvl hdest hmask hsource).next_zmm ht

/-- Settles O38, class by class: the two forms differ in the number of the source register only. -/
theorem sameRegisterAsSourceAndDestination : Obligations.SameRegisterAsSourceAndDestination := by
  refine ⟨?legacy, ?vex, ?evex⟩
  case legacy =>
    intro c o s t r hval ht
    refine exec_reg_congr ?_ ?_ ?_ ?_ (srcOf_legacyForm _ _) (srcOf_legacyForm _ _) hval ht
    · simp only [convOf_legacyForm]
    · simp only [vlOf_legacyForm]
    · simp only [destOf_legacyForm]
    · simp only [operands_legacyForm]
      exact .legacy _ _
  case vex =>
    intro l c o s t r hval ht
    refine exec_reg_congr ?_ ?_ ?_ ?_ (srcOf_vexForm _ _ _) (srcOf_vexForm _ _ _) hval ht
    · simp only [convOf_vexForm]
    · simp only [vlOf_vexForm]
    · simp only [destOf_vexForm]
    · simp only [operands_vexForm]
      exact .vex _ _
  case evex =>
    intro l c o s t r hval ht
    refine exec_reg_congr ?_ ?_ ?_ ?_ (srcOf_evexForm _ _ _) (srcOf_evexForm _ _ _) hval ht
    · simp only [convOf_evexForm]
    · simp only [vlOf_evexForm]
    · simp only [destOf_evexForm]
    · simp only [operands_evexForm]
      exact .evex _ _ rfl rfl

/-! ## The step (rules R40, R109, R204) -/

/-- Byte `n` of what is fetched is memory's, `n` bytes above the program counter's linear address. -/
theorem fetchBytes_getElem? {s : State} {n : Nat} (h : n < s.progRemaining) :
    s.fetchBytes[n]? = some (s.mem.read (s.byteAddr (s.linear .cs s.rip) n)) := by
  rw [State.fetchBytes, List.getElem?_map, List.getElem?_range h]
  rfl

/-- The step executes the instruction that the fetched bytes decode to. -/
theorem step_of_decode_instr {s : State} {i : Instr} (h : decode s.params.mode s.fetchBytes = .instr i) :
    step s = exec i s := by
  have hp : s.progRemaining ≠ 0 := progRemaining_ne_zero_of_decode (by rw [h]; nofun)
  simp [step, hp, h]

/-- Settles O14: the step by its decoded instruction, and the fetched bytes one by one. -/
theorem stepRunsTheDecodedInstruction : Obligations.StepRunsTheDecodedInstruction :=
  ⟨fun _ _ => step_of_decode_instr, fun _ _ => fetchBytes_getElem?, length_fetchBytes⟩

end Sys2Proof.Machine
end

section
/-! PROOFS. The family spec/60_exceptions.md: a reserved `vvvv`, which check of rule R109 raises each fault, and what fault
suppression decides.

The decoder comes first, then one equivalence per check, then what must be admitted of a memory source. -/

namespace Sys2Proof.Machine

/-! ## Reserved `vvvv` (rules R80 (a), R171) -/

/-- Behind admitted prefixes a VEX form whose `vvvv` is not 1111b raises #UD. -/
theorem decodeVex_reservedVvvv {m : Mode} {p : Prefixes} {v1 v2 op : Byte} (bs : List Byte) (hid : vexIdentified m v1 v2 op)
    (hill : p.illegal = false) (h66 : p.n66 = 0) (hrep : p.repeated = false) (hvvvv : v2.extractLsb' 3 4 ≠ 15#4) :
    decodeVex m p none (v1 :: v2 :: op :: bs) = .ud := by
  obtain ⟨hpre, hmap, c, hc⟩ := vexIdentified_iff_checks.mp hid
  simp [decodeVex, hpre, hmap, hc, hill, h66, hrep, hvvvv]

/-- Behind admitted prefixes an EVEX form whose `vvvv` is not 1111b raises #UD: `vvvv` is among the bits with a fixed value. -/
theorem decodeEvex_reservedVvvv {m : Mode} {p : Prefixes} {p0 p1 p2 op : Byte} (bs : List Byte)
    (hid : evexIdentified m p0 p1 op) (hill : p.illegal = false) (h66 : p.n66 = 0) (hrep : p.repeated = false)
    (hvvvv : p1.extractLsb' 3 4 ≠ 15#4) : decodeEvex m p none (p0 :: p1 :: p2 :: op :: bs) = .ud := by
  obtain ⟨hpre, hmap, c, hc⟩ := evexIdentified_iff_checks.mp hid
  have hres : evexReserved m c p0 p1 p2 = true := by simp [evexReserved, hvvvv]
  simp [decodeEvex, hpre, hmap, hc, hill, h66, hrep, hres]

/-- Settles O7: behind admitted prefixes `vvvv` is the next check of both classes. -/
theorem reservedVvvvRaisesInvalidOpcode : Obligations.ReservedVvvvRaisesInvalidOpcode := by
  refine ⟨?vex, ?evex⟩
  case vex =>
    intro s pre rest v1 v2 op hadm hid hvvvv hf
    obtain ⟨hpre, hill, h66, hrep⟩ := admittedPrefixes_facts hadm
    rw [← List.append_nil pre] at hf
    exact step_of_decodeClass_ud hpre (.inl rfl) (by simp) hf (decodeVex_reservedVvvv _ hid hill h66 hrep hvvvv)
  case evex =>
    intro s pre rest p0 p1 p2 op hadm hid hvvvv hf
    obtain ⟨hpre, hill, h66, hrep⟩ := admittedPrefixes_facts hadm
    rw [← List.append_nil pre] at hf
    exact step_of_decodeClass_ud hpre (.inl rfl) (by simp) hf (decodeEvex_reservedVvvv _ hid hill h66 hrep hvvvv)

/-! ## Which check raises a fault (rules R109, R173 to R176) -/

/-- The source's fault is a memory fault of a memory operand (rule R175). -/
theorem formSource_error {i : Instr} {s : State} {f : Fault} (h : formSource i s = .error f) :
    f.isMemory = true ∧ ∃ m, srcOf i = .mem m :=
  source_error h

/-- A form raises #UD exactly when it is not enabled: the later checks raise other faults. -/
theorem exec_ud_iff (i : Instr) (s : State) : exec i s = .fault .ud ↔ enabledFor i s = false := by
  refine ⟨fun h => ?_, exec_of_not_enabled⟩
  obtain ⟨hen, _⟩ | ⟨_, _, hnm⟩ | ⟨_, _, hsrc⟩ := exec_fault_cases h
  · exact hen
  · cases hnm
  · obtain ⟨hmem, _⟩ := formSource_error hsrc
    cases hmem

/-- An enabled form raises #NM when CR0.TS = 1 (rule R174). -/
theorem exec_of_taskSwitched {i : Instr} {s : State} (hen : enabledFor i s = true) (hts : s.crTs = true) :
    exec i s = .fault .nm := by
  simp [exec_eq, State.runForm, hen, hts, raise]

/-- A form raises #NM exactly when it is enabled and CR0.TS = 1. -/
theorem exec_nm_iff (i : Instr) (s : State) : exec i s = .fault .nm ↔ enabledFor i s = true ∧ s.crTs = true := by
  refine ⟨fun h => ?_, fun ⟨hen, hts⟩ => exec_of_taskSwitched hen hts⟩
  obtain ⟨_, hud⟩ | ⟨hen, hts, _⟩ | ⟨_, _, hsrc⟩ := exec_fault_cases h
  · cases hud
  · exact ⟨hen, hts⟩
  · obtain ⟨hmem, _⟩ := formSource_error hsrc
    cases hmem

/-! ## The enables, bit by bit (rules R27, R173) -/

/-- SSE is not enabled when CR0.EM = 1 or CR4.OSFXSR = 0. -/
theorem osSse_eq_false_iff (s : State) : s.osSse = false ↔ s.cr0.getLsbD 2 = true ∨ s.cr4.getLsbD 9 = false := by
  rw [State.osSse, State.crEm, State.crOsfxsr, Bool.and_eq_false_iff, Bool.not_eq_false']

/-- AVX is not enabled when CR4.OSXSAVE = 0 or XCR0 bits 2:1 are not both 1. -/
theorem osAvx_eq_false_iff (s : State) : s.osAvx = false ↔ s.cr4.getLsbD 18 = false ∨ s.xcr0.extractLsb' 1 2 ≠ 3#2 := by
  rw [State.osAvx, State.crOsxsave, Bool.and_eq_false_iff, beq_eq_false_iff_ne]

/-- AVX-512 is not enabled when AVX is not or XCR0 bits 7:5 are not all 1. -/
theorem osAvx512_eq_false_iff (s : State) : s.osAvx512 = false ↔
    s.cr4.getLsbD 18 = false ∨ s.xcr0.extractLsb' 1 2 ≠ 3#2 ∨ s.xcr0.extractLsb' 5 3 ≠ 7#3 := by
  rw [State.osAvx512, Bool.and_eq_false_iff, osAvx_eq_false_iff, beq_eq_false_iff_ne, or_assoc]

/-- Settles O25: #UD is the answer of a form that is not enabled, and that is a missing flag of its row or a missing enable of
its class. -/
theorem formsRaiseInvalidOpcodeUnlessEnabled : Obligations.FormsRaiseInvalidOpcodeUnlessEnabled := by
  intro i s
  rw [exec_ud_iff, enabledFor]
  cases i.operands with
  | legacy o =>
    simp only [Bool.and_eq_false_iff, osSse_eq_false_iff]
    rfl
  | vex o =>
    simp only [Bool.and_eq_false_iff, osAvx_eq_false_iff, apply_ite (· = false)]
    rfl
  | evex o =>
    simp only [Bool.and_eq_false_iff, Bool.or_eq_false_iff, osAvx512_eq_false_iff, beq_eq_false_iff_ne,
      apply_ite (· = false), or_assoc]
    rfl

/-- Settles O26: `exec_nm_iff`, CR0.TS being bit 3. -/
theorem taskSwitchedRaisesDeviceNotAvailable : Obligations.TaskSwitchedRaisesDeviceNotAvailable :=
  exec_nm_iff

/-! ## Unreadable sources (rules R175, R176) -/

/-- A source that is not readable faults. -/
theorem exists_formSource_error {i : Instr} {s : State} (h : readableFor i s = false) : ∃ f, formSource i s = .error f := by
  cases hsrc : formSource i s with
  | error f => exact ⟨f, rfl⟩
  | ok v => simp [(formSource_ok_iff i s).mp ⟨v, hsrc⟩] at h

/-- Settles O27: the source's fault is a memory fault, and a register source has none. -/
theorem unreadableSourceRaisesMemoryFault : Obligations.UnreadableSourceRaisesMemoryFault := by
  constructor
  · intro i s hen hts hread
    obtain ⟨f, hf⟩ := exists_formSource_error hread
    obtain ⟨hmem, _⟩ := formSource_error hf
    exact ⟨f, hmem, exec_of_source_error hen hts hf⟩
  · intro i s r f hr h
    obtain ⟨_, hud⟩ | ⟨_, _, hnm⟩ | ⟨_, _, hsrc⟩ := exec_fault_cases h
    · exact .inl hud
    · exact .inr hnm
    · obtain ⟨_, m, hm⟩ := formSource_error hsrc
      cases hr.symm.trans hm

/-! ## Fault suppression (rule R177) -/

/-- An enabled form with CR0.TS = 0 completes exactly when its source is readable. -/
theorem exec_next_iff_readable {i : Instr} {s : State} (hen : enabledFor i s = true) (hts : s.crTs = false) :
    (∃ t, exec i s = .next t) ↔ readableFor i s = true := by
  rw [(formsCompleteExactlyWhenAllowed i s).1]
  exact ⟨fun ⟨_, _, hread⟩ => hread, fun hread => ⟨hen, hts, hread⟩⟩

/-- Without `AlignCheck` it completes exactly when the reads from memory that must be admitted are. -/
theorem exec_next_iff_admitted {i : Instr} {s : State} {m : MemOp} (hm : srcOf i = .mem m) (hen : enabledFor i s = true)
    (hts : s.crTs = false) (halign : s.alignCheck = false) : (∃ t, exec i s = .next t) ↔ readAdmitted i s m = true := by
  rw [exec_next_iff_readable hen hts]
  simp [readableFor, hm, halign]

/-- Where faults are not suppressed, every byte of the operand must be admitted. -/
theorem readAdmitted_of_not_suppresses {i : Instr} {s : State} (h : suppresses i s = false) (m : MemOp) :
    readAdmitted i s m = s.admits (addrOf i s m) (nbytesOf i) (segOf (overrideOf i) m) := by
  simp [readAdmitted, h]

/-- Where they are, the bytes of each element that is written must be. -/
theorem readAdmitted_of_suppresses {i : Instr} {s : State} (h : suppresses i s = true) (m : MemOp) :
    readAdmitted i s m = true ↔ ∀ j < klOf i, elementWritten i s j = true →
      s.admits (addrOf i s m + BitVec.ofNat 64 (j * (srcWidth (convOf i) / 8))) (srcWidth (convOf i) / 8)
        (segOf (overrideOf i) m) = true := by
  simp only [readAdmitted, h, if_true, List.all_eq_true, List.mem_range, Bool.or_eq_true, Bool.not_eq_true']
  exact forall₂_congr fun j _ => by rw [← Bool.not_eq_true, imp_iff_not_or]

/-- An EVEX form suppresses faults where the parameter says so. -/
theorem suppresses_evex {i : Instr} {o : EvexOps} (ho : i.operands = .evex o) (s : State) :
    suppresses i s = s.params.faultSuppression := by
  simp only [suppresses, ho]

/-- No other form does. -/
theorem suppresses_of_not_evex {i : Instr} (h : ∀ o, i.operands ≠ .evex o) (s : State) : suppresses i s = false := by
  unfold suppresses
  split
  · rfl
  · rfl
  next o ho => exact absurd ho (h o)

/-- An EVEX form writes the elements that its opmask selects, all of them without one (rule R104). -/
theorem elementWritten_evex {i : Instr} {o : EvexOps} (ho : i.operands = .evex o) (s : State) (j : Nat) :
    elementWritten i s j = true ↔ o.aaa = 0#3 ∨ (s.kRead o.aaa).getLsbD j = true := by
  simp only [elementWritten, ho, Bool.or_eq_true, beq_iff_eq]

/-- A form with fault suppression that writes no element can read its source, whatever is admitted. -/
theorem readableFor_of_none_written {i : Instr} {s : State} (hsup : suppresses i s = true)
    (h : ∀ j < klOf i, elementWritten i s j = false) : readableFor i s = true := by
  cases hm : srcOf i with
  | reg r => simp only [readableFor, hm]
  | mem m =>
    have hadm : readAdmitted i s m = true := (readAdmitted_of_suppresses hsup m).mpr fun j hj hw => by simp [h j hj] at hw
    have hsome : readsSome i s = false := by simpa [readsSome, hsup] using h
    simp [readableFor, hm, hadm, hsome]

/-- The state with fault suppression set or not. -/
def State.withSuppression (s : State) (b : Bool) : State :=
  { s with params := { s.params with faultSuppression := b } }

/-- A memory source that can be read is the bytes at its address, whichever of them had to be admitted. -/
theorem formSource_mem {i : Instr} {s : State} {m : MemOp} {v : Vec} (hm : srcOf i = .mem m) (hv : formSource i s = .ok v) :
    v = s.memRead (addrOf i s m) (nbytesOf i) := by
  have hread := (formSource_ok_iff i s).mp ⟨v, hv⟩
  rw [formSource, hm, source_mem_ok ((memFault_none_iff hm).mpr hread)] at hv
  exact (Except.ok.inj hv).symm

/-- Where the source can be read in both settings, it is the same. -/
theorem formSource_withSuppression {i : Instr} {s : State} {b : Bool} {v w : Vec} (hv : formSource i s = .ok v)
    (hw : formSource i (s.withSuppression b) = .ok w) : w = v := by
  cases hm : srcOf i with
  | reg r =>
    rw [formSource_reg hm] at hv hw
    exact Except.ok.inj (hw.symm.trans hv)
  | mem m =>
    rw [formSource_mem hm hv, formSource_mem hm hw]
    rfl

/-- Where a form completes in both settings, it leaves the same vector registers. -/
theorem exec_withSuppression_zmm {i : Instr} {s t u : State} {b : Bool} (ht : exec i s = .next t)
    (hu : exec i (s.withSuppression b) = .next u) : u.zmm = t.zmm := by
  obtain ⟨_, _, v, hv, rfl⟩ := exec_next ht
  obtain ⟨_, _, w, hw, rfl⟩ := exec_next hu
  rw [formSource_withSuppression hv hw]
  rfl

/-- Settles O30: completion by what must be admitted, class by class, and the values by the source. -/
theorem faultSuppressionDecidesMaskedOffReads : Obligations.FaultSuppressionDecidesMaskedOffReads := by
  refine ⟨?evex, ?others, ?noneWritten, fun i s t u b ht hu => exec_withSuppression_zmm ht hu⟩
  case evex =>
    intro i o s m ho hm hen hts halign
    rw [exec_next_iff_admitted hm hen hts halign]
    split
    next hsup =>
      rw [readAdmitted_of_suppresses ((suppresses_evex ho s).trans hsup)]
      simp only [elementWritten_evex ho]
    next hsup =>
      rw [readAdmitted_of_not_suppresses ((suppresses_evex ho s).trans (Bool.eq_false_of_not_eq_true hsup))]
  case others =>
    intro i s m hno hm hen hts halign
    rw [exec_next_iff_admitted hm hen hts halign, readAdmitted_of_not_suppresses (suppresses_of_not_evex hno s)]
  case noneWritten =>
    intro i o s ho hsup haaa hmask hen hts
    have hnone : ∀ j < klOf i, elementWritten i s j = false := fun j hj => by
      rw [← Bool.not_eq_true, elementWritten_evex ho, hmask j hj]
      simp [haaa]
    exact (exec_next_iff_readable hen hts).mpr (readableFor_of_none_written ((suppresses_evex ho s).trans hsup) hnone)

end Sys2Proof.Machine
end

section
/-! PROOFS. The family spec/70_reset_and_hazards.md: where a run of a program ends, and what a launch leaves.

What is left of the program comes first, then what the step refuses, then runs; the launch goes field by field. -/

namespace Sys2Proof.Machine

/-! ## What is left of the program (rules R40, R204) -/

/-- A linear address lies below the top of the space. -/
theorem linear_lt_addressTop (s : State) (sg : Seg) (ea : Word) : (s.linear sg ea).toNat < addressTop s.params.mode := by
  rw [linear_toNat, modulusOf_eq_addressTop]
  exact Nat.mod_lt _ (by cases s.params.mode <;> decide)

/-- From the program's first byte on, nothing is left exactly at its end or at the top of the program counter's range. -/
theorem progRemaining_eq_zero_iff {s : State} (hbase : s.params.progBase.toNat ≤ s.pcCount) :
    s.progRemaining = 0 ↔
      s.params.progBase.toNat + s.params.progLen ≤ s.pcCount ∨ addressTop s.params.mode ≤ s.pcCount := by
  have hlin := linear_lt_addressTop s .cs s.rip
  rw [State.progRemaining, if_pos hbase]
  omega

/-- The end of the run is `pc = base + L`. -/
theorem atEnd_iff (s : State) : s.atEnd = true ↔ s.pcCount = s.params.progBase.toNat + s.params.progLen :=
  beq_iff_eq

/-! ## What the step refuses (rules R9, R204) -/

/-- A refusal of the step is of a program counter at no program byte, or the decoder's. -/
theorem step_refused_cases {s : State} {r : Refusal} (h : step s = .refused r) :
    (s.progRemaining = 0 ∧ r = if s.atEnd then .endOfProgram else .outsideProgram) ∨ ∃ why, r = .undecoded why := by
  by_cases hp : s.progRemaining = 0
  · rw [step_of_progRemaining_eq_zero hp] at h
    cases h
    exact .inl ⟨hp, rfl⟩
  · cases hd : decode s.params.mode s.fetchBytes with
    | instr i =>
      rw [step_of_decode_instr hd] at h
      exact absurd h ((formsCompleteExactlyWhenAllowed i s).2 r)
    | ud =>
      rw [step_of_decode_ud hd] at h
      cases h
    | reject why =>
      rw [step_of_decode_reject hp hd] at h
      cases h
      exact .inr ⟨why, rfl⟩

/-- The step is refused as the end of the program exactly at `base + L`. -/
theorem step_endOfProgram_iff (s : State) :
    step s = .refused .endOfProgram ↔ s.pcCount = s.params.progBase.toNat + s.params.progLen := by
  rw [← atEnd_iff]
  constructor
  · intro h
    rcases step_refused_cases h with ⟨_, hr⟩ | ⟨why, hr⟩
    · by_contra hend
      rw [if_neg hend] at hr
      cases hr
    · cases hr
  · intro hend
    have hpc := (atEnd_iff s).mp hend
    have hp : s.progRemaining = 0 := (progRemaining_eq_zero_iff (by omega)).mpr (.inl hpc.ge)
    rw [step_of_progRemaining_eq_zero hp, if_pos hend]

/-- The counted program counter is at a byte of the program or at its end. -/
def State.AtProgram (s : State) : Prop :=
  s.params.progBase.toNat ≤ s.pcCount ∧ s.pcCount ≤ s.params.progBase.toNat + s.params.progLen

/-- In a program that fits below the top, no step is refused as outside it: short of its end some byte is left. -/
theorem step_ne_outsideProgram {s : State} (hat : s.AtProgram)
    (hfit : s.params.progBase.toNat + s.params.progLen ≤ modulusOf s.params.mode) :
    step s ≠ .refused .outsideProgram := by
  obtain ⟨hbase, hend⟩ := hat
  intro h
  rcases step_refused_cases h with ⟨hp, hr⟩ | ⟨why, hr⟩
  · rw [modulusOf_eq_addressTop] at hfit
    have hpc : s.pcCount = s.params.progBase.toNat + s.params.progLen := by
      have := (progRemaining_eq_zero_iff hbase).mp hp
      omega
    rw [if_pos ((atEnd_iff s).mpr hpc)] at hr
    cases hr
  · cases hr

/-! ## Runs (rules R60, R204) -/

/-- No step changes the parameters, the program text among them. -/
theorem step_params {s t : State} (h : step s = .next t) : t.params = s.params := by
  obtain ⟨i, _, hexec⟩ := step_next h
  obtain ⟨_, _, v, _, rfl⟩ := exec_next hexec
  rfl

/-- A completed step moves at least five bytes, the length of the shortest form, and not past the program's end. -/
theorem step_pcCount_bounds {s t : State} (h : step s = .next t) :
    s.pcCount + 5 ≤ t.pcCount ∧ t.pcCount ≤ s.params.progBase.toNat + s.params.progLen := by
  obtain ⟨i, hdec, _, hpc⟩ := stepAdvancesByInstructionLength s t h
  obtain ⟨hw, _, hend, _⟩ := fetched_instr_bounds hdec
  have hrip : s.pcCount = s.rip.toNat := by simp [State.pcCount, hw]
  have hlen := (len_bounds i).1
  omega

/-- A completed step stays at the program. -/
theorem State.AtProgram.step {s t : State} (hat : s.AtProgram) (h : step s = .next t) : t.AtProgram := by
  obtain ⟨hmoved, hend⟩ := step_pcCount_bounds h
  rw [State.AtProgram, step_params h]
  exact ⟨by have := hat.1; omega, hend⟩

/-- A run of `n` steps keeps the parameters, stays at the program and moves at least `5n` bytes. -/
theorem run_bounds {n : Nat} {s t : State} (hat : s.AtProgram) (h : Host.Core.run Sys2Proof.core n s = .next t) :
    t.params = s.params ∧ t.AtProgram ∧ s.pcCount + 5 * n ≤ t.pcCount := by
  induction n generalizing s with
  | zero =>
    obtain rfl := run_zero_next h
    exact ⟨rfl, hat, le_rfl⟩
  | succ n ih =>
    obtain ⟨u, hstep, hrun⟩ := run_succ_next h
    obtain ⟨hparams, hatt, hmoved⟩ := ih (hat.step hstep) hrun
    have hfirst := (step_pcCount_bounds hstep).1
    exact ⟨hparams.trans (step_params hstep), hatt, by omega⟩

/-- Settles O48: `run_bounds`, by induction on the steps, and what the step refuses where the run has come to. -/
theorem runEndsWithinLengthOverFive : Obligations.RunEndsWithinLengthOverFive := by
  intro n s t hbase hend hrun
  obtain ⟨hparams, hat, hmoved⟩ := run_bounds ⟨hbase, hend⟩ hrun
  have htend := hat.2
  rw [← hparams] at hbase hend ⊢
  exact ⟨hmoved, htend, by omega, step_endOfProgram_iff t, step_ne_outsideProgram hat⟩

/-! ## The launch, field by field (rules R200, R201, R204) -/

/-- A launch places the program's bytes, sets its extent and the enables, clears the wrap mark, and changes nothing else. -/
theorem launch_eq (s : State) (bs : List Byte) :
    s.launch bs = { s.enableAll with
      mem := (s.placeBytes (s.linear .cs s.rip) 0 bs).mem
      wrapped := false
      params := { s.params with progBase := s.rip, progLen := bs.length } } := by
  rw [State.launch, placeBytes_rest]
  rfl

section Launch

variable (s : State) (bs : List Byte)

@[simp] theorem launch_zmm : (s.launch bs).zmm = s.zmm := by simp [launch_eq]
@[simp] theorem launch_k : (s.launch bs).k = s.k := by simp [launch_eq]
@[simp] theorem launch_x : (s.launch bs).x = s.x := by simp [launch_eq]
@[simp] theorem launch_rip : (s.launch bs).rip = s.rip := by simp [launch_eq]
@[simp] theorem launch_wrapped : (s.launch bs).wrapped = false := by simp [launch_eq]
@[simp] theorem launch_segBase : (s.launch bs).segBase = s.segBase := by simp [launch_eq]
@[simp] theorem launch_cr0 : (s.launch bs).cr0 = s.cr0 &&& ~~~0xC#64 := by simp [launch_eq]
@[simp] theorem launch_cr4 : (s.launch bs).cr4 = s.cr4 ||| 0x40200#64 := by simp [launch_eq]
@[simp] theorem launch_xcr0 : (s.launch bs).xcr0 = s.xcr0 ||| 0xE7#64 := by simp [launch_eq]
@[simp] theorem launch_mem : (s.launch bs).mem = (s.placeBytes (s.linear .cs s.rip) 0 bs).mem := by simp [launch_eq]
@[simp] theorem launch_params :
    (s.launch bs).params = { s.params with progBase := s.rip, progLen := bs.length } := by simp [launch_eq]

/-- Before the program counter has wrapped it is its own count. -/
@[simp] theorem launch_pcCount : (s.launch bs).pcCount = s.rip.toNat := by simp [State.pcCount]

/-- A launch moves no linear address. -/
@[simp] theorem launch_linear (sg : Seg) (ea : Word) : (s.launch bs).linear sg ea = s.linear sg ea := by
  simp [State.linear, State.segBaseOf]

/-- A launch moves no byte's address. -/
@[simp] theorem launch_byteAddr (la : Word) (i : Nat) : (s.launch bs).byteAddr la i = s.byteAddr la i := by
  simp [State.byteAddr]

/-! ## What is fetched after a launch (rules R24, R40, R204) -/

variable {s bs}

/-- All of a program below the top of both spaces is left after its launch. -/
theorem launch_progRemaining (hpc : s.rip.toNat + bs.length ≤ addressTop s.params.mode)
    (hlin : (s.linear .cs s.rip).toNat + bs.length ≤ addressTop s.params.mode) :
    (s.launch bs).progRemaining = bs.length := by
  simp only [State.progRemaining, launch_params, launch_pcCount, launch_rip, launch_linear, le_refl, if_true]
  omega

/-- The bytes of a program below the top of both spaces are what is fetched after its launch. -/
theorem launch_fetchBytes (hwf : s.mem.wf = true) (hpc : s.rip.toNat + bs.length ≤ addressTop s.params.mode)
    (hlin : (s.linear .cs s.rip).toNat + bs.length ≤ addressTop s.params.mode) : (s.launch bs).fetchBytes = bs := by
  have hrem := launch_progRemaining hpc hlin
  refine List.ext_getElem ((length_fetchBytes _).trans hrem) fun n _ hn => ?_
  have hbyte := fetchBytes_getElem? (s := s.launch bs) (hrem.symm ▸ hn)
  rw [launch_rip, launch_linear, launch_byteAddr, launch_mem, placeBytes_read hwf (by omega) (by omega),
    if_pos (by omega)] at hbyte
  simpa [hn] using (List.getElem?_eq_some_iff.mp hbyte).2

/-! ## The enables after a launch (rules R27, R201) -/

variable (s bs)

/-- The mask of CR0 clears bit 3. -/
theorem launch_crTs : (s.launch bs).crTs = false := by
  simp [State.crTs]

/-- The masks clear CR0 bit 2 and set CR4 bit 9. -/
theorem launch_osSse : (s.launch bs).osSse = true := by
  simp [State.osSse, State.crEm, State.crOsfxsr]

/-- Bits that a mask has set are set in its union with any word. -/
theorem extractLsb'_or_of_mask {w : Nat} {x m : BitVec w} {i n : Nat} (h : m.extractLsb' i n = BitVec.allOnes n) :
    (x ||| m).extractLsb' i n = BitVec.allOnes n := by
  rw [BitVec.extractLsb'_or, h, BitVec.or_allOnes]

/-- The masks set CR4 bit 18 and XCR0 bits 2:1. -/
theorem launch_osAvx : (s.launch bs).osAvx = true := by
  have hxcr0 : (s.xcr0 ||| 0xE7#64).extractLsb' 1 2 = 3#2 := extractLsb'_or_of_mask (by decide)
  simp [State.osAvx, State.crOsxsave, hxcr0]

/-- The mask of XCR0 sets bits 7:5. -/
theorem launch_osAvx512 : (s.launch bs).osAvx512 = true := by
  have hxcr0 : (s.xcr0 ||| 0xE7#64).extractLsb' 5 3 = 7#3 := extractLsb'_or_of_mask (by decide)
  simp [State.osAvx512, launch_osAvx, hxcr0]

end Launch

/-- Settles O49: the fetched bytes, the enables, and the fields of a launch. -/
theorem launchedProgramIsFetched : Obligations.LaunchedProgramIsFetched := by
  intro s bs hwf hpc hlin
  rw [modulusOf_eq_addressTop] at hpc hlin
  exact ⟨launch_fetchBytes hwf hpc hlin, launch_crTs s bs, launch_osSse s bs, launch_osAvx s bs, launch_osAvx512 s bs,
    placeBytes_wf s _ 0 bs hwf, launch_zmm s bs, launch_k s bs, launch_x s bs, launch_rip s bs, launch_wrapped s bs⟩

end Sys2Proof.Machine
end
